-- ==== Sys2Proof/Word.lean ====
section
/-! DEFINITION. The byte, and the level of a one-bit line. -/

namespace Sys2Proof

/-- `u8` (spec 00_scope R8). -/
abbrev Byte := BitVec 8

/-- The level of a one-bit line. The block's lines `int_n`, `rst_n` and `cs_n` are active low:
`low` is asserted (R10, R243, R260). -/
inductive Level where
  | low
  | high
  deriving DecidableEq, Repr, Inhabited

end Sys2Proof
end

