-- ==== Sys2Proof/Config.lean ====
section
/-! DEFINITION. What an instance of the block fixes (spec 00_scope R6), and the free values: the OPEN reset
delay, the chip's answers and the choice of the next agent. The default values of R6 stand in
Machine/Defaults.lean. -/

namespace Sys2Proof

/-- Identifier width (R6, fixed). -/
abbrev idBits : Nat := 11

/-- Maximum payload length in bytes (R6, fixed). -/
abbrev maxLen : Nat := 8

/-- The chip's three transmit buffers (R106). -/
inductive TxBuffer where
  | b0
  | b1
  | b2
  deriving DecidableEq, Repr

/-- The chip's two receive buffers (R108). -/
inductive RxBuffer where
  | b0
  | b1
  deriving DecidableEq, Repr

/-- How the interrupt line starts the drain agent: parameter `DRAIN_MODE` (R6, R172). -/
inductive DrainMode where
  | level
  | edge
  | polled
  deriving DecidableEq, Repr

/-- The transaction that answers "available channels": parameter `AVAIL_SOURCE` (R6, R171). -/
inductive AvailSource where
  | rxStatus
  | readStatus
  deriving DecidableEq, Repr

/-- The parameters of R6, by their names there. `ID_BITS` and `MAX_LEN` are fixed above. -/
structure Config where
  fifoN : Nat
  dummyByte : Byte
  /-- `RESET_DELAY`: the length of the delay after a RESET, abstract (R6, R262; log 13). -/
  resetDelay : Nat
  txPendingBit0 : Fin 8
  txPendingBit1 : Fin 8
  txPendingBit2 : Fin 8
  availSource : AvailSource
  rxClearMask1 : Byte
  rxClearMask2 : Byte
  drainMode : DrainMode
  initCaninte : Byte
  modeMask : Byte
  modeNormal : Byte
  modeConfig : Byte
  modeSilent : Byte
  rxb0ctrlFilterOn : Byte
  rxb1ctrlFilterOn : Byte
  rxb0ctrlFilterOff : Byte
  rxb1ctrlFilterOff : Byte
  deriving DecidableEq, Repr

/-- What the environment may do between any two steps (R243, R260). -/
inductive EnvEvent where
  /-- `ENV_SET_INT(v)`: drive `int_n` to level `v`. -/
  | setInt (v : Level)
  /-- Drive `rst_n` to level `v`; `low` asserts the block reset. -/
  | setRst (v : Level)
  deriving DecidableEq, Repr

/-- One place in an interleaving: which agent moves (R59). -/
inductive Turn where
  | env (e : EnvEvent)
  | drain
  | host
  deriving DecidableEq, Repr, Inhabited

/-- FREE VALUE: the default of `RESET_DELAY`, which R6 and D20 leave OPEN. Log 13; safe. -/
opaque Config.freeResetDelay : Nat

/-- FREE VALUE: the `n`-th MISO byte drawn past the written-down answers. The chip is an oracle (R52), so
nothing constrains it. Log 2; safe. -/
opaque Config.freeMiso : Nat → Byte

/-- FREE VALUE: the `n`-th turn past the written-down schedule. The spec fixes no order among enabled
agents beyond R244 and R245. Log 3; safe. -/
opaque Config.freeTurn : Nat → Turn

end Sys2Proof
end

