-- ==== Sys2Proof/Machine/Defaults.lean ====
section
/-! DEFINITION. The default parameter values of spec 00_scope R6. -/

namespace Sys2Proof.Machine

/-- Every parameter at the value R6 gives it; `RESET_DELAY`, OPEN there, at a free value (log 13). `FIFO_N` = 30 is the source's; the others are the spec's
own defaults, several from general knowledge of the MCP2515 (spec 93 G6 to G10). PRESUMED by the spec, log 15. -/
def defaultConfig : Config where
  fifoN := 30
  dummyByte := 0x00
  resetDelay := Config.freeResetDelay
  txPendingBit0 := 2
  txPendingBit1 := 4
  txPendingBit2 := 6
  availSource := .rxStatus
  rxClearMask1 := 0x01
  rxClearMask2 := 0x02
  drainMode := .level
  initCaninte := 0x03
  modeMask := 0xE0
  modeNormal := 0x00
  modeConfig := 0x80
  modeSilent := 0x60
  rxb0ctrlFilterOn := 0x00
  rxb1ctrlFilterOn := 0x00
  rxb0ctrlFilterOff := 0x64
  rxb1ctrlFilterOff := 0x60

end Sys2Proof.Machine
end

