-- ==== Sys2Proof/Syntax.lean ====
section
/-! DEFINITION. The syntax of both encoded interfaces (spec 30_encoding): the host request record, and
`Instr`, one constructor per row of spec/opcode_table.json (14 bus commands, 19 host operations). -/

namespace Sys2Proof

/-- A host request (R80), every field with the width given there. `length` is `s8`, two's complement. -/
structure Request where
  op : Byte
  khz : BitVec 32
  performReset : BitVec 1
  enable : BitVec 1
  channel : Byte
  index : Byte
  id : BitVec 16
  length : BitVec 8
  data : Vector Byte 8
  deriving DecidableEq, Repr

/-- What stands at the request port. `request` is the block's host port (R80). `command` is one bus
command presented to the transaction sequencer alone: no host of the spec does this (40_register_interface,
opening), it gives the 14 command rows of the table a step of their own. DESIGN CHOICE, log 7; safe. -/
inductive Presented where
  | request (r : Request)
  | command (mosi : List Byte)
  deriving DecidableEq, Repr

/-- One constructor per row of the opcode table, its operands those its rule names. -/
inductive Instr where
  -- Bus commands (R70, R100 to R108).
  | reset
  | read (addr : Byte)
  | write (addr value : Byte)
  | modify (addr mask value : Byte)
  | readStatus
  | rxStatus
  | loadTx0 (sidh sidl dlc : Byte) (payload : List Byte)
  | loadTx1 (sidh sidl dlc : Byte) (payload : List Byte)
  | loadTx2 (sidh sidl dlc : Byte) (payload : List Byte)
  | rts0
  | rts1
  | rts2
  | readRx0
  | readRx1
  -- Host operations (R81), in the order of their op codes 0x01 to 0x13.
  | initializeOp (khz : BitVec 32) (performReset : BitVec 1)
  | setBitrate (khz : BitVec 32)
  | availableChannels
  | interruptPending
  | send (id : BitVec 16) (length : BitVec 8) (data : Vector Byte 8)
  | receive (channel : Byte)
  | setFilter (channel index : Byte) (id : BitVec 16)
  | setMask (channel : Byte) (id : BitVec 16)
  | filterOn
  | filterOff
  | hardReset
  | setConfigMode (enable : BitVec 1)
  | setSilentMode (enable : BitVec 1)
  | attachCallback
  | detachCallback
  | readRxError
  | readTxError
  | fifoPop
  | fifoSize
  deriving DecidableEq, Repr

end Sys2Proof
end

