-- ==== Sys2Proof/WellFormed.lean ====
section
/-! DEFINITION. The checks an instruction and a configuration must pass. Every host operation takes any
value of its operands (R80); only LOAD_TX limits them (R106). -/

namespace Sys2Proof

/-- T_LOAD_TX's operands: "`dlc: u8` with value L in 0..8; `payload`: a list of L bytes" (R106). -/
def loadTxOperandsOk (dlc : Byte) (payload : List Byte) : Bool :=
  decide (dlc.toNat ≤ maxLen) && decide (payload.length = dlc.toNat)

def Instr.wellFormed : Instr → Bool
  | .loadTx0 _ _ dlc payload => loadTxOperandsOk dlc payload
  | .loadTx1 _ _ dlc payload => loadTxOperandsOk dlc payload
  | .loadTx2 _ _ dlc payload => loadTxOperandsOk dlc payload
  | .reset => true
  | .read _ => true
  | .write _ _ => true
  | .modify _ _ _ => true
  | .readStatus => true
  | .rxStatus => true
  | .rts0 => true
  | .rts1 => true
  | .rts2 => true
  | .readRx0 => true
  | .readRx1 => true
  | .initializeOp _ _ => true
  | .setBitrate _ => true
  | .availableChannels => true
  | .interruptPending => true
  | .send _ _ _ => true
  | .receive _ => true
  | .setFilter _ _ _ => true
  | .setMask _ _ => true
  | .filterOn => true
  | .filterOff => true
  | .hardReset => true
  | .setConfigMode _ => true
  | .setSilentMode _ => true
  | .attachCallback => true
  | .detachCallback => true
  | .readRxError => true
  | .readTxError => true
  | .fifoPop => true
  | .fifoSize => true

/-- "A model instance is well formed only if `FIFO_N ≥ 1`" (R7). -/
def Config.wellFormed (c : Config) : Bool :=
  decide (1 ≤ c.fifoN)

end Sys2Proof
end

