-- ==== Sys2Proof/Decode.lean ====
section
/-! DEFINITION. The decoders of the two interfaces and, after them, the encoder (spec 30_encoding). Both
decoders are total and reject by name. -/

namespace Sys2Proof

/-- Why what stands at the request port is no instruction. -/
inductive DecodeError where
  /-- Host op code 0x00 or 0x14 to 0xFF (R83). -/
  | reservedOp (op : Byte)
  /-- A command with no byte. -/
  | emptyCommand
  /-- A command byte outside the 14 of R70 (R79). -/
  | unknownCommand (op : Byte)
  /-- Not the number of bytes R71 gives the command, or a DLC above 8. -/
  | badLength (op : Byte)
  /-- A byte other than `DUMMY_BYTE` where R71 has `D`. -/
  | badDummy (op : Byte)
  /-- A nonzero extended-ID byte in LOAD_TX (R73). -/
  | badExtendedId (op : Byte)
  deriving DecidableEq, Repr

/-- The host op codes of R81. Each operation takes the fields its row names and ignores the rest (R80). -/
def decodeRequest (r : Request) : Except DecodeError Instr :=
  match r.op with
  | 0x01#8 => .ok (.initializeOp r.khz r.performReset)
  | 0x02#8 => .ok (.setBitrate r.khz)
  | 0x03#8 => .ok .availableChannels
  | 0x04#8 => .ok .interruptPending
  | 0x05#8 => .ok (.send r.id r.length r.data)
  | 0x06#8 => .ok (.receive r.channel)
  | 0x07#8 => .ok (.setFilter r.channel r.index r.id)
  | 0x08#8 => .ok (.setMask r.channel r.id)
  | 0x09#8 => .ok .filterOn
  | 0x0A#8 => .ok .filterOff
  | 0x0B#8 => .ok .hardReset
  | 0x0C#8 => .ok (.setConfigMode r.enable)
  | 0x0D#8 => .ok (.setSilentMode r.enable)
  | 0x0E#8 => .ok .attachCallback
  | 0x0F#8 => .ok .detachCallback
  | 0x10#8 => .ok .readRxError
  | 0x11#8 => .ok .readTxError
  | 0x12#8 => .ok .fifoPop
  | 0x13#8 => .ok .fifoSize
  | op => .error (.reservedOp op)

/-- A command of one byte. -/
def decodeBare (i : Instr) (op : Byte) (rest : List Byte) : Except DecodeError Instr :=
  match rest with
  | [] => .ok i
  | _ :: _ => .error (.badLength op)

/-- A status query: the command byte and one dummy byte. -/
def decodeQuery (i : Instr) (d op : Byte) (rest : List Byte) : Except DecodeError Instr :=
  match rest with
  | [x] => if x = d then .ok i else .error (.badDummy op)
  | _ => .error (.badLength op)

def decodeRead (d op : Byte) (rest : List Byte) : Except DecodeError Instr :=
  match rest with
  | [addr, x] => if x = d then .ok (.read addr) else .error (.badDummy op)
  | _ => .error (.badLength op)

def decodeWrite (op : Byte) (rest : List Byte) : Except DecodeError Instr :=
  match rest with
  | [addr, value] => .ok (.write addr value)
  | _ => .error (.badLength op)

def decodeModify (op : Byte) (rest : List Byte) : Except DecodeError Instr :=
  match rest with
  | [addr, mask, value] => .ok (.modify addr mask value)
  | _ => .error (.badLength op)

/-- LOAD_TX: `SIDH, SIDL, 0x00, 0x00, DLC, data` with as many data bytes as DLC says, at most 8 (R71, R73). -/
def decodeLoadTx (mk : Byte → Byte → Byte → List Byte → Instr) (op : Byte) (rest : List Byte) :
    Except DecodeError Instr :=
  match rest with
  | sidh :: sidl :: eid8 :: eid0 :: dlc :: payload =>
    if eid8 = 0x00 ∧ eid0 = 0x00 then
      if loadTxOperandsOk dlc payload then .ok (mk sidh sidl dlc payload) else .error (.badLength op)
    else .error (.badExtendedId op)
  | _ => .error (.badLength op)

/-- READ_RX as presented: the command byte and the five header dummies. The payload dummies are not part of
what is presented, since their number is known only from the DLC the chip answers (R75). -/
def decodeReadRx (i : Instr) (d op : Byte) (rest : List Byte) : Except DecodeError Instr :=
  if rest.length = 5 then
    if rest = List.replicate 5 d then .ok i else .error (.badDummy op)
  else .error (.badLength op)

/-- The command bytes of R70 and their formats of R71. `d` is the instance's `DUMMY_BYTE`. -/
def decodeCommand (d : Byte) (bytes : List Byte) : Except DecodeError Instr :=
  match bytes with
  | [] => .error .emptyCommand
  | op :: rest =>
    match op with
    | 0xC0#8 => decodeBare .reset op rest
    | 0x03#8 => decodeRead d op rest
    | 0x02#8 => decodeWrite op rest
    | 0x05#8 => decodeModify op rest
    | 0xA0#8 => decodeQuery .readStatus d op rest
    | 0xB0#8 => decodeQuery .rxStatus d op rest
    | 0x40#8 => decodeLoadTx .loadTx0 op rest
    | 0x42#8 => decodeLoadTx .loadTx1 op rest
    | 0x44#8 => decodeLoadTx .loadTx2 op rest
    | 0x81#8 => decodeBare .rts0 op rest
    | 0x82#8 => decodeBare .rts1 op rest
    | 0x84#8 => decodeBare .rts2 op rest
    | 0x90#8 => decodeReadRx .readRx0 d op rest
    | 0x94#8 => decodeReadRx .readRx1 d op rest
    | op => .error (.unknownCommand op)

/-- The instruction that stands at the request port. -/
def decodePresented (d : Byte) (p : Presented) : Except DecodeError Instr :=
  match p with
  | .request r => decodeRequest r
  | .command bytes => decodeCommand d bytes

/-! ### The encoder -/

/-- The request with op code `op` and every other field 0: unread fields may hold any value (R80). -/
def blankRequest (op : Byte) : Request where
  op := op
  khz := 0
  performReset := 0
  enable := 0
  channel := 0
  index := 0
  id := 0
  length := 0
  data := Vector.replicate 8 0

/-- The bytes of a LOAD_TX (R71, R73). -/
def loadTxBytes (op sidh sidl dlc : Byte) (payload : List Byte) : List Byte :=
  op :: sidh :: sidl :: 0x00 :: 0x00 :: dlc :: payload

/-- What is presented for an instruction: the bytes of R71 for a bus command, the record of R80 with the op
code of R81 for a host operation. -/
def encode (d : Byte) : Instr → Presented
  | .reset => .command [0xC0]
  | .read addr => .command [0x03, addr, d]
  | .write addr value => .command [0x02, addr, value]
  | .modify addr mask value => .command [0x05, addr, mask, value]
  | .readStatus => .command [0xA0, d]
  | .rxStatus => .command [0xB0, d]
  | .loadTx0 sidh sidl dlc payload => .command (loadTxBytes 0x40 sidh sidl dlc payload)
  | .loadTx1 sidh sidl dlc payload => .command (loadTxBytes 0x42 sidh sidl dlc payload)
  | .loadTx2 sidh sidl dlc payload => .command (loadTxBytes 0x44 sidh sidl dlc payload)
  | .rts0 => .command [0x81]
  | .rts1 => .command [0x82]
  | .rts2 => .command [0x84]
  | .readRx0 => .command [0x90, d, d, d, d, d]
  | .readRx1 => .command [0x94, d, d, d, d, d]
  | .initializeOp khz performReset =>
    .request { blankRequest 0x01 with khz := khz, performReset := performReset }
  | .setBitrate khz => .request { blankRequest 0x02 with khz := khz }
  | .availableChannels => .request (blankRequest 0x03)
  | .interruptPending => .request (blankRequest 0x04)
  | .send id length data => .request { blankRequest 0x05 with id := id, length := length, data := data }
  | .receive channel => .request { blankRequest 0x06 with channel := channel }
  | .setFilter channel index id =>
    .request { blankRequest 0x07 with channel := channel, index := index, id := id }
  | .setMask channel id => .request { blankRequest 0x08 with channel := channel, id := id }
  | .filterOn => .request (blankRequest 0x09)
  | .filterOff => .request (blankRequest 0x0A)
  | .hardReset => .request (blankRequest 0x0B)
  | .setConfigMode enable => .request { blankRequest 0x0C with enable := enable }
  | .setSilentMode enable => .request { blankRequest 0x0D with enable := enable }
  | .attachCallback => .request (blankRequest 0x0E)
  | .detachCallback => .request (blankRequest 0x0F)
  | .readRxError => .request (blankRequest 0x10)
  | .readTxError => .request (blankRequest 0x11)
  | .fifoPop => .request (blankRequest 0x12)
  | .fifoSize => .request (blankRequest 0x13)

/-! ### The table's numbering -/

/-- Byte `k` of a number, byte 0 the least significant. -/
def byteOf (w k : Nat) : Byte :=
  BitVec.ofNat 8 (w / 256 ^ k)

/-- The request whose bits are `w`: the fields of R80 in its order, packed with no gap, `op` in bits 7..0.
R80 gives fields and widths and no layout: DESIGN CHOICE, log 5. -/
def requestOfWord (w : Nat) : Request where
  op := BitVec.ofNat 8 w
  khz := BitVec.ofNat 32 (w / 2 ^ 8)
  performReset := BitVec.ofNat 1 (w / 2 ^ 40)
  enable := BitVec.ofNat 1 (w / 2 ^ 41)
  channel := BitVec.ofNat 8 (w / 2 ^ 42)
  index := BitVec.ofNat 8 (w / 2 ^ 50)
  id := BitVec.ofNat 16 (w / 2 ^ 58)
  length := BitVec.ofNat 8 (w / 2 ^ 74)
  data :=
    let v := w / 2 ^ 82
    #v[byteOf v 0, byteOf v 1, byteOf v 2, byteOf v 3, byteOf v 4, byteOf v 5, byteOf v 6, byteOf v 7]

/-- The number of bytes R71 gives a command presented with command byte `byteOf w 0`; for LOAD_TX it takes
the DLC in byte 5. -/
def commandLength (w : Nat) : Nat :=
  match byteOf w 0 with
  | 0x03#8 => 3
  | 0x02#8 => 3
  | 0x05#8 => 4
  | 0xA0#8 => 2
  | 0xB0#8 => 2
  | 0x40#8 => 6 + (byteOf w 5).toNat
  | 0x42#8 => 6 + (byteOf w 5).toNat
  | 0x44#8 => 6 + (byteOf w 5).toNat
  | 0x90#8 => 6
  | 0x94#8 => 6
  | _ => 1

/-- The command bytes of a word, the first byte in bits 7..0. -/
def commandOfWord (w : Nat) : List Byte :=
  (List.range (commandLength w)).map (byteOf w)

/-- What the bits of a table word present. The request port is tried first: the table gives the code bytes
0x02, 0x03 and 0x05 to a bus command and to a host operation both, and a bare number does not say which
interface it stands on. DESIGN CHOICE, log 6. -/
def presentedOfWord (w : Nat) : Presented :=
  match decodeRequest (requestOfWord w) with
  | .ok _ => .request (requestOfWord w)
  | .error _ =>
    match decodeCommand Machine.defaultConfig.dummyByte (commandOfWord w) with
    | .ok _ => .command (commandOfWord w)
    | .error _ => .request (requestOfWord w)

/-- The instruction the decoder reads from an instruction whose low `nbits` bits are `w` and whose other
bits are 0. -/
def decodeTableWord (nbits w : Nat) : Option Instr :=
  match decodePresented Machine.defaultConfig.dummyByte (presentedOfWord (w % 2 ^ nbits)) with
  | .ok i => some i
  | .error _ => none

end Sys2Proof
end

