-- ==== Sys2Proof/Machine/State.lean ====
section
/-! DEFINITION. The state of the block (spec 10_state R21) with its input and output ports (R31, R250), the
reasons a step can stop, and the state after reset (R28). -/

namespace Sys2Proof.Machine

/-- A standard CAN frame (R11): an 11-bit identifier, a length 0 to 8, and exactly that many bytes. The
bound and the exactness are `FrameOk` in Safety.lean. -/
structure Frame where
  id : BitVec 11
  len : Nat
  data : List Byte
  deriving DecidableEq, Repr

/-- The ReceiveDispatcher's state (R21). -/
inductive DrainState where
  | idle
  | draining
  deriving DecidableEq, Repr

/-- One byte time of a transaction: the byte sent and the byte received in it (R10). -/
structure Exchange where
  mosi : Byte
  miso : Byte
  deriving DecidableEq, Repr

/-- An event of `bus_log` (R21). `delay` is `Delay(RESET_DELAY)` with the instance's `RESET_DELAY` (R262). -/
inductive Event where
  | txn (bytes : List Exchange)
  | delay (length : Nat)
  deriving DecidableEq, Repr

/-- The result code of a host operation (R240). -/
inductive Code where
  | ok
  | fail
  deriving DecidableEq, Repr

/-- The frame component of a result (R9): not produced (`-`), `Absent`, or `Present(f)`. -/
inductive FrameOut where
  | dash
  | absent
  | present (f : Frame)
  deriving DecidableEq, Repr

/-- What a host operation returns (R82): `(code, value, frame)`, `none` standing for a value `-` (R9). -/
structure HostResult where
  code : Code
  value : Option Nat
  frame : FrameOut
  deriving DecidableEq, Repr

/-- Why the machine stops with a fault. The block itself has no fault state (R242). -/
inductive Fault where
  /-- FIFO_POP met an occupied slot that was never written. Raised by `execFifoPop` only. Safe: R30 allows
  this representation and says that no run reaches it (spec 93 U14; log 10). -/
  | unwrittenFifoSlot (index : Nat)
  deriving DecidableEq, Repr

/-- Why the model gives a step no meaning. -/
inductive Refusal where
  /-- An instruction whose arm has no meaning yet. Raised by `exec` only; no arm does. Safe. -/
  | notModelled (mnemonic : String)
  /-- `FIFO_N = 0`: "the model refuses the configuration" (R7). Raised by `step`. Safe. -/
  | illFormedConfiguration
  /-- Bytes presented to the sequencer alone that are none of the 14 commands of R70: "this spec does not
  say what the chip does with one" (R79). Raised by the host turn. Safe. -/
  | neverIssuedCommand
  deriving DecidableEq, Repr

/-- The state. The first twelve fields are R21's, in its order; the rest are the ports and inputs that R31
and R250 name beside them. -/
structure State where
  /-- `fifo_buf`: FIFO_N entries, `none` where no push has written (R26, R30). -/
  fifoBuf : List (Option Frame)
  fifoHead : Nat
  fifoTail : Nat
  fifoSize : Nat
  cbAttached : Bool
  drainState : DrainState
  /-- `int_prev`: the level of `int_n` (R243). -/
  intPrev : Level
  edgeLatch : Bool
  csN : Level
  busLog : List Event
  cbLog : List Frame
  refused : Bool
  /-- The level of the input `rst_n` (R260). -/
  rstN : Level
  /-- The parameters of the instance (R6), changed by no step (R31). DESIGN CHOICE, log 1. -/
  cfg : Config
  /-- The host request stream (R31), the next one first. DESIGN CHOICE, log 4. -/
  requests : List Presented
  /-- What the host result port has delivered, oldest first (R82, R250). DESIGN CHOICE, log 4. -/
  results : List HostResult
  /-- The chip's coming MISO answers (R31), then `Config.freeMiso`. DESIGN CHOICE, log 2. -/
  miso : List Byte
  /-- The model's own counter: how many free MISO bytes have been drawn. Log 2. -/
  misoDraws : Nat
  /-- Which agent moves next (R59), then `Config.freeTurn`. DESIGN CHOICE, log 3. -/
  schedule : List Turn
  /-- The model's own counter: how many free turns have been drawn. Log 3. -/
  turnDraws : Nat
  /-- The bytes that transactions presented alone returned (R71, "MISO used"). DESIGN CHOICE, log 8. -/
  seqReplies : List (List Byte)
  deriving DecidableEq, Repr

/-- The machine right after reset: R28 for the block's fields. The ports and inputs are empty, the counters
0, and `rst_n` is released (DESIGN CHOICE, logs 2, 3, 4, 8, 10, 12). -/
def State.reset : State where
  fifoBuf := List.replicate defaultConfig.fifoN none
  fifoHead := 0
  fifoTail := 0
  fifoSize := 0
  cbAttached := false
  drainState := .idle
  intPrev := .high
  edgeLatch := false
  csN := .high
  busLog := []
  cbLog := []
  refused := false
  rstN := .high
  cfg := defaultConfig
  requests := []
  results := []
  miso := []
  misoDraws := 0
  schedule := []
  turnDraws := 0
  seqReplies := []

end Sys2Proof.Machine
end

