-- ==== Sys2Proof/Machine/Flags.lean ====
section
/-! DEFINITION. The tests on the chip's status bytes. The block itself keeps no flags (spec R23); these are
the fields of the two status bytes its operations read (R76, R77, R170) and the choices made on them. -/

namespace Sys2Proof.Machine

/-- Bit `n` of a byte, bit 0 the least significant (R8). -/
def bitAt (b : Byte) (n : Nat) : Bool :=
  b.getLsbD n

/-- READ_STATUS: RX buffer `b` full, bits 0 and 1 (R76). -/
def stRxFull (st : Byte) (b : RxBuffer) : Bool :=
  match b with
  | .b0 => bitAt st 0
  | .b1 => bitAt st 1

/-- `TX_PENDING_BIT(n)` (R6). -/
def txPendingBit (c : Config) (n : TxBuffer) : Fin 8 :=
  match n with
  | .b0 => c.txPendingBit0
  | .b1 => c.txPendingBit1
  | .b2 => c.txPendingBit2

/-- READ_STATUS: TX buffer `n` pending transmission (R76). -/
def stTxPending (c : Config) (st : Byte) (n : TxBuffer) : Bool :=
  bitAt st (txPendingBit c n)

/-- RX_STATUS: filter match index, `rx[2:0]` (R77). No rule reads it. -/
def rxFilterMatch (rx : Byte) : BitVec 3 :=
  rx.extractLsb' 0 3

/-- RX_STATUS: frame type, `rx[4:3]` (R77). No rule reads it. -/
def rxFrameType (rx : Byte) : BitVec 2 :=
  rx.extractLsb' 3 2

/-- RX_STATUS: message in RX buffer `b`, bits 6 and 7 (R77). -/
def rxHasMessage (rx : Byte) (b : RxBuffer) : Bool :=
  match b with
  | .b0 => bitAt rx 6
  | .b1 => bitAt rx 7

/-- The availability value `rx[7:6]` of an RX_STATUS byte (R170). -/
def availOfRxStatus (rx : Byte) : BitVec 2 :=
  rx.extractLsb' 6 2

/-- The availability value `st[1:0]` of a READ_STATUS byte (R171). -/
def availOfReadStatus (st : Byte) : BitVec 2 :=
  st.extractLsb' 0 2

/-- select_tx: the first buffer not pending, in the fixed order 0, 1, 2 (R126). -/
def selectTx (c : Config) (st : Byte) : Option TxBuffer :=
  if stTxPending c st .b0 = false then some .b0
  else if stTxPending c st .b1 = false then some .b1
  else if stTxPending c st .b2 = false then some .b2
  else none

end Sys2Proof.Machine
end

