-- ==== Sys2Proof/Machine/Operands.lean ====
section
/-! DEFINITION. Operand forms: the register map, the command bytes' fields, the identifier and length
codecs, the timing table, and the filter, mask and channel maps (spec 20 R51, 30 R72 to R74, 41, 42, 43). -/

namespace Sys2Proof.Machine

/-! ### Chip register addresses (R51) -/

def addrCanctrl : Byte := 0x0F
def addrTec : Byte := 0x1C
def addrRec : Byte := 0x1D
def addrCnf3 : Byte := 0x28
def addrCnf2 : Byte := 0x29
def addrCnf1 : Byte := 0x2A
def addrCaninte : Byte := 0x2B
def addrCanintf : Byte := 0x2C
def addrRxb0ctrl : Byte := 0x60
def addrRxb1ctrl : Byte := 0x70

/-! ### Command bytes (R70, R72) -/

def txNumber (n : TxBuffer) : Nat :=
  match n with
  | .b0 => 0
  | .b1 => 1
  | .b2 => 2

def rxNumber (b : RxBuffer) : Nat :=
  match b with
  | .b0 => 0
  | .b1 => 1

/-- `0x40 | (n << 1)` (R72). -/
def loadTxCommand (n : TxBuffer) : Byte :=
  0x40#8 ||| (BitVec.ofNat 8 (txNumber n) <<< 1)

/-- `0x80 | (1 << n)` (R72). -/
def rtsCommand (n : TxBuffer) : Byte :=
  0x80#8 ||| (0x01#8 <<< txNumber n)

/-- `0x90 | (b << 2)` (R72). -/
def readRxCommand (b : RxBuffer) : Byte :=
  0x90#8 ||| (BitVec.ofNat 8 (rxNumber b) <<< 2)

/-! ### The frame codec (R120 to R123) -/

/-- pack_id: `sidh = id[10:3]`, `sidl = id[2:0] ++ 00000`; bits 15..11 of the argument are dropped (R120). -/
def packId (idArg : BitVec 16) : Byte × Byte :=
  (idArg.extractLsb' 3 8, idArg.extractLsb' 0 3 ++ 0#5)

/-- unpack_id: `sidh ++ sidl[7:5]` (R121). -/
def unpackId (sidh sidl : Byte) : BitVec 11 :=
  sidh ++ sidl.extractLsb' 5 3

/-- clamp_len: `max(0, min(length, 8))` of a signed byte (R122). -/
def clampLen (length : BitVec 8) : Nat :=
  (max 0 (min length.toInt maxLen)).toNat

/-- `min(DLC[3:0], 8)` (R74). -/
def rxPayloadLen (dlc : Byte) : Nat :=
  min (dlc.extractLsb' 0 4).toNat maxLen

/-- What a READ_RX returns (R108). -/
structure RxRead where
  sidh : Byte
  sidl : Byte
  eid8 : Byte
  eid0 : Byte
  dlc : Byte
  payload : List Byte
  deriving DecidableEq, Repr

/-- decode_frame (R123): the extended-ID bytes and `DLC[7:4]` are discarded. -/
def decodeFrame (r : RxRead) : Frame where
  id := unpackId r.sidh r.sidl
  len := rxPayloadLen r.dlc
  data := r.payload

/-! ### Bit timing (R124) -/

/-- The seven rows of R124: kHz, then CNF1, CNF2, CNF3. -/
def timingTable : List (Nat × Byte × Byte × Byte) :=
  [(10, 0x27, 0xBF, 0x07),
   (20, 0x13, 0xBF, 0x07),
   (50, 0x07, 0xBF, 0x07),
   (125, 0x03, 0xBA, 0x07),
   (250, 0x01, 0xBA, 0x07),
   (500, 0x00, 0xB6, 0x04),
   (1000, 0x00, 0xA0, 0x02)]

/-- `TABLE[khz]`, by exact equality (R125). -/
def timing (khz : BitVec 32) : Option (Byte × Byte × Byte) :=
  List.lookup khz.toNat timingTable

/-! ### Filter and mask slots (R150, R151) -/

/-- The base address of a valid `(channel, index)` pair (R150). -/
def filterBase (channel index : Byte) : Option Byte :=
  match channel, index with
  | 1#8, 1#8 => some 0x00
  | 1#8, 2#8 => some 0x04
  | 2#8, 1#8 => some 0x08
  | 2#8, 2#8 => some 0x10
  | 2#8, 3#8 => some 0x14
  | 2#8, 4#8 => some 0x18
  | _, _ => none

/-- The base address of a channel's mask pair (R151). -/
def maskBase (channel : Byte) : Option Byte :=
  match channel with
  | 1#8 => some 0x20
  | 2#8 => some 0x24
  | _ => none

/-! ### Channels (R129, R170, R174) -/

/-- resolve_rx: channel 3 is an alias of channel 1; any other channel fails (R128, R129). -/
def resolveRx (channel : Byte) : Option RxBuffer :=
  match channel with
  | 1#8 => some .b0
  | 2#8 => some .b1
  | 3#8 => some .b0
  | _ => none

/-- select_channel (R174): 1 and 3 give channel 1, 2 gives channel 2; called only for a nonzero value. -/
def selectChannel (a : BitVec 2) : Byte :=
  if a = 2#2 then 2#8 else 1#8

/-- `RX_CLEAR_MASK(b + 1)` (R6, R128). -/
def rxClearMask (c : Config) (b : RxBuffer) : Byte :=
  match b with
  | .b0 => c.rxClearMask1
  | .b1 => c.rxClearMask2

end Sys2Proof.Machine
end

