-- ==== Sys2Proof/Machine/Ops.lean ====
section
/-! DEFINITION. The operations over the state that the meanings share: the bus primitives of spec R10, the
nine transactions of 40_register_interface, the ring buffer of 44, delivery and the drain's entry and return
of 43 and 60, the interrupt line and the block reset. -/

namespace Sys2Proof.Machine

/-! ### The chip's answers (R52) -/

/-- The `k`-th MISO byte the chip will answer from here: the written-down answers, then free draws. -/
def answer (s : State) (k : Nat) : Byte :=
  match s.miso[k]? with
  | some r => r
  | none => Config.freeMiso (s.misoDraws + (k - s.miso.length))

/-- The state after `n` more bytes have been drawn. -/
def drawn (s : State) (n : Nat) : State :=
  { s with miso := s.miso.drop n, misoDraws := s.misoDraws + (n - s.miso.length) }

/-! ### Bus primitives (R10) -/

/-- `TxnBegin()`: chip select active. -/
def txnBegin (s : State) : State :=
  { s with csN := .low }

/-- `r <- Xfer(b)`: one byte time; the answer is a free draw (R52). -/
def xfer (b : Byte) (s : State) : Exchange × State :=
  ({ mosi := b, miso := answer s 0 }, drawn s 1)

/-- `TxnEnd()`: chip select inactive; the transaction is recorded (R10). -/
def txnEnd (bytes : List Exchange) (s : State) : State :=
  { s with csN := .high, busLog := s.busLog ++ [.txn bytes] }

/-- `Delay(RESET_DELAY)`: an event only; no time passes (R10, R262). -/
def delay (s : State) : State :=
  { s with busLog := s.busLog ++ [.delay s.cfg.resetDelay] }

/-- `Xfer` of each byte in order. -/
def xfers : List Byte → State → List Exchange × State
  | [], s => ([], s)
  | b :: bs, s =>
    let x := xfer b s
    let rest := xfers bs x.2
    (x.1 :: rest.1, rest.2)

/-- A whole transaction whose bytes are known before it starts: `TxnBegin(); Xfer …; TxnEnd()` (R10). -/
def transact (mosi : List Byte) (s : State) : List Exchange × State :=
  let x := xfers mosi (txnBegin s)
  (x.1, txnEnd x.1 x.2)

/-- The MISO byte in position `k` of a transaction (R71, "MISO used"). -/
def misoAt (bytes : List Exchange) (k : Nat) : Byte :=
  match bytes[k]? with
  | some x => x.miso
  | none => 0x00

/-! ### The nine transactions (40_register_interface) -/

/-- T_RESET: the echoed byte (R100). -/
def tReset (s : State) : Byte × State :=
  let x := transact [0xC0] s
  (misoAt x.1 0, x.2)

/-- T_READ(addr) (R101). -/
def tRead (addr : Byte) (s : State) : Byte × State :=
  let x := transact [0x03, addr, s.cfg.dummyByte] s
  (misoAt x.1 2, x.2)

/-- T_WRITE(addr, value) (R102). -/
def tWrite (addr value : Byte) (s : State) : State :=
  (transact [0x02, addr, value] s).2

/-- T_MODIFY(addr, mask, value) (R103). -/
def tModify (addr mask value : Byte) (s : State) : State :=
  (transact [0x05, addr, mask, value] s).2

/-- T_READ_STATUS (R104). -/
def tReadStatus (s : State) : Byte × State :=
  let x := transact [0xA0, s.cfg.dummyByte] s
  (misoAt x.1 1, x.2)

/-- T_RX_STATUS (R105). -/
def tRxStatus (s : State) : Byte × State :=
  let x := transact [0xB0, s.cfg.dummyByte] s
  (misoAt x.1 1, x.2)

/-- T_LOAD_TX(n, sidh, sidl, dlc, payload): `for k in 0 .. dlc-1: Xfer(payload[k])` (R106). -/
def tLoadTx (n : TxBuffer) (sidh sidl dlc : Byte) (payload : List Byte) (s : State) : State :=
  (transact (loadTxCommand n :: sidh :: sidl :: 0x00 :: 0x00 :: dlc :: payload.take dlc.toNat) s).2

/-- T_RTS(n) (R107). -/
def tRts (n : TxBuffer) (s : State) : State :=
  (transact [rtsCommand n] s).2

/-- T_READ_RX(b): the header, then as many payload bytes as the DLC just received asks for, all in one
transaction (R75, R108). -/
def tReadRx (b : RxBuffer) (s : State) : RxRead × State :=
  let d := s.cfg.dummyByte
  let head := xfers [readRxCommand b, d, d, d, d, d] (txnBegin s)
  let dlc := misoAt head.1 5
  let body := xfers (List.replicate (rxPayloadLen dlc) d) head.2
  ({ sidh := misoAt head.1 1, sidl := misoAt head.1 2, eid8 := misoAt head.1 3, eid0 := misoAt head.1 4,
     dlc := dlc, payload := body.1.map Exchange.miso },
   txnEnd (head.1 ++ body.1) body.2)

/-- The chip's side of a MODIFY, `(reg & ~mask) | (value & mask)`: a named property a claim may assume of the
chip, which the model does not enforce (R103). -/
def chipModified (reg mask value : Byte) : Byte :=
  (reg &&& ~~~mask) ||| (value &&& mask)

/-! ### Results (R9, R82) -/

/-- The host result port delivers one result. -/
def deliver (r : HostResult) (s : State) : State :=
  { s with results := s.results ++ [r] }

/-- A transaction presented alone returns the bytes it keeps (R71). -/
def reply (kept : List Byte) (s : State) : State :=
  { s with seqReplies := s.seqReplies ++ [kept] }

/-- `(code, -, -)`. -/
def codeOnly (c : Code) : HostResult :=
  { code := c, value := none, frame := .dash }

/-- `(OK, v, -)`. -/
def okValue (v : Nat) : HostResult :=
  { code := .ok, value := some v, frame := .dash }

/-- `(OK, -, Present(f))`. -/
def okFrame (f : Frame) : HostResult :=
  { code := .ok, value := none, frame := .present f }

/-! ### The ring buffer (44_ring_buffer) -/

/-- What slot `i` of `fifo_buf` holds; `none` if no push has written it (R30). -/
def fifoSlot (s : State) (i : Nat) : Option Frame :=
  match s.fifoBuf[i]? with
  | some slot => slot
  | none => none

/-- Store a frame at the tail and advance the tail (R190). -/
def fifoStore (f : Frame) (s : State) : State :=
  { s with
    fifoBuf := s.fifoBuf.set s.fifoTail (some f)
    fifoTail := (s.fifoTail + 1) % s.cfg.fifoN
    fifoSize := s.fifoSize + 1 }

/-- fifo_push: full drops the frame and changes nothing; otherwise it is stored (R190). -/
def fifoPush (f : Frame) (s : State) : State :=
  if s.fifoSize = s.cfg.fifoN then s else fifoStore f s

/-- The removal half of FIFO_POP: advance the head; the slot is not cleared (R192). -/
def fifoAdvance (s : State) : State :=
  { s with fifoHead := (s.fifoHead + 1) % s.cfg.fifoN, fifoSize := s.fifoSize - 1 }

/-- Empty the FIFO and leave `fifo_buf` as it was (R195). -/
def fifoClear (s : State) : State :=
  { s with fifoHead := 0, fifoTail := 0, fifoSize := 0 }

/-- Attach or detach the callback (R178, R179). -/
def setCallback (attached : Bool) (s : State) : State :=
  { s with cbAttached := attached }

/-- Delivery on the callback port, which always completes (R176). -/
def callbackDeliver (f : Frame) (s : State) : State :=
  { s with cbLog := s.cbLog ++ [f] }

/-- route(f): to the callback while one is attached, else to the FIFO, never to both (R176). -/
def route (f : Frame) (s : State) : State :=
  if s.cbAttached = true then callbackDeliver f s else fifoPush f s

/-! ### The receive body shared by RECEIVE and the drain -/

/-- recv(c): an invalid channel fails with no transaction; otherwise READ_RX, then the MODIFY that clears the
channel's flag, whether or not a frame was pending (R128, R263). -/
def recv (channel : Byte) (s : State) : HostResult × State :=
  match resolveRx channel with
  | none => ({ code := .fail, value := none, frame := .absent }, s)
  | some b =>
    let x := tReadRx b s
    (okFrame (decodeFrame x.1), tModify addrCanintf (rxClearMask s.cfg b) 0x00 x.2)

/-- avail_query(), by the instance's `AVAIL_SOURCE` (R171). -/
def availQuery (s : State) : BitVec 2 × State :=
  match s.cfg.availSource with
  | .rxStatus =>
    let x := tRxStatus s
    (availOfRxStatus x.1, x.2)
  | .readStatus =>
    let x := tReadStatus s
    (availOfReadStatus x.1, x.2)

/-- set_bitrate(khz): an unknown rate fails before any write (R125). -/
def setBitrateBody (khz : BitVec 32) (s : State) : Code × State :=
  match timing khz with
  | none => (.fail, s)
  | some (c1, c2, c3) => (.ok, tWrite addrCnf3 c3 (tWrite addrCnf2 c2 (tWrite addrCnf1 c1 s)))

/-! ### Drain entry and return: what stands where a machine takes an exception (R246, R247)

The block has no exceptions (R240). Entry saves nothing and return restores nothing. -/

/-- Drain entry: `drain_state` becomes DRAINING, and under EDGE the latch is cleared (R172, R246). -/
def drainEnter (s : State) : State :=
  { s with
    drainState := .draining
    edgeLatch := if s.cfg.drainMode = .edge then false else s.edgeLatch }

/-- Drain return: `drain_state` becomes IDLE (R175, R247). -/
def drainReturn (s : State) : State :=
  { s with drainState := .idle }

/-! ### Inputs -/

/-- `ENV_SET_INT(v)` (R243). -/
def envSetInt (v : Level) (s : State) : State :=
  { s with
    edgeLatch :=
      if s.cfg.drainMode = .edge ∧ s.intPrev = .high ∧ v = .low then true else s.edgeLatch
    intPrev := v }

/-- The level of the input `rst_n` (R260). -/
def setRstN (v : Level) (s : State) : State :=
  { s with rstN := v }

/-- The block reset: R28's values; `fifo_buf` is kept (R195). The records of the two result ports are cleared
with the other logs; what waits at the inputs stays (DESIGN CHOICE, log 11). -/
def blockReset (s : State) : State :=
  { s with
    fifoHead := 0
    fifoTail := 0
    fifoSize := 0
    cbAttached := false
    drainState := .idle
    intPrev := .high
    edgeLatch := false
    csN := .high
    busLog := []
    cbLog := []
    refused := false
    results := []
    seqReplies := [] }

/-- A reserved host op code: the refusal mark, and nothing else (R83). -/
def refuseRequest (s : State) : State :=
  { s with refused := true }

/-! ### The queues the step reads (log 3, log 4) -/

def withSchedule (turns : List Turn) (s : State) : State :=
  { s with schedule := turns }

def withRequests (rest : List Presented) (s : State) : State :=
  { s with requests := rest }

def countFreeTurn (s : State) : State :=
  { s with turnDraws := s.turnDraws + 1 }

end Sys2Proof.Machine
end

