-- ==== Sys2Proof/Machine/Bus.lean ====
section
/-! DEFINITION. The bus-command family: one transaction presented to the sequencer alone, its kept MISO bytes
returned to the caller (spec 30 R71; 40 R100 to R108; log 7, log 8). A transaction cannot fail (R109). -/

namespace Sys2Proof.Machine

/-- RESET (R100): returns the echoed byte. The delay belongs to the operations that issue it. -/
def execReset (s : State) : Host.Outcome State Fault Refusal :=
  let x := tReset s
  .next (reply [x.1] x.2)

/-- READ (R101). -/
def execRead (addr : Byte) (s : State) : Host.Outcome State Fault Refusal :=
  let x := tRead addr s
  .next (reply [x.1] x.2)

/-- WRITE (R102). -/
def execWrite (addr value : Byte) (s : State) : Host.Outcome State Fault Refusal :=
  .next (reply [] (tWrite addr value s))

/-- MODIFY (R103). -/
def execModify (addr mask value : Byte) (s : State) : Host.Outcome State Fault Refusal :=
  .next (reply [] (tModify addr mask value s))

/-- READ_STATUS (R104). -/
def execReadStatus (s : State) : Host.Outcome State Fault Refusal :=
  let x := tReadStatus s
  .next (reply [x.1] x.2)

/-- RX_STATUS (R105). -/
def execRxStatus (s : State) : Host.Outcome State Fault Refusal :=
  let x := tRxStatus s
  .next (reply [x.1] x.2)

/-- LOAD_TX buffer 0 (R106). -/
def execLoadTx0 (sidh sidl dlc : Byte) (payload : List Byte) (s : State) :
    Host.Outcome State Fault Refusal :=
  .next (reply [] (tLoadTx .b0 sidh sidl dlc payload s))

/-- LOAD_TX buffer 1 (R106). -/
def execLoadTx1 (sidh sidl dlc : Byte) (payload : List Byte) (s : State) :
    Host.Outcome State Fault Refusal :=
  .next (reply [] (tLoadTx .b1 sidh sidl dlc payload s))

/-- LOAD_TX buffer 2 (R106). -/
def execLoadTx2 (sidh sidl dlc : Byte) (payload : List Byte) (s : State) :
    Host.Outcome State Fault Refusal :=
  .next (reply [] (tLoadTx .b2 sidh sidl dlc payload s))

/-- RTS buffer 0 (R107). -/
def execRts0 (s : State) : Host.Outcome State Fault Refusal :=
  .next (reply [] (tRts .b0 s))

/-- RTS buffer 1 (R107). -/
def execRts1 (s : State) : Host.Outcome State Fault Refusal :=
  .next (reply [] (tRts .b1 s))

/-- RTS buffer 2 (R107). -/
def execRts2 (s : State) : Host.Outcome State Fault Refusal :=
  .next (reply [] (tRts .b2 s))

/-- The bytes a READ_RX returns: `r1..r5`, then the payload (R71). -/
def rxKept (r : RxRead) : List Byte :=
  r.sidh :: r.sidl :: r.eid8 :: r.eid0 :: r.dlc :: r.payload

/-- READ_RX buffer 0 (R108). -/
def execReadRx0 (s : State) : Host.Outcome State Fault Refusal :=
  let x := tReadRx .b0 s
  .next (reply (rxKept x.1) x.2)

/-- READ_RX buffer 1 (R108). -/
def execReadRx1 (s : State) : Host.Outcome State Fault Refusal :=
  let x := tReadRx .b1 s
  .next (reply (rxKept x.1) x.2)

end Sys2Proof.Machine
end

