-- ==== Sys2Proof/Machine/Codec.lean ====
section
/-! DEFINITION. Bit timing, transmit and receive (spec 41_timing_and_codec): SET_BITRATE, SEND, RECEIVE. -/

namespace Sys2Proof.Machine

/-- SET_BITRATE (R125). -/
def execSetBitrate (khz : BitVec 32) (s : State) : Host.Outcome State Fault Refusal :=
  let x := setBitrateBody khz s
  .next (deliver (codeOnly x.1) x.2)

/-- The part of SEND after the status poll: no free buffer fails, else LOAD_TX and RTS of the chosen one
(R127). -/
def sendOnStatus (st : Byte) (id : BitVec 16) (length : BitVec 8) (data : Vector Byte 8) (s : State) : State :=
  match selectTx s.cfg st with
  | none => deliver (codeOnly .fail) s
  | some n =>
    let len := clampLen length
    deliver (codeOnly .ok)
      (tRts n (tLoadTx n (packId id).1 (packId id).2 (BitVec.ofNat 8 len) (data.toList.take len) s))

/-- SEND (R127): READ_STATUS, then LOAD_TX and RTS of the first free buffer. -/
def execSend (id : BitVec 16) (length : BitVec 8) (data : Vector Byte 8) (s : State) :
    Host.Outcome State Fault Refusal :=
  let x := tReadStatus s
  .next (sendOnStatus x.1 id length data x.2)

/-- RECEIVE (R128). -/
def execReceive (channel : Byte) (s : State) : Host.Outcome State Fault Refusal :=
  let x := recv channel s
  .next (deliver x.1 x.2)

end Sys2Proof.Machine
end

