-- ==== Sys2Proof/Machine/Control.lean ====
section
/-! DEFINITION. Control, mode and error-counter operations (spec 45_control_ops). -/

namespace Sys2Proof.Machine

/-- INITIALIZE's optional chip reset: RESET, its echo discarded, then the delay (R210). -/
def initReset (performReset : BitVec 1) (s : State) : State :=
  if performReset = 1#1 then delay (tReset s).2 else s

/-- INITIALIZE (R210): empty the FIFO, reset the chip if asked, set the bit rate, then the CANINTE write and
the mode MODIFY, which are issued even when the rate is not supported. -/
def execInitializeOp (khz : BitVec 32) (performReset : BitVec 1) (s : State) :
    Host.Outcome State Fault Refusal :=
  let x := setBitrateBody khz (initReset performReset (fifoClear s))
  .next (deliver (codeOnly x.1)
    (tModify addrCanctrl s.cfg.modeMask s.cfg.modeNormal (tWrite addrCaninte s.cfg.initCaninte x.2)))

/-- HARD_RESET (R211). -/
def execHardReset (s : State) : Host.Outcome State Fault Refusal :=
  let x := tReset s
  .next (deliver (okValue x.1.toNat) (delay x.2))

/-- SET_CONFIG_MODE (R212). -/
def execSetConfigMode (enable : BitVec 1) (s : State) : Host.Outcome State Fault Refusal :=
  .next (deliver (codeOnly .ok)
    (tModify addrCanctrl s.cfg.modeMask (if enable = 1#1 then s.cfg.modeConfig else s.cfg.modeNormal) s))

/-- SET_SILENT_MODE (R213). -/
def execSetSilentMode (enable : BitVec 1) (s : State) : Host.Outcome State Fault Refusal :=
  .next (deliver (codeOnly .ok)
    (tModify addrCanctrl s.cfg.modeMask (if enable = 1#1 then s.cfg.modeSilent else s.cfg.modeNormal) s))

/-- READ_RX_ERROR (R214): REC. -/
def execReadRxError (s : State) : Host.Outcome State Fault Refusal :=
  let x := tRead addrRec s
  .next (deliver (okValue x.1.toNat) x.2)

/-- READ_TX_ERROR (R215): TEC. -/
def execReadTxError (s : State) : Host.Outcome State Fault Refusal :=
  let x := tRead addrTec s
  .next (deliver (okValue x.1.toNat) x.2)

/-- INTERRUPT_PENDING (R216): 1 while the line is low. -/
def execInterruptPending (s : State) : Host.Outcome State Fault Refusal :=
  .next (deliver (okValue (if s.intPrev = .low then 1 else 0)) s)

end Sys2Proof.Machine
end

