-- ==== Sys2Proof/Machine/Dispatcher.lean ====
section
/-! DEFINITION. The receive dispatcher (spec 43_receive_dispatcher): AVAILABLE_CHANNELS, ATTACH_CALLBACK,
DETACH_CALLBACK, and the DRAIN agent's start and iteration. -/

namespace Sys2Proof.Machine

/-- AVAILABLE_CHANNELS (R171). -/
def execAvailableChannels (s : State) : Host.Outcome State Fault Refusal :=
  let x := availQuery s
  .next (deliver (okValue x.1.toNat) x.2)

/-- ATTACH_CALLBACK (R178). -/
def execAttachCallback (s : State) : Host.Outcome State Fault Refusal :=
  .next (deliver (codeOnly .ok) (setCallback true s))

/-- DETACH_CALLBACK (R179). -/
def execDetachCallback (s : State) : Host.Outcome State Fault Refusal :=
  .next (deliver (codeOnly .ok) (setCallback false s))

/-- The drain start is enabled: the block is out of reset and IDLE, and `DRAIN_MODE` allows it (R172, R260). -/
def drainStartEnabled (s : State) : Bool :=
  decide (s.rstN = .high) && decide (s.drainState = .idle) &&
    match s.cfg.drainMode with
    | .level => decide (s.intPrev = .low)
    | .edge => s.edgeLatch
    | .polled => false

/-- A host step is enabled (R244(c), R260). -/
def hostEnabled (s : State) : Bool :=
  decide (s.rstN = .high) && decide (s.drainState = .idle) && !drainStartEnabled s

/-- DRAIN_ITER: query; nothing pending ends the activation, else receive from the selected channel and route
the frame (R173, R175). -/
def drainIter (s : State) : State :=
  let q := availQuery s
  if q.1 = 0#2 then drainReturn q.2
  else
    let x := recv (selectChannel q.1) q.2
    match x.1.frame with
    | .present f => route f x.2
    | .absent => x.2
    | .dash => x.2

/-- The DRAIN agent's turn: an iteration while DRAINING, a start where enabled, else nothing (R172, R173). In
reset it takes no step (R260). -/
def drainTurn (s : State) : State :=
  if s.rstN = .low then s
  else if s.drainState = .draining then drainIter s
  else if drainStartEnabled s then drainEnter s
  else s

end Sys2Proof.Machine
end

