-- ==== Sys2Proof/Machine/Fifo.lean ====
section
/-! DEFINITION. The host's side of the ring buffer (spec 44_ring_buffer): FIFO_POP, FIFO_SIZE. -/

namespace Sys2Proof.Machine

/-- FIFO_POP (R192). An occupied slot that was never written is the model's own fault, which no run reaches
(R30; log 10). -/
def execFifoPop (s : State) : Host.Outcome State Fault Refusal :=
  if s.fifoSize = 0 then .next (deliver { code := .ok, value := none, frame := .absent } s)
  else
    match fifoSlot s s.fifoHead with
    | some f => .next (deliver (okFrame f) (fifoAdvance s))
    | none => .fault (.unwrittenFifoSlot s.fifoHead)

/-- FIFO_SIZE (R193). -/
def execFifoSize (s : State) : Host.Outcome State Fault Refusal :=
  .next (deliver (okValue s.fifoSize) s)

end Sys2Proof.Machine
end

