-- ==== Sys2Proof/Machine/Filter.lean ====
section
/-! DEFINITION. The filter bank (spec 42_filter_bank): SET_FILTER, SET_MASK, FILTER_ON, FILTER_OFF. -/

namespace Sys2Proof.Machine

/-- Two single-byte WRITEs, the high byte at the base and the low byte after it (R152, R153). -/
def writePair (base : Byte) (id : BitVec 16) (s : State) : State :=
  tWrite (base + 1) (packId id).2 (tWrite base (packId id).1 s)

/-- SET_FILTER (R152). -/
def execSetFilter (channel index : Byte) (id : BitVec 16) (s : State) : Host.Outcome State Fault Refusal :=
  .next (match filterBase channel index with
    | none => deliver (codeOnly .fail) s
    | some a => deliver (codeOnly .ok) (writePair a id s))

/-- SET_MASK (R153). -/
def execSetMask (channel : Byte) (id : BitVec 16) (s : State) : Host.Outcome State Fault Refusal :=
  .next (match maskBase channel with
    | none => deliver (codeOnly .fail) s
    | some a => deliver (codeOnly .ok) (writePair a id s))

/-- FILTER_ON (R154). -/
def execFilterOn (s : State) : Host.Outcome State Fault Refusal :=
  .next (deliver (codeOnly .ok)
    (tWrite addrRxb1ctrl s.cfg.rxb1ctrlFilterOn (tWrite addrRxb0ctrl s.cfg.rxb0ctrlFilterOn s)))

/-- FILTER_OFF (R155). -/
def execFilterOff (s : State) : Host.Outcome State Fault Refusal :=
  .next (deliver (codeOnly .ok)
    (tWrite addrRxb1ctrl s.cfg.rxb1ctrlFilterOff (tWrite addrRxb0ctrl s.cfg.rxb0ctrlFilterOff s)))

end Sys2Proof.Machine
end

