-- ==== Sys2Proof/Machine/Dispatch.lean ====
section
/-! DEFINITION. One arm per instruction, each one call of its meaning. -/

namespace Sys2Proof.Machine

def exec (i : Instr) (s : State) : Host.Outcome State Fault Refusal :=
  match i with
  | .reset => Sys2Proof.Machine.execReset s
  | .read addr => Sys2Proof.Machine.execRead addr s
  | .write addr value => Sys2Proof.Machine.execWrite addr value s
  | .modify addr mask value => Sys2Proof.Machine.execModify addr mask value s
  | .readStatus => Sys2Proof.Machine.execReadStatus s
  | .rxStatus => Sys2Proof.Machine.execRxStatus s
  | .loadTx0 sidh sidl dlc payload => Sys2Proof.Machine.execLoadTx0 sidh sidl dlc payload s
  | .loadTx1 sidh sidl dlc payload => Sys2Proof.Machine.execLoadTx1 sidh sidl dlc payload s
  | .loadTx2 sidh sidl dlc payload => Sys2Proof.Machine.execLoadTx2 sidh sidl dlc payload s
  | .rts0 => Sys2Proof.Machine.execRts0 s
  | .rts1 => Sys2Proof.Machine.execRts1 s
  | .rts2 => Sys2Proof.Machine.execRts2 s
  | .readRx0 => Sys2Proof.Machine.execReadRx0 s
  | .readRx1 => Sys2Proof.Machine.execReadRx1 s
  | .initializeOp khz performReset => Sys2Proof.Machine.execInitializeOp khz performReset s
  | .setBitrate khz => Sys2Proof.Machine.execSetBitrate khz s
  | .availableChannels => Sys2Proof.Machine.execAvailableChannels s
  | .interruptPending => Sys2Proof.Machine.execInterruptPending s
  | .send id length data => Sys2Proof.Machine.execSend id length data s
  | .receive channel => Sys2Proof.Machine.execReceive channel s
  | .setFilter channel index id => Sys2Proof.Machine.execSetFilter channel index id s
  | .setMask channel id => Sys2Proof.Machine.execSetMask channel id s
  | .filterOn => Sys2Proof.Machine.execFilterOn s
  | .filterOff => Sys2Proof.Machine.execFilterOff s
  | .hardReset => Sys2Proof.Machine.execHardReset s
  | .setConfigMode enable => Sys2Proof.Machine.execSetConfigMode enable s
  | .setSilentMode enable => Sys2Proof.Machine.execSetSilentMode enable s
  | .attachCallback => Sys2Proof.Machine.execAttachCallback s
  | .detachCallback => Sys2Proof.Machine.execDetachCallback s
  | .readRxError => Sys2Proof.Machine.execReadRxError s
  | .readTxError => Sys2Proof.Machine.execReadTxError s
  | .fifoPop => Sys2Proof.Machine.execFifoPop s
  | .fifoSize => Sys2Proof.Machine.execFifoSize s

end Sys2Proof.Machine
end

