-- ==== Sys2Proof/Machine/Turns.lean ====
section
/-! DEFINITION. One step of each agent (spec 20 R59; 60 R243 to R245; 70 R260), and how an instruction is
presented at the request port. -/

namespace Sys2Proof.Machine

/-- The next turn and the state without it: the written-down schedule, then free turns (R59; log 3). -/
def nextTurn (s : State) : Turn × State :=
  match s.schedule with
  | t :: rest => (t, withSchedule rest s)
  | [] => (Config.freeTurn s.turnDraws, countFreeTurn s)

/-- An ENV step: always enabled (R244(d)). Asserting `rst_n` resets the block at once (R260). -/
def envTurn (e : EnvEvent) (s : State) : State :=
  match e with
  | .setInt v => envSetInt v s
  | .setRst .low => setRstN .low (blockReset s)
  | .setRst .high => setRstN .high s

/-- Run what was presented, `s` being the state with it taken off the port. -/
def runPresented (p : Presented) (s : State) : Host.Outcome State Fault Refusal :=
  match decodePresented s.cfg.dummyByte p, p with
  | .ok i, _ => exec i s
  | .error _, .request _ => .next (refuseRequest s)
  | .error _, .command _ => .refused .neverIssuedCommand

/-- The HOST agent's turn: where a host step is enabled and something is presented, run it; otherwise it
waits (R244(c), R242). -/
def hostTurn (s : State) : Host.Outcome State Fault Refusal :=
  match s.requests with
  | [] => .next s
  | p :: rest => if hostEnabled s then runPresented p (withRequests rest s) else .next s

/-- One agent's turn. -/
def takeTurn (t : Turn) (s : State) : Host.Outcome State Fault Refusal :=
  match t with
  | .env e => .next (envTurn e s)
  | .drain => .next (drainTurn s)
  | .host => hostTurn s

/-- `s` with `p` presented so that the very next step runs it: at the head of the request port, the HOST
agent's turn next, and a host step enabled (out of reset, IDLE, no drain start enabled). -/
def presentNext (p : Presented) (s : State) : State :=
  { s with
    requests := p :: s.requests
    schedule := .host :: s.schedule
    rstN := .high
    drainState := .idle
    intPrev := if s.cfg.drainMode = .level then .high else s.intPrev
    edgeLatch := if s.cfg.drainMode = .edge then false else s.edgeLatch }

/-- What the table word `w` presents to an instance: a bus command is laid out with the instance's own
`DUMMY_BYTE`. -/
def presentedFor (d : Byte) (w : Nat) : Presented :=
  match presentedOfWord w with
  | .request r => .request r
  | .command bytes =>
    match decodeCommand defaultConfig.dummyByte bytes with
    | .ok i => encode d i
    | .error _ => .command bytes

end Sys2Proof.Machine
end

