-- ==== Sys2Proof/Machine/Step.lean ====
section
/-! DEFINITION. One step of the block: the next turn of the interleaving (spec R59), and an instruction placed
where the next step takes it. -/

namespace Sys2Proof.Machine

/-- One step. A configuration with `FIFO_N = 0` is refused (R7). -/
def step (s : State) : Host.Outcome State Fault Refusal :=
  if s.cfg.wellFormed = true then takeTurn (nextTurn s).1 (nextTurn s).2
  else .refused .illFormedConfiguration

/-- `s` with the instruction of bits `w` presented, so that the very next step runs it. The block fetches
nothing (R61): this stands for the host issuing a request (log 14). -/
def State.withFetchWord (s : State) (nbits w : Nat) : State :=
  presentNext (presentedFor s.cfg.dummyByte (w % 2 ^ nbits)) s

end Sys2Proof.Machine
end

