-- ==== Sys2Proof/Safety.lean ====
section
/-! DEFINITION. The terms claims use: the invariant of the block (spec R29, R30), the form of a recorded
transaction (R70, R71), the FIFO as a queue (R30), the closed form of a transaction, and runs. -/

namespace Sys2Proof.Machine

/-! ### Frames and the FIFO -/

/-- `len` is 0 to 8 and `data` has exactly `len` bytes (R11). -/
abbrev FrameOk (f : Frame) : Prop :=
  f.len ≤ maxLen ∧ f.data.length = f.len

/-- What a slot holds is a well-formed frame. -/
abbrev SlotOk (slot : Option Frame) : Prop :=
  slot.any (fun f => decide (FrameOk f)) = true

/-- The occupied window, oldest first (R30). -/
def fifoWindow (s : State) : List (Option Frame) :=
  (List.range s.fifoSize).map fun k => fifoSlot s ((s.fifoHead + k) % s.cfg.fifoN)

/-- `fifo_buf` is the form R21 gives it: FIFO_N entries. -/
abbrev FifoBufOk (s : State) : Prop :=
  s.fifoBuf.length = s.cfg.fifoN

/-- The FIFO's invariant (R29), and every occupied slot was written with a well-formed frame (R30, R11). -/
abbrev FifoOk (s : State) : Prop :=
  FifoBufOk s ∧ s.fifoSize ≤ s.cfg.fifoN ∧ s.fifoHead < s.cfg.fifoN ∧ s.fifoTail < s.cfg.fifoN ∧
    s.fifoTail = (s.fifoHead + s.fifoSize) % s.cfg.fifoN ∧ ∀ slot ∈ fifoWindow s, SlotOk slot

/-- Every frame a result carries is well formed. -/
abbrev ResultOk (r : HostResult) : Prop :=
  match r.frame with
  | .present f => FrameOk f
  | .absent => True
  | .dash => True

/-- While `rst_n` is asserted the block stays as the block reset left it, but for the line it watches
(R244(d), R260). -/
abbrev HeldInReset (s : State) : Prop :=
  s.rstN = .low →
    s.fifoSize = 0 ∧ s.cbAttached = false ∧ s.drainState = .idle ∧ s.busLog = [] ∧ s.cbLog = [] ∧
      s.refused = false

/-- The invariant of the block. `edge_latch` is used only under EDGE (R21), and under POLLED the drain never
starts (R172). -/
structure BlockOk (s : State) : Prop where
  cfgOk : s.cfg.wellFormed = true
  fifoOk : FifoOk s
  csHigh : s.csN = .high
  cbLogOk : ∀ f ∈ s.cbLog, FrameOk f
  resultsOk : ∀ r ∈ s.results, ResultOk r
  latchOnlyEdge : s.cfg.drainMode ≠ .edge → s.edgeLatch = false
  polledIdle : s.cfg.drainMode = .polled → s.drainState = .idle
  heldInReset : HeldInReset s

/-! ### Recorded transactions -/

/-- The bus commands, the first 14 rows of the table. -/
def isBusCommand : Instr → Bool
  | .reset | .read _ | .write _ _ | .modify _ _ _ | .readStatus | .rxStatus => true
  | .loadTx0 _ _ _ _ | .loadTx1 _ _ _ _ | .loadTx2 _ _ _ _ => true
  | .rts0 | .rts1 | .rts2 | .readRx0 | .readRx1 => true
  | .initializeOp _ _ | .setBitrate _ | .availableChannels | .interruptPending | .send _ _ _ => false
  | .receive _ | .setFilter _ _ _ | .setMask _ _ | .filterOn | .filterOff | .hardReset => false
  | .setConfigMode _ | .setSilentMode _ | .attachCallback | .detachCallback => false
  | .readRxError | .readTxError | .fifoPop | .fifoSize => false

/-- READ_RX clocks in the payload bytes its DLC answer asks for, after the presented bytes (R75). -/
def payloadDummies (d : Byte) (i : Instr) (miso : List Byte) : List Byte :=
  match i with
  | .readRx0 | .readRx1 => List.replicate (rxPayloadLen (miso.getD 5 0)) d
  | _ => []

/-- A transaction has the form R71 gives to one of the 14 commands of R70. -/
def TxnLegal (d : Byte) (bytes : List Exchange) : Prop :=
  ∃ i presented, isBusCommand i = true ∧ i.wellFormed = true ∧ encode d i = .command presented ∧
    bytes.map Exchange.mosi = presented ++ payloadDummies d i (bytes.map Exchange.miso)

/-- Every transaction of a log is legal. -/
def LogLegal (d : Byte) (log : List Event) : Prop :=
  ∀ bytes, Event.txn bytes ∈ log → TxnLegal d bytes

/-- In a log, every RESET transaction is followed at once by `Delay(length)` (R262). -/
def delayAfterReset (length : Nat) : List Event → Bool
  | [] => true
  | e :: rest =>
    (match e with
     | .txn [x] => if x.mosi = 0xC0#8 then decide (rest.head? = some (.delay length)) else true
     | _ => true) && delayAfterReset length rest

/-! ### Closed forms, for statements -/

/-- The exchange of `mosi` with the chip's next answers. -/
def exchanged (s : State) (mosi : List Byte) : List Exchange :=
  List.zipWith Exchange.mk mosi ((List.range mosi.length).map (answer s))

/-- The state after the one transaction with bytes `mosi`: chip select inactive, one event, that many answers
drawn, nothing else. -/
def afterTxn (s : State) (mosi : List Byte) : State :=
  { drawn s mosi.length with csN := .high, busLog := s.busLog ++ [.txn (exchanged s mosi)] }

/-- The state after the transactions `ts`, in order. -/
def afterTxns (s : State) (ts : List (List Byte)) : State :=
  ts.foldl afterTxn s

/-- The MOSI bytes of a READ_RX whose DLC answer is the sixth byte from here (R71). -/
def readRxMosi (s : State) (b : RxBuffer) : List Byte :=
  readRxCommand b :: List.replicate (5 + rxPayloadLen (answer s 5)) s.cfg.dummyByte

/-- The frame a READ_RX from here decodes to (R74, R123). -/
def frameAnswered (s : State) : Frame where
  id := unpackId (answer s 1) (answer s 2)
  len := rxPayloadLen (answer s 5)
  data := (List.range (rxPayloadLen (answer s 5))).map fun k => answer s (6 + k)

/-- `sidh` and `sidl` of an identifier argument, in the source's masked form `(id>>3)&0xFF`, `(id<<5)&0xFF` (R120). -/
def idHigh (id : BitVec 16) : Byte := BitVec.ofNat 8 (id.toNat / 8 % 256)
def idLow (id : BitVec 16) : Byte := BitVec.ofNat 8 (id.toNat * 32 % 256)

/-- The length SEND sends, `max(0, min(length, 8))` (R122). -/
def sentLength (length : BitVec 8) : Nat :=
  if length.toInt < 0 then 0 else if 8 < length.toInt then 8 else length.toNat

/-- The three WRITEs of a bit-rate row (R125). -/
def rateWrites (c1 c2 c3 : Byte) : List (List Byte) :=
  [[0x02, 0x2A, c1], [0x02, 0x29, c2], [0x02, 0x28, c3]]

/-- The seven rows of R124, as the spec prints them. -/
def statedRates : List (Nat × Byte × Byte × Byte) :=
  [(10, 0x27, 0xBF, 0x07), (20, 0x13, 0xBF, 0x07), (50, 0x07, 0xBF, 0x07), (125, 0x03, 0xBA, 0x07),
   (250, 0x01, 0xBA, 0x07), (500, 0x00, 0xB6, 0x04), (1000, 0x00, 0xA0, 0x02)]

/-- The six valid filter pairs of R150, `(channel, index, base)`, as the spec prints them. -/
def statedFilters : List (Byte × Byte × Byte) :=
  [(1, 1, 0x00), (1, 2, 0x04), (2, 1, 0x08), (2, 2, 0x10), (2, 3, 0x14), (2, 4, 0x18)]

/-- The two WRITEs of a filter or mask pair (R152, R153). -/
def pairWrites (base : Byte) (id : BitVec 16) : List (List Byte) :=
  [[0x02, base, idHigh id], [0x02, base + 1, idLow id]]

/-- The state after READ_RX of a buffer and the MODIFY of its flag (R128): command byte `cmd`, clear mask
`mask`, and `min(DLC[3:0], 8)` payload bytes. -/
def afterReceive (s : State) (cmd mask : Byte) : State :=
  afterTxns s [cmd :: List.replicate (5 + min ((answer s 5).toNat % 16) 8) s.cfg.dummyByte,
    [0x05, 0x2C, mask, 0x00]]

/-- The frame R123 builds from the chip's next answers, in numbers. -/
def frameHere (s : State) : Frame where
  id := BitVec.ofNat 11 ((answer s 1).toNat * 8 + (answer s 2).toNat / 32)
  len := min ((answer s 5).toNat % 16) 8
  data := (List.range (min ((answer s 5).toNat % 16) 8)).map fun k => answer s (6 + k)

/-- Delivery of a drained frame (R176, R190): to the callback log while attached, else into the slot at the
tail unless the FIFO is full. -/
def delivered (f : Frame) (s : State) : State :=
  if s.cbAttached = true then { s with cbLog := s.cbLog ++ [f] }
  else if s.fifoSize = s.cfg.fifoN then s
  else
    { s with
      fifoBuf := s.fifoBuf.set s.fifoTail (some f)
      fifoTail := (s.fifoTail + 1) % s.cfg.fifoN
      fifoSize := s.fifoSize + 1 }

/-- Only the bus side of the state differs: chip select, the log and the answers drawn. -/
abbrev OnlyBus (s t : State) : Prop :=
  t = { s with csN := t.csN, busLog := t.busLog, miso := t.miso, misoDraws := t.misoDraws }

/-- The MISO bytes of a log, in order. -/
def misoOf : List Event → List Byte
  | [] => []
  | .txn bytes :: rest => bytes.map Exchange.miso ++ misoOf rest
  | .delay _ :: rest => misoOf rest

/-- The MOSI bytes of each transaction of a log, in order; a delay is the empty list. -/
def mosiOf : List Event → List (List Byte)
  | [] => []
  | .txn bytes :: rest => bytes.map Exchange.mosi :: mosiOf rest
  | .delay _ :: rest => [] :: mosiOf rest

/-- What makes a host operation answer FAIL (R240); any other operation never does. -/
def FailCause (s : State) : Instr → Prop
  | .setBitrate khz | .initializeOp khz _ => khz.toNat ∉ statedRates.map Prod.fst
  | .send _ _ _ => ∀ bit ∈ [s.cfg.txPendingBit0, s.cfg.txPendingBit1, s.cfg.txPendingBit2],
      (answer s 1).getLsbD bit = true
  | .receive channel => channel ≠ 1 ∧ channel ≠ 2 ∧ channel ≠ 3
  | .setFilter channel index _ => (channel, index) ∉ statedFilters.map (fun x => (x.1, x.2.1))
  | .setMask channel _ => channel ≠ 1 ∧ channel ≠ 2
  | _ => False

/-- The MOSI bytes a failing operation issues all the same (R240): INITIALIZE's but for the rate's WRITEs, SEND's
one poll, no other. A delay is the empty list. -/
def failTransactions (c : Config) : Instr → List (List Byte)
  | .initializeOp _ performReset => (if performReset = 1 then [[0xC0], []] else []) ++
      [[0x02, 0x2B, c.initCaninte], [0x05, 0x0F, c.modeMask, c.modeNormal]]
  | .send _ _ _ => [[0xA0, c.dummyByte]]
  | _ => []

/-! ### When a host step is enabled -/

/-- R244(c) in its own words: IDLE, out of reset, `int_n = 1` under LEVEL, `edge_latch = 0` under EDGE. -/
abbrev HostMayStep (s : State) : Prop :=
  s.rstN = .high ∧ s.drainState = .idle ∧ (s.cfg.drainMode = .level → s.intPrev = .high) ∧
    (s.cfg.drainMode = .edge → s.edgeLatch = false)

/-- R172 in its own words: out of reset and IDLE, the line asserted under LEVEL, the latch set under EDGE, never
under POLLED. -/
abbrev DrainMayStart (s : State) : Prop :=
  s.rstN = .high ∧ s.drainState = .idle ∧
    ((s.cfg.drainMode = .level ∧ s.intPrev = .low) ∨ (s.cfg.drainMode = .edge ∧ s.edgeLatch = true))

/-! ### Runs -/

/-- Run instructions in order, stopping at the first that answers no next state. -/
def execMany : List Instr → State → Host.Outcome State Fault Refusal
  | [], s => .next s
  | i :: rest, s =>
    match exec i s with
    | .next t => execMany rest t
    | .fault r => .fault r
    | .refused r => .refused r

/-- Push frames in order. -/
def pushAll (fs : List Frame) (s : State) : State :=
  fs.foldl (fun t f => fifoPush f t) s

/-- The two availability bits of a status answer, under the instance's `AVAIL_SOURCE` (R171). -/
def availBits (c : Config) (status : Byte) : BitVec 2 :=
  match c.availSource with
  | .rxStatus => availOfRxStatus status
  | .readStatus => availOfReadStatus status

/-- The value an availability query made from here would be answered (R171). Which values come is the chip's
(R52); a claim that needs some assumes them of this (R272). -/
def availAnswered (s : State) : BitVec 2 :=
  availBits s.cfg (answer s 1)

/-- The MOSI bytes of an availability query (R171). -/
def availMosi (s : State) : List Byte :=
  match s.cfg.availSource with
  | .rxStatus => [0xB0, s.cfg.dummyByte]
  | .readStatus => [0xA0, s.cfg.dummyByte]

/-- A run counts only while no reserved request has been met (R253). -/
def Counts (s : State) : Prop :=
  s.refused = false

end Sys2Proof.Machine
end

