-- ==== Sys2Proof/Certificates/Slice0/Obligations.lean ====
section
/-! DEFINITION. The statements about the model. The host result port's record `results` (log 4), the chip's
answers (log 2) and the schedule (log 3) are how the model holds the ports the spec names. -/

open Sys2Proof Sys2Proof.Machine

/-! ### Encoding -/

/-- 30_encoding: for every instruction whose operands are well formed, what is presented for it decodes to it,
whatever the instance's dummy byte. -/
def Obligations.DecodeInvertsEncode : Prop :=
  ∀ (d : Byte) (i : Instr), i.wellFormed = true → decodePresented d (encode d i) = .ok i

/-- Over the formats of R70 and R71: bytes decode to a command only if they are exactly what is presented for it,
and the command is well formed. The presented form is the model's choice: that another byte in a dummy position
decodes to nothing, and that READ_RX is presented as its command byte and five dummies, without the payload dummies of
R71's 6 + n bytes (logs 7 and 17). -/
def Obligations.DecodedCommandsAreExact : Prop :=
  ∀ (d : Byte) (bytes : List Byte) (i : Instr), decodeCommand d bytes = .ok i →
    isBusCommand i = true ∧ i.wellFormed = true ∧ encode d i = .command bytes

/-- R83 and R81: a request is rejected exactly when its op code is 0x00 or 0x14 to 0xFF, and then by that name;
otherwise it gives a host operation of that op code. -/
def Obligations.OnlyReservedOpCodesAreRejected : Prop :=
  ∀ r : Request,
    (r.op.toNat = 0 ∨ 0x14 ≤ r.op.toNat → decodeRequest r = .error (.reservedOp r.op)) ∧
      (1 ≤ r.op.toNat ∧ r.op.toNat ≤ 0x13 →
        ∃ i, decodeRequest r = .ok i ∧ isBusCommand i = false ∧
          ∃ r', encode 0 i = .request r' ∧ r'.op = r.op)

/-- R80: "Each operation reads only the fields its rule names. The others are ignored and may hold any value." -/
def Obligations.UnreadRequestFieldsAreIgnored : Prop :=
  ∀ r r' : Request, r.op = r'.op →
    (r.op = 0x01 → r.khz = r'.khz ∧ r.performReset = r'.performReset) →
    (r.op = 0x02 → r.khz = r'.khz) →
    (r.op = 0x05 → r.id = r'.id ∧ r.length = r'.length ∧ r.data = r'.data) →
    (r.op = 0x06 → r.channel = r'.channel) →
    (r.op = 0x07 → r.channel = r'.channel ∧ r.index = r'.index ∧ r.id = r'.id) →
    (r.op = 0x08 → r.channel = r'.channel ∧ r.id = r'.id) →
    (r.op = 0x0C ∨ r.op = 0x0D → r.enable = r'.enable) →
    decodeRequest r = decodeRequest r'

/-- Words written out from the tables of R70 and R81 decode to what they stand for. -/
def Obligations.StatedWordsDecode : Prop :=
  decodeCommand 0 [0xC0] = .ok .reset ∧
    decodeCommand 0 [0x03, 0x1D, 0x00] = .ok (.read 0x1D) ∧
    decodeCommand 0 [0x02, 0x2A, 0x27] = .ok (.write 0x2A 0x27) ∧
    decodeCommand 0 [0x05, 0x2C, 0x01, 0x00] = .ok (.modify 0x2C 0x01 0x00) ∧
    decodeCommand 0 [0x44, 0x24, 0x60, 0x00, 0x00, 0x02, 0xAA, 0xBB] = .ok (.loadTx2 0x24 0x60 0x02 [0xAA, 0xBB]) ∧
    decodeCommand 0 [0x84] = .ok .rts2 ∧
    decodeCommand 0 [0x46, 0x24, 0x60, 0x00, 0x00, 0x00] = .error (.unknownCommand 0x46) ∧
    decodeTableWord 8 0x0B = some .hardReset ∧
    decodeTableWord 8 0x12 = some .fifoPop ∧
    decodeTableWord 8 0xB0 = some .rxStatus ∧
    decodeTableWord 8 0x14 = none

/-! ### The step -/

/-- Over R244(a) and R59: when the HOST agent's turn comes, a host step is enabled and what stands first at the request
port decodes to `i`, the step is exactly `exec i` on the state with the turn and the request taken. That it holds of a
bus command presented alone, and under the gating of a host step, is the model's choice (log 7). -/
def Obligations.StepRunsThePresentedInstruction : Prop :=
  ∀ (s : State) (turns : List Turn) (p : Presented) (ps : List Presented) (i : Instr),
    s.cfg.wellFormed = true → s.schedule = .host :: turns → s.requests = p :: ps → HostMayStep s →
    decodePresented s.cfg.dummyByte p = .ok i →
    step s = exec i { s with schedule := turns, requests := ps }

/-- Over R244 and R260: (a) an enabled host operation is one step; (b) so is each drain step; (c) a host request waits,
taking nothing, unless the block is out of reset and IDLE and no drain start is enabled; (d) an ENV step is always
taken. The model's own choices in it: (a) covers bus commands presented alone too (log 7), and (d) has a change of the
line take its full effect while `rst_n` is low too (log 12). -/
def Obligations.StepsAreSerialised : Prop :=
  ∀ (s : State) (turns : List Turn), s.cfg.wellFormed = true →
    (∀ p ps i, s.schedule = .host :: turns → s.requests = p :: ps → HostMayStep s →
      decodePresented s.cfg.dummyByte p = .ok i →
      step s = exec i { s with schedule := turns, requests := ps }) ∧
    (s.schedule = .drain :: turns → s.rstN = .high → s.drainState = .draining →
      step s = .next (drainIter { s with schedule := turns })) ∧
    (s.schedule = .drain :: turns → DrainMayStart s →
      step s = .next (drainEnter { s with schedule := turns })) ∧
    (s.schedule = .host :: turns → ¬ HostMayStep s → step s = .next { s with schedule := turns }) ∧
    (∀ v, s.schedule = .env (.setInt v) :: turns → step s = .next (envSetInt v { s with schedule := turns })) ∧
    (∀ v, s.schedule = .env (.setRst v) :: turns → ∃ t, step s = .next t ∧ t.rstN = v)

/-- Over R244(c) and R59: whatever the turn, a step takes a request or delivers a result only where a host step is
enabled. That the assertion of `rst_n` keeps what waits at the request port is the model's choice (log 11), and that a
bus command presented alone waits as a request does is too (log 7). -/
def Obligations.RequestsAreTakenOnlyWhenHostMayStep : Prop :=
  ∀ s t : State, step s = .next t →
    t.requests ≠ s.requests ∨ (∃ r rs, t.results = s.results ++ r :: rs) → HostMayStep s

/-- Over R83: a reserved op code sets the mark, issues no transaction, returns nothing and changes no other state of
the block. That the request leaves the port and the run goes on is the model's choice (log 19). -/
def Obligations.ReservedRequestSetsTheMark : Prop :=
  ∀ (s : State) (turns : List Turn) (r : Request) (ps : List Presented),
    s.cfg.wellFormed = true → s.schedule = .host :: turns → s.requests = .request r :: ps → HostMayStep s →
    r.op.toNat = 0 ∨ 0x14 ≤ r.op.toNat →
    step s = .next { s with schedule := turns, requests := ps, refused := true }

/-- R253: the mark is sticky; only the block reset clears it, and only a reserved request sets it. -/
def Obligations.RefusalIsSticky : Prop :=
  ∀ s t : State, step s = .next t →
    (s.refused = true → t.refused = false → (nextTurn s).1 = .env (.setRst .low)) ∧
      (s.refused = false → t.refused = true →
        (nextTurn s).1 = .host ∧ ∃ r ps, s.requests = .request r :: ps ∧ (r.op.toNat = 0 ∨ 0x14 ≤ r.op.toNat))

/-- R7: a configuration with `FIFO_N = 0` is refused, and no other is. -/
def Obligations.OnlyAnEmptyFifoConfigurationIsRefused : Prop :=
  ∀ s : State, step s = .refused .illFormedConfiguration ↔ s.cfg.fifoN = 0

/-- The convention of log 14: with the bits `w` of a table row presented, the very next step runs the instruction
they decode to, on the state out of reset, IDLE and with no drain start enabled. -/
def Obligations.PresentedTableWordRunsNext : Prop :=
  ∀ (s : State) (nbits w : Nat) (i : Instr), s.cfg.wellFormed = true → decodeTableWord nbits w = some i →
    step (s.withFetchWord nbits w) = exec i { s with
      rstN := .high
      drainState := .idle
      intPrev := if s.cfg.drainMode = .level then .high else s.intPrev
      edgeLatch := if s.cfg.drainMode = .edge then false else s.edgeLatch }

/-! ### Transactions -/

/-- R100 to R108: each of the nine transactions sends exactly the bytes of its rule, once, with chip select
asserted over all of them, and returns the answers its rule names. -/
def Obligations.TransactionsSendTheirBytes : Prop :=
  ∀ (s : State) (addr mask value sidh sidl dlc : Byte) (payload : List Byte),
    tReset s = (answer s 0, afterTxn s [0xC0]) ∧
    tRead addr s = (answer s 2, afterTxn s [0x03, addr, s.cfg.dummyByte]) ∧
    tWrite addr value s = afterTxn s [0x02, addr, value] ∧
    tModify addr mask value s = afterTxn s [0x05, addr, mask, value] ∧
    tReadStatus s = (answer s 1, afterTxn s [0xA0, s.cfg.dummyByte]) ∧
    tRxStatus s = (answer s 1, afterTxn s [0xB0, s.cfg.dummyByte]) ∧
    (dlc.toNat ≤ 8 → payload.length = dlc.toNat →
      ∀ x ∈ [(TxBuffer.b0, (0x40 : Byte)), (.b1, 0x42), (.b2, 0x44)],
        tLoadTx x.1 sidh sidl dlc payload s = afterTxn s ([x.2, sidh, sidl, 0x00, 0x00, dlc] ++ payload)) ∧
    (∀ x ∈ [(TxBuffer.b0, (0x81 : Byte)), (.b1, 0x82), (.b2, 0x84)], tRts x.1 s = afterTxn s [x.2]) ∧
    (∀ x ∈ [(RxBuffer.b0, (0x90 : Byte)), (.b1, 0x94)], ∀ n, n = min ((answer s 5).toNat % 16) 8 →
      tReadRx x.1 s =
        ({ sidh := answer s 1, sidl := answer s 2, eid8 := answer s 3, eid0 := answer s 4, dlc := answer s 5,
           payload := (List.range n).map fun k => answer s (6 + k) },
         afterTxn s (x.2 :: List.replicate (5 + n) s.cfg.dummyByte)))

/-! ### Bus commands presented alone (log 7, log 8) -/

/-- The model's choice of logs 7 and 8, over R100 to R105 and R107: a fixed-length command presented alone issues
exactly its bytes once and replies the byte R71 keeps. -/
def Obligations.FixedLengthCommandsIssueTheirBytes : Prop :=
  ∀ (s : State) (addr mask value : Byte),
    exec .reset s = .next (reply [answer s 0] (afterTxn s [0xC0])) ∧
    exec (.read addr) s = .next (reply [answer s 2] (afterTxn s [0x03, addr, s.cfg.dummyByte])) ∧
    exec (.write addr value) s = .next (reply [] (afterTxn s [0x02, addr, value])) ∧
    exec (.modify addr mask value) s = .next (reply [] (afterTxn s [0x05, addr, mask, value])) ∧
    exec .readStatus s = .next (reply [answer s 1] (afterTxn s [0xA0, s.cfg.dummyByte])) ∧
    exec .rxStatus s = .next (reply [answer s 1] (afterTxn s [0xB0, s.cfg.dummyByte])) ∧
    exec .rts0 s = .next (reply [] (afterTxn s [0x81])) ∧
    exec .rts1 s = .next (reply [] (afterTxn s [0x82])) ∧
    exec .rts2 s = .next (reply [] (afterTxn s [0x84]))

/-- The model's choice of logs 7 and 8, over R106 and R73: LOAD_TX presented alone sends the two identifier bytes,
two zero bytes, the DLC and the payload, 6 + L bytes. -/
def Obligations.LoadTxIssuesTheFrame : Prop :=
  ∀ (s : State) (sidh sidl dlc : Byte) (payload : List Byte), dlc.toNat ≤ 8 → payload.length = dlc.toNat →
    exec (.loadTx0 sidh sidl dlc payload) s =
      .next (reply [] (afterTxn s ([0x40, sidh, sidl, 0x00, 0x00, dlc] ++ payload))) ∧
    exec (.loadTx1 sidh sidl dlc payload) s =
      .next (reply [] (afterTxn s ([0x42, sidh, sidl, 0x00, 0x00, dlc] ++ payload))) ∧
    exec (.loadTx2 sidh sidl dlc payload) s =
      .next (reply [] (afterTxn s ([0x44, sidh, sidl, 0x00, 0x00, dlc] ++ payload)))

/-- The model's choice of logs 7 and 8, over R108 and R75: READ_RX presented alone clocks the five header bytes and
then exactly `min(DLC[3:0], 8)` more, in one transaction, and replies all of them. -/
def Obligations.ReadRxLengthFollowsTheDlc : Prop :=
  ∀ (s : State) (n : Nat), n = min ((answer s 5).toNat % 16) 8 →
    exec .readRx0 s =
      .next (reply ((List.range (5 + n)).map fun k => answer s (1 + k))
        (afterTxn s (0x90 :: List.replicate (5 + n) s.cfg.dummyByte))) ∧
    exec .readRx1 s =
      .next (reply ((List.range (5 + n)).map fun k => answer s (1 + k))
        (afterTxn s (0x94 :: List.replicate (5 + n) s.cfg.dummyByte)))

/-- The model's choice of logs 7 and 8: a bus command presented alone changes chip select, the log, the answers drawn
and its own reply, and no other field: no FIFO slot, no register of the block. -/
def Obligations.BusCommandFrame : Prop :=
  ∀ (i : Instr) (s t : State), isBusCommand i = true → exec i s = .next t →
    t = { s with
      csN := t.csN, busLog := t.busLog, miso := t.miso, misoDraws := t.misoDraws, seqReplies := t.seqReplies } ∧
      ∀ k, fifoSlot t k = fifoSlot s k

/-! ### Host operations -/

/-- R125, R124: a rate of the table writes its three bytes, CNF1, CNF2, CNF3, and answers OK; any other rate
writes nothing and answers FAIL. -/
def Obligations.SetBitrateWritesItsRowOrNothing : Prop :=
  ∀ (s : State) (khz : BitVec 32),
    (∀ c1 c2 c3, (khz.toNat, c1, c2, c3) ∈ statedRates →
      exec (.setBitrate khz) s = .next (deliver (codeOnly .ok) (afterTxns s (rateWrites c1 c2 c3)))) ∧
    (khz.toNat ∉ statedRates.map Prod.fst → exec (.setBitrate khz) s = .next (deliver (codeOnly .fail) s))

/-- R127: READ_STATUS; with all three buffers pending FAIL and no more; else LOAD_TX and RTS of the first free
one, with the masked identifier split, the clamped length and that many data bytes. -/
def Obligations.SendUsesTheFirstFreeBuffer : Prop :=
  ∀ (s : State) (id : BitVec 16) (length : BitVec 8) (data : Vector Byte 8),
    let pending := fun (bit : Fin 8) => (answer s 1).getLsbD bit
    let frame := [idHigh id, idLow id, 0x00, 0x00, BitVec.ofNat 8 (sentLength length)] ++
      data.toList.take (sentLength length)
    let sent := fun (load rts : Byte) =>
      Host.Outcome.next (φ := Fault) (ρ := Refusal)
        (deliver (codeOnly .ok) (afterTxns s [[0xA0, s.cfg.dummyByte], load :: frame, [rts]]))
    (pending s.cfg.txPendingBit0 = false → exec (.send id length data) s = sent 0x40 0x81) ∧
    (pending s.cfg.txPendingBit0 = true → pending s.cfg.txPendingBit1 = false →
      exec (.send id length data) s = sent 0x42 0x82) ∧
    (pending s.cfg.txPendingBit0 = true → pending s.cfg.txPendingBit1 = true →
      pending s.cfg.txPendingBit2 = false → exec (.send id length data) s = sent 0x44 0x84) ∧
    (pending s.cfg.txPendingBit0 = true → pending s.cfg.txPendingBit1 = true →
      pending s.cfg.txPendingBit2 = true →
      exec (.send id length data) s = .next (deliver (codeOnly .fail) (afterTxns s [[0xA0, s.cfg.dummyByte]])))

/-- R128, R129: channels 1 and 3 read RX buffer 0, channel 2 buffer 1, each followed by the MODIFY that clears
its flag, and the frame of the answers is returned; any other channel fails with no transaction. -/
def Obligations.ReceiveReadsAndClears : Prop :=
  ∀ (s : State) (channel : Byte),
    (channel = 1 ∨ channel = 3 →
      exec (.receive channel) s =
        .next (deliver (okFrame (frameHere s)) (afterReceive s 0x90 s.cfg.rxClearMask1))) ∧
    (channel = 2 →
      exec (.receive channel) s =
        .next (deliver (okFrame (frameHere s)) (afterReceive s 0x94 s.cfg.rxClearMask2))) ∧
    (channel ≠ 1 → channel ≠ 2 → channel ≠ 3 →
      exec (.receive channel) s = .next (deliver { code := .fail, value := none, frame := .absent } s))

/-- R152, R150: a valid pair writes the identifier's high byte at its base and the low byte after it; any other
pair fails with no transaction. -/
def Obligations.SetFilterWritesThePair : Prop :=
  ∀ (s : State) (channel index : Byte) (id : BitVec 16),
    (∀ base, (channel, index, base) ∈ statedFilters →
      exec (.setFilter channel index id) s =
        .next (deliver (codeOnly .ok) (afterTxns s (pairWrites base id)))) ∧
    ((channel, index) ∉ statedFilters.map (fun x => (x.1, x.2.1)) →
      exec (.setFilter channel index id) s = .next (deliver (codeOnly .fail) s))

/-- R153, R151: channel 1 writes the mask pair at 0x20, channel 2 the one at 0x24; any other channel fails. -/
def Obligations.SetMaskWritesThePair : Prop :=
  ∀ (s : State) (channel : Byte) (id : BitVec 16),
    (channel = 1 →
      exec (.setMask channel id) s = .next (deliver (codeOnly .ok) (afterTxns s (pairWrites 0x20 id)))) ∧
    (channel = 2 →
      exec (.setMask channel id) s = .next (deliver (codeOnly .ok) (afterTxns s (pairWrites 0x24 id)))) ∧
    (channel ≠ 1 → channel ≠ 2 → exec (.setMask channel id) s = .next (deliver (codeOnly .fail) s))

/-- R154, R155: RXB0CTRL, then RXB1CTRL, at the instance's values. -/
def Obligations.FilteringWritesBothControls : Prop :=
  ∀ s : State,
    exec .filterOn s = .next (deliver (codeOnly .ok)
      (afterTxns s [[0x02, 0x60, s.cfg.rxb0ctrlFilterOn], [0x02, 0x70, s.cfg.rxb1ctrlFilterOn]])) ∧
    exec .filterOff s = .next (deliver (codeOnly .ok)
      (afterTxns s [[0x02, 0x60, s.cfg.rxb0ctrlFilterOff], [0x02, 0x70, s.cfg.rxb1ctrlFilterOff]]))

/-- R171, R170: under RX_STATUS the value is bits 7..6 of the answer, under READ_STATUS its bits 1..0. -/
def Obligations.AvailabilityIsTwoBitsOfTheAnswer : Prop :=
  ∀ s : State,
    (s.cfg.availSource = .rxStatus →
      exec .availableChannels s =
        .next (deliver (okValue ((answer s 1).toNat / 64)) (afterTxns s [[0xB0, s.cfg.dummyByte]]))) ∧
    (s.cfg.availSource = .readStatus →
      exec .availableChannels s =
        .next (deliver (okValue ((answer s 1).toNat % 4)) (afterTxns s [[0xA0, s.cfg.dummyByte]])))

/-- R178, R179, R193 and R216 without its corner case: operations with no transaction. -/
def Obligations.OperationsWithNoTransaction : Prop :=
  ∀ s : State,
    exec .attachCallback s = .next (deliver (codeOnly .ok) { s with cbAttached := true }) ∧
    exec .detachCallback s = .next (deliver (codeOnly .ok) { s with cbAttached := false }) ∧
    exec .fifoSize s = .next (deliver (okValue s.fifoSize) s) ∧
    (s.intPrev = .low → exec .interruptPending s = .next (deliver (okValue 1) s)) ∧
    (s.intPrev = .high → exec .interruptPending s = .next (deliver (okValue 0) s))

/-- R192: an empty FIFO answers Absent and changes nothing; otherwise the slot at the head is returned, the head
advances modulo FIFO_N, the size drops by one and no slot is cleared. -/
def Obligations.FifoPopReturnsTheHead : Prop :=
  ∀ s : State, FifoOk s →
    (s.fifoSize = 0 →
      exec .fifoPop s = .next (deliver { code := .ok, value := none, frame := .absent } s)) ∧
    (s.fifoSize ≠ 0 →
      ∃ f, fifoSlot s s.fifoHead = some f ∧
        exec .fifoPop s = .next (deliver (okFrame f)
          { s with fifoHead := (s.fifoHead + 1) % s.cfg.fifoN, fifoSize := s.fifoSize - 1 }))

/-- The model's own choice for R30 (log 10): FIFO_POP faults exactly on an occupied slot no push has written. -/
def Obligations.FifoPopFaultsOnlyOnAnUnwrittenSlot : Prop :=
  ∀ s : State,
    ((∃ r, exec .fifoPop s = .fault r) ↔ s.fifoSize ≠ 0 ∧ fifoSlot s s.fifoHead = none) ∧
      ∀ i r, exec i s = .fault r → i = .fifoPop ∧ r = .unwrittenFifoSlot s.fifoHead

/-- R210: the FIFO is emptied; RESET and `Delay(RESET_DELAY)` if asked; the rate's three WRITEs if it is supported; the
CANINTE write; the mode MODIFY; the code is the rate's. -/
def Obligations.InitializeRunsItsSequence : Prop :=
  ∀ (s : State) (khz : BitVec 32) (performReset : BitVec 1),
    let cleared := { s with fifoHead := 0, fifoTail := 0, fifoSize := 0 }
    let ready := if performReset = 1 then delay (afterTxns cleared [[0xC0]]) else cleared
    let tail := [[0x02, 0x2B, s.cfg.initCaninte], [0x05, 0x0F, s.cfg.modeMask, s.cfg.modeNormal]]
    (∀ c1 c2 c3, (khz.toNat, c1, c2, c3) ∈ statedRates →
      exec (.initializeOp khz performReset) s =
        .next (deliver (codeOnly .ok) (afterTxns ready (rateWrites c1 c2 c3 ++ tail)))) ∧
    (khz.toNat ∉ statedRates.map Prod.fst →
      exec (.initializeOp khz performReset) s = .next (deliver (codeOnly .fail) (afterTxns ready tail)))

/-- R211: RESET, `Delay(RESET_DELAY)`, and the echo returned as the value; nothing else of the block changes. -/
def Obligations.HardResetReturnsTheEcho : Prop :=
  ∀ s : State,
    exec .hardReset s = .next (deliver (okValue (answer s 0).toNat) (delay (afterTxns s [[0xC0]])))

/-- R212, R213: one MODIFY of CANCTRL under the mode mask. -/
def Obligations.ModeOperationsModifyCanctrl : Prop :=
  ∀ (s : State) (enable : BitVec 1),
    exec (.setConfigMode enable) s = .next (deliver (codeOnly .ok)
      (afterTxns s [[0x05, 0x0F, s.cfg.modeMask, if enable = 1 then s.cfg.modeConfig else s.cfg.modeNormal]])) ∧
    exec (.setSilentMode enable) s = .next (deliver (codeOnly .ok)
      (afterTxns s [[0x05, 0x0F, s.cfg.modeMask, if enable = 1 then s.cfg.modeSilent else s.cfg.modeNormal]]))

/-- R214, R215: one READ of REC or TEC, the third answer returned. -/
def Obligations.ErrorCountersAreRead : Prop :=
  ∀ s : State,
    exec .readRxError s = .next (deliver (okValue (answer s 2).toNat)
      (afterTxns s [[0x03, 0x1D, s.cfg.dummyByte]])) ∧
    exec .readTxError s = .next (deliver (okValue (answer s 2).toNat)
      (afterTxns s [[0x03, 0x1C, s.cfg.dummyByte]]))

/-- What a host operation leaves unchanged: everything but the bus side and the result record, except that
FIFO_POP moves the head and the size, INITIALIZE the three counters, and ATTACH and DETACH `cb_attached`. No host
operation writes a FIFO slot. -/
def Obligations.HostOperationFrame : Prop :=
  ∀ (i : Instr) (s t : State), isBusCommand i = false → exec i s = .next t →
    (∀ k, fifoSlot t k = fifoSlot s k) ∧
    t = { s with
      csN := t.csN, busLog := t.busLog, miso := t.miso, misoDraws := t.misoDraws, results := t.results
      fifoHead := t.fifoHead, fifoTail := t.fifoTail, fifoSize := t.fifoSize, cbAttached := t.cbAttached } ∧
    ((∀ khz p, i ≠ .initializeOp khz p) → t.fifoTail = s.fifoTail) ∧
    ((∀ khz p, i ≠ .initializeOp khz p) → i ≠ .fifoPop → t.fifoHead = s.fifoHead ∧ t.fifoSize = s.fifoSize) ∧
    (i ≠ .attachCallback → i ≠ .detachCallback → t.cbAttached = s.cbAttached)

/-- R240: exactly one result each; FAIL exactly for the table's causes, and then only the table's transactions. -/
def Obligations.FailExactlyForTheStatedCauses : Prop :=
  ∀ (i : Instr) (s t : State), isBusCommand i = false → exec i s = .next t →
    ∃ r es, t.results = s.results ++ [r] ∧ t.busLog = s.busLog ++ es ∧
      (r.code = .fail ↔ FailCause s i) ∧ (r.code = .fail → mosiOf es = failTransactions s.cfg i)

/-- R241 for four of R240's failures: SET_BITRATE, RECEIVE, SET_FILTER and SET_MASK, failing, issue no transaction and
change no block state. A failing INITIALIZE empties the FIFO and issues the transactions of R240's table
(InitializeRunsItsSequence); a failing SEND has polled, and is no validation failure (SendUsesTheFirstFreeBuffer). -/
def Obligations.FailedValidationChangesNothing : Prop :=
  ∀ (i : Instr) (s t : State) (r : HostResult),
    (∃ khz, i = .setBitrate khz) ∨ (∃ c, i = .receive c) ∨ (∃ c x id, i = .setFilter c x id) ∨
      (∃ c id, i = .setMask c id) →
    exec i s = .next t → t.results = s.results ++ [r] → r.code = .fail →
    t = { s with results := s.results ++ [r] }

/-- R262: in the log of a host operation every RESET transaction is followed at once by `Delay(RESET_DELAY)`, with the
instance's parameter; only HARD_RESET and INITIALIZE with `perform_reset` issue one. -/
def Obligations.EveryResetIsFollowedByTheDelay : Prop :=
  ∀ (i : Instr) (s t : State), isBusCommand i = false → exec i s = .next t →
    ∃ es, t.busLog = s.busLog ++ es ∧ delayAfterReset s.cfg.resetDelay es = true ∧
      ([0xC0] ∈ mosiOf es → i = .hardReset ∨ ∃ khz, i = .initializeOp khz 1)

/-! ### The frame codec -/

/-- R120: the identifier split is the masked form for every 16-bit argument, so bits 15..11 are dropped. -/
def Obligations.IdentifierSplitIsMasked : Prop :=
  ∀ id : BitVec 16,
    (packId id).1 = BitVec.ofNat 8 (id.toNat / 8 % 256) ∧ (packId id).2 = BitVec.ofNat 8 (id.toNat * 32 % 256) ∧
      packId id = packId (BitVec.ofNat 16 (id.toNat % 2048)) ∧ (packId id).2.getLsbD 3 = false

/-- R121, R123: the identifier is `SIDH ++ SIDL[7:5]` and the length `min(DLC[3:0], 8)`; SIDL bits 4..0, the
extended-ID bytes and DLC bits 7..4 have no effect, so an extended or remote frame decodes as a standard one. -/
def Obligations.DecodeIgnoresTheOtherHeaderBits : Prop :=
  ∀ r r' : RxRead,
    (decodeFrame r).id.toNat = r.sidh.toNat * 8 + r.sidl.toNat / 32 ∧
    (decodeFrame r).len = min (r.dlc.toNat % 16) 8 ∧ (decodeFrame r).data = r.payload ∧
    (r.sidh = r'.sidh → r.sidl.toNat / 32 = r'.sidl.toNat / 32 → r.dlc.toNat % 16 = r'.dlc.toNat % 16 →
      r.payload = r'.payload → decodeFrame r = decodeFrame r')

/-- R122: `clamp_len(length) = max(0, min(length, 8))` on a signed byte. -/
def Obligations.SendLengthIsClamped : Prop :=
  ∀ length : BitVec 8, (clampLen length : Int) = max 0 (min length.toInt 8)

/-- R126: the first buffer not pending, in the order 0, 1, 2, or none. -/
def Obligations.SelectTxTakesTheFirstFree : Prop :=
  ∀ (c : Config) (st : Byte),
    (selectTx c st = some .b0 ↔ st.getLsbD c.txPendingBit0 = false) ∧
    (selectTx c st = some .b1 ↔ st.getLsbD c.txPendingBit0 = true ∧ st.getLsbD c.txPendingBit1 = false) ∧
    (selectTx c st = some .b2 ↔
      st.getLsbD c.txPendingBit0 = true ∧ st.getLsbD c.txPendingBit1 = true ∧
        st.getLsbD c.txPendingBit2 = false) ∧
    (selectTx c st = none ↔
      st.getLsbD c.txPendingBit0 = true ∧ st.getLsbD c.txPendingBit1 = true ∧ st.getLsbD c.txPendingBit2 = true)

/-- 41 section 5: a frame sent, and read back by a READ_RX whose answers are the bytes its LOAD_TX sent, is
received with its identifier, length and payload. That the chip answers so is a hypothesis (R52). -/
def Obligations.SentFrameReadBackIsTheSame : Prop :=
  ∀ (s0 t0 s : State) (id : BitVec 16) (len : Nat) (data : Vector Byte 8) (channel : Byte)
    (e1 e3 : Event) (xs : List Exchange),
    id.toNat < 2048 → len ≤ 8 →
    exec (.send id (BitVec.ofNat 8 len) data) s0 = .next t0 → t0.busLog = s0.busLog ++ [e1, .txn xs, e3] →
    (∀ k, 1 ≤ k → k ≤ 5 + len → xs[k]?.map Exchange.mosi = some (answer s k)) →
    channel = 1 ∨ channel = 2 ∨ channel = 3 →
    ∃ t, exec (.receive channel) s = .next t ∧
      t.results = s.results ++
        [okFrame { id := BitVec.ofNat 11 id.toNat, len := len, data := data.toList.take len }]

/-! ### The receive dispatcher -/

/-- R172: the start is taken exactly where DRAIN_MODE allows it, issues no transaction, and under EDGE clears the
latch; an idle DRAIN agent that may not start changes nothing. -/
def Obligations.DrainStartsAsTheModeAllows : Prop :=
  ∀ (s : State) (turns : List Turn), s.cfg.wellFormed = true → s.schedule = .drain :: turns →
    s.drainState = .idle →
    (DrainMayStart s →
      step s = .next { s with
        schedule := turns
        drainState := .draining
        edgeLatch := if s.cfg.drainMode = .edge then false else s.edgeLatch }) ∧
    (¬ DrainMayStart s → step s = .next { s with schedule := turns })

/-- R173 to R176 and R190: an iteration queries; 0 ends the activation; 1 or 3 receives from channel 1 and 2 from
channel 2, and the frame goes to the callback log or into the FIFO. -/
def Obligations.DrainIterationQueriesReceivesRoutes : Prop :=
  ∀ (s : State) (turns : List Turn), s.cfg.wellFormed = true → s.schedule = .drain :: turns →
    s.drainState = .draining → s.rstN = .high →
    let q := afterTxns { s with schedule := turns } [availMosi s]
    (availAnswered s = 0 → step s = .next { q with drainState := .idle }) ∧
    (availAnswered s = 1 ∨ availAnswered s = 3 →
      step s = .next (delivered (frameHere q) (afterReceive q 0x90 s.cfg.rxClearMask1))) ∧
    (availAnswered s = 2 →
      step s = .next (delivered (frameHere q) (afterReceive q 0x94 s.cfg.rxClearMask2)))

/-- R175: from DRAINING, only an iteration whose query answers 0, or the block reset, leads back to IDLE; an
iteration always answers a next state, and goes on DRAINING while the query answers anything else, without end. -/
def Obligations.OnlyAnEmptyQueryEndsADrain : Prop :=
  ∀ s : State, s.drainState = .draining →
    (∀ t, step s = .next t → t.drainState = .idle →
      (nextTurn s).1 = .env (.setRst .low) ∨ ((nextTurn s).1 = .drain ∧ s.rstN = .high ∧ availAnswered s = 0)) ∧
    (s.cfg.wellFormed = true → s.rstN = .high → (nextTurn s).1 = .drain →
      ∃ t, step s = .next t ∧ (t.drainState = .idle ↔ availAnswered s = 0))

/-- R176: a step delivers at most one frame, to the callback log or to the FIFO and never to both: with a
callback attached the FIFO is not touched, without one the callback log is not. -/
def Obligations.AFrameIsNeverDeliveredTwice : Prop :=
  ∀ (s t : State), (nextTurn s).1 = .drain → step s = .next t →
    (s.cbAttached = true →
      t.fifoBuf = s.fifoBuf ∧ t.fifoHead = s.fifoHead ∧ t.fifoTail = s.fifoTail ∧ t.fifoSize = s.fifoSize ∧
        (t.cbLog = s.cbLog ∨ ∃ f, t.cbLog = s.cbLog ++ [f])) ∧
    (s.cbAttached = false → t.cbLog = s.cbLog ∧ (t.fifoSize = s.fifoSize ∨ t.fifoSize = s.fifoSize + 1))

/-- R216's corner case: under LEVEL an INTERRUPT_PENDING that a step runs always answers 0. -/
def Obligations.InterruptPendingIsZeroUnderLevel : Prop :=
  ∀ (s t : State) (turns : List Turn) (p : Presented) (ps : List Presented),
    s.cfg.drainMode = .level → s.schedule = .host :: turns → s.requests = p :: ps →
    decodePresented s.cfg.dummyByte p = .ok .interruptPending → step s = .next t → t.requests = ps →
    t.results = s.results ++ [okValue 0]

/-- Over R243: an ENV change of the line sets its level, and under EDGE a falling edge, and nothing else, sets the
latch. That it does so while `rst_n` is low too is the model's choice (log 12, deduced from R244(d)). -/
def Obligations.TheLineAndItsEdgeAreRecorded : Prop :=
  ∀ (s : State) (turns : List Turn) (v : Level), s.cfg.wellFormed = true →
    s.schedule = .env (.setInt v) :: turns →
    (s.cfg.drainMode = .edge → s.intPrev = .high → v = .low →
      step s = .next { s with schedule := turns, intPrev := v, edgeLatch := true }) ∧
    (s.cfg.drainMode ≠ .edge ∨ s.intPrev = .low ∨ v = .high →
      step s = .next { s with schedule := turns, intPrev := v })

/-- R265: under EDGE, with the line low, the latch clear and the drain idle, no activation starts, however many
steps of any agent are taken, as long as the line is not raised and the block not reset. -/
def Obligations.AMissedEdgeStartsNoDrain : Prop :=
  ∀ (turns rest : List Turn) (s t : State), s.schedule = turns ++ rest →
    s.cfg.drainMode = .edge → s.drainState = .idle → s.edgeLatch = false → s.intPrev = .low →
    (∀ turn ∈ turns, turn ≠ .env (.setInt .high) ∧ turn ≠ .env (.setRst .low)) →
    Host.Core.run Sys2Proof.core turns.length s = .next t →
    t.drainState = .idle ∧ t.edgeLatch = false ∧ t.intPrev = .low

/-- R264: under LEVEL, with the line low, whatever turns the agents take, as long as the line is not raised and the
block not reset: if every query answers 0, the DRAIN agent's turns are starts and queries by turns, empty activations
following one another without end, no host step is ever enabled, and no request is taken. `moves` counts the DRAIN
turns, and the start already made where an activation is under way; every second one is a query. -/
def Obligations.AHeldLineLocksTheHostOut : Prop :=
  ∀ (turns rest : List Turn) (s : State) (moves : Nat), s.cfg.wellFormed = true → s.schedule = turns ++ rest →
    s.cfg.drainMode = .level → s.rstN = .high → s.intPrev = .low →
    (∀ turn ∈ turns, turn ≠ .env (.setInt .high) ∧ turn ≠ .env (.setRst .low)) →
    moves = turns.count .drain + (if s.drainState = .draining then 1 else 0) →
    (∀ j, j < moves / 2 → availBits s.cfg (answer s (2 * j + 1)) = 0) →
    ∃ t es, Host.Core.run Sys2Proof.core turns.length s = .next t ∧ ¬ HostMayStep t ∧
      t = { s with
        schedule := rest
        drainState := if moves % 2 = 0 then .idle else .draining
        csN := t.csN, busLog := s.busLog ++ es, miso := t.miso, misoDraws := t.misoDraws } ∧
      mosiOf es = List.replicate (moves / 2) (availMosi s)

/-! ### The ring buffer -/

/-- Over R190, with R29 and R30, which the spec marks as derived: a push keeps the FIFO's invariant; on a full FIFO it
changes nothing at all, else it appends the frame to the queue. It touches nothing outside the FIFO. -/
def Obligations.PushAppendsOrDrops : Prop :=
  ∀ (f : Frame) (s : State), FifoOk s → FrameOk f →
    FifoOk (fifoPush f s) ∧
    (s.fifoSize = s.cfg.fifoN → fifoPush f s = s) ∧
    (s.fifoSize < s.cfg.fifoN →
      fifoWindow (fifoPush f s) = fifoWindow s ++ [some f] ∧ fifoSlot (fifoPush f s) s.fifoTail = some f ∧
        fifoPush f s = { s with
          fifoBuf := (fifoPush f s).fifoBuf
          fifoTail := (s.fifoTail + 1) % s.cfg.fifoN
          fifoSize := s.fifoSize + 1 } ∧
        ∀ i, i ≠ s.fifoTail → fifoSlot (fifoPush f s) i = fifoSlot s i)

/-- R191: FIFO_POP on a nonempty FIFO returns the oldest frame, leaves the rest of the queue, and keeps the
invariant. -/
def Obligations.PopTakesTheOldest : Prop :=
  ∀ (s : State), FifoOk s → s.fifoSize ≠ 0 →
    ∃ f t, exec .fifoPop s = .next t ∧ FifoOk t ∧ fifoWindow s = some f :: fifoWindow t ∧
      t.results = s.results ++ [okFrame f]

/-- R191: from an empty FIFO, pushing the frames `fs` keeps the first FIFO_N of them, and R pops then return the
first R, in push order. -/
def Obligations.FifoOrderIsPushOrder : Prop :=
  ∀ (s : State) (fs : List Frame) (r : Nat), FifoOk s → s.fifoSize = 0 → (∀ f ∈ fs, FrameOk f) →
    r ≤ fs.length → r ≤ s.cfg.fifoN →
    ∃ t, execMany (List.replicate r .fifoPop) (pushAll fs s) = .next t ∧
      t.results = s.results ++ (fs.take r).map okFrame ∧
      fifoWindow t = ((fs.take s.cfg.fifoN).drop r).map some

/-- R26: only a drain iteration writes a FIFO entry, and only the one at the tail. -/
def Obligations.OnlyTheDrainWritesTheTailSlot : Prop :=
  ∀ s t : State, step s = .next t →
    (∀ i, i ≠ s.fifoTail → fifoSlot t i = fifoSlot s i) ∧
      (t.fifoBuf ≠ s.fifoBuf → (nextTurn s).1 = .drain ∧ s.drainState = .draining ∧ s.cbAttached = false)

/-- R195: only the block reset, an INITIALIZE and a FIFO_POP that a step runs take entries out of the FIFO; the
first two set head, tail and size to 0 and leave `fifo_buf`; HARD_RESET does not touch the FIFO. -/
def Obligations.OnlyThreeThingsShrinkTheFifo : Prop :=
  ∀ s t : State,
    (step s = .next t → t.fifoSize < s.fifoSize →
      (nextTurn s).1 = .env (.setRst .low) ∨
        ((nextTurn s).1 = .host ∧ ∃ p ps, s.requests = p :: ps ∧
          (decodePresented s.cfg.dummyByte p = .ok .fifoPop ∨
            ∃ khz r, decodePresented s.cfg.dummyByte p = .ok (.initializeOp khz r)))) ∧
    ((step s = .next t ∧ (nextTurn s).1 = .env (.setRst .low)) ∨ (∃ khz r, exec (.initializeOp khz r) s = .next t) →
      t.fifoHead = 0 ∧ t.fifoTail = 0 ∧ t.fifoSize = 0 ∧ t.fifoBuf = s.fifoBuf) ∧
    (exec .hardReset s = .next t →
      t.fifoHead = s.fifoHead ∧ t.fifoTail = s.fifoTail ∧ t.fifoSize = s.fifoSize ∧ t.fifoBuf = s.fifoBuf)

/-! ### Whole-machine rules -/

/-- R28: `State.reset` has the value the spec gives every field it gives one. -/
def Obligations.ResetHasTheStatedValues : Prop :=
  State.reset.fifoHead = 0 ∧ State.reset.fifoTail = 0 ∧ State.reset.fifoSize = 0 ∧
    State.reset.cbAttached = false ∧ State.reset.drainState = .idle ∧ State.reset.intPrev = .high ∧
    State.reset.edgeLatch = false ∧ State.reset.csN = .high ∧ State.reset.busLog = [] ∧
    State.reset.cbLog = [] ∧ State.reset.refused = false

/-- Over R260, R28 and R195: asserting `rst_n` gives every field its reset value at once, whatever the state, keeps
`fifo_buf` (R195), and sends the chip nothing; while it is asserted no HOST or DRAIN turn does anything; releasing it
changes its level and nothing else. That an assertion while `rst_n` is low already resets again, and that the release
changes the level alone, is the model's choice (log 12). -/
def Obligations.BlockResetTakesEffectAtOnce : Prop :=
  ∀ (s : State) (turns : List Turn), s.cfg.wellFormed = true →
    (s.schedule = .env (.setRst .low) :: turns →
      ∃ t, step s = .next t ∧ t.rstN = .low ∧ t.fifoHead = 0 ∧ t.fifoTail = 0 ∧ t.fifoSize = 0 ∧
        t.cbAttached = false ∧ t.drainState = .idle ∧ t.intPrev = .high ∧ t.edgeLatch = false ∧ t.csN = .high ∧
        t.busLog = [] ∧ t.cbLog = [] ∧ t.refused = false ∧ t.fifoBuf = s.fifoBuf ∧ t.miso = s.miso ∧
        t.misoDraws = s.misoDraws) ∧
    (s.rstN = .low → s.schedule = .host :: turns ∨ s.schedule = .drain :: turns →
      step s = .next { s with schedule := turns }) ∧
    (s.schedule = .env (.setRst .high) :: turns → step s = .next { s with schedule := turns, rstN := .high })

/-- The invariant of 10_state section 4 holds after reset (the unwritten slots are the model's own, log 10). -/
def Obligations.ResetMeetsTheBlockInvariant : Prop :=
  BlockOk State.reset

/-- 10_state section 4: from every state that meets the invariant, every step gives one that meets it; no step
changes a parameter (R31, log 1). -/
def Obligations.EveryStepKeepsTheBlockInvariant : Prop :=
  ∀ s t : State, step s = .next t → t.cfg = s.cfg ∧ (BlockOk s → BlockOk t)

/-- R242, "There is no fault state": from the invariant no step faults, and the only refusal is of bytes
presented to the sequencer alone (log 7) that are no command (log 20): both are the model's choice. -/
def Obligations.NoStepFaultsUnderTheInvariant : Prop :=
  ∀ s : State, BlockOk s →
    (∃ t, step s = .next t) ∨
      (step s = .refused .neverIssuedCommand ∧ (nextTurn s).1 = .host ∧
        ∃ bytes ps e, s.requests = .command bytes :: ps ∧ decodeCommand s.cfg.dummyByte bytes = .error e)

/-- R70, R71, R79: if every recorded transaction has the form of one of the 14 commands, so it is after every
step: the block issues no other byte sequence. -/
def Obligations.EveryRecordedTransactionIsACommand : Prop :=
  ∀ s t : State, LogLegal s.cfg.dummyByte s.busLog → step s = .next t → LogLegal t.cfg.dummyByte t.busLog

/-- R58, R109: but for the block reset, a step only adds events to the log; their MISO bytes are the chip's next
answers, each drawn once and in order. -/
def Obligations.TheLogRecordsEveryAnswerInOrder : Prop :=
  ∀ s t : State, step s = .next t → (nextTurn s).1 ≠ .env (.setRst .low) →
    ∃ es, t.busLog = s.busLog ++ es ∧
      misoOf es = (List.range (misoOf es).length).map (answer s) ∧
      t.miso = s.miso.drop (misoOf es).length ∧
      t.misoDraws = s.misoDraws + ((misoOf es).length - s.miso.length)
end

