-- ==== Sys2Proof/Laws/State.lean ====
section
/-! SUPPORT. What every update of the state leaves in every field: one lemma per field and update, so that no
proof unfolds a record update. -/

namespace Sys2Proof.Machine

section drawn
variable (s : State) (n : Nat)

@[simp] theorem drawn_fifoBuf : (drawn s n).fifoBuf = s.fifoBuf := rfl
@[simp] theorem drawn_fifoHead : (drawn s n).fifoHead = s.fifoHead := rfl
@[simp] theorem drawn_fifoTail : (drawn s n).fifoTail = s.fifoTail := rfl
@[simp] theorem drawn_fifoSize : (drawn s n).fifoSize = s.fifoSize := rfl
@[simp] theorem drawn_cbAttached : (drawn s n).cbAttached = s.cbAttached := rfl
@[simp] theorem drawn_drainState : (drawn s n).drainState = s.drainState := rfl
@[simp] theorem drawn_intPrev : (drawn s n).intPrev = s.intPrev := rfl
@[simp] theorem drawn_edgeLatch : (drawn s n).edgeLatch = s.edgeLatch := rfl
@[simp] theorem drawn_csN : (drawn s n).csN = s.csN := rfl
@[simp] theorem drawn_busLog : (drawn s n).busLog = s.busLog := rfl
@[simp] theorem drawn_cbLog : (drawn s n).cbLog = s.cbLog := rfl
@[simp] theorem drawn_refused : (drawn s n).refused = s.refused := rfl
@[simp] theorem drawn_rstN : (drawn s n).rstN = s.rstN := rfl
@[simp] theorem drawn_cfg : (drawn s n).cfg = s.cfg := rfl
@[simp] theorem drawn_requests : (drawn s n).requests = s.requests := rfl
@[simp] theorem drawn_results : (drawn s n).results = s.results := rfl
@[simp] theorem drawn_miso : (drawn s n).miso = s.miso.drop n := rfl
@[simp] theorem drawn_misoDraws : (drawn s n).misoDraws = s.misoDraws + (n - s.miso.length) := rfl
@[simp] theorem drawn_schedule : (drawn s n).schedule = s.schedule := rfl
@[simp] theorem drawn_turnDraws : (drawn s n).turnDraws = s.turnDraws := rfl
@[simp] theorem drawn_seqReplies : (drawn s n).seqReplies = s.seqReplies := rfl

end drawn

section txnBegin
variable (s : State)

@[simp] theorem txnBegin_fifoBuf : (txnBegin s).fifoBuf = s.fifoBuf := rfl
@[simp] theorem txnBegin_fifoHead : (txnBegin s).fifoHead = s.fifoHead := rfl
@[simp] theorem txnBegin_fifoTail : (txnBegin s).fifoTail = s.fifoTail := rfl
@[simp] theorem txnBegin_fifoSize : (txnBegin s).fifoSize = s.fifoSize := rfl
@[simp] theorem txnBegin_cbAttached : (txnBegin s).cbAttached = s.cbAttached := rfl
@[simp] theorem txnBegin_drainState : (txnBegin s).drainState = s.drainState := rfl
@[simp] theorem txnBegin_intPrev : (txnBegin s).intPrev = s.intPrev := rfl
@[simp] theorem txnBegin_edgeLatch : (txnBegin s).edgeLatch = s.edgeLatch := rfl
@[simp] theorem txnBegin_csN : (txnBegin s).csN = .low := rfl
@[simp] theorem txnBegin_busLog : (txnBegin s).busLog = s.busLog := rfl
@[simp] theorem txnBegin_cbLog : (txnBegin s).cbLog = s.cbLog := rfl
@[simp] theorem txnBegin_refused : (txnBegin s).refused = s.refused := rfl
@[simp] theorem txnBegin_rstN : (txnBegin s).rstN = s.rstN := rfl
@[simp] theorem txnBegin_cfg : (txnBegin s).cfg = s.cfg := rfl
@[simp] theorem txnBegin_requests : (txnBegin s).requests = s.requests := rfl
@[simp] theorem txnBegin_results : (txnBegin s).results = s.results := rfl
@[simp] theorem txnBegin_miso : (txnBegin s).miso = s.miso := rfl
@[simp] theorem txnBegin_misoDraws : (txnBegin s).misoDraws = s.misoDraws := rfl
@[simp] theorem txnBegin_schedule : (txnBegin s).schedule = s.schedule := rfl
@[simp] theorem txnBegin_turnDraws : (txnBegin s).turnDraws = s.turnDraws := rfl
@[simp] theorem txnBegin_seqReplies : (txnBegin s).seqReplies = s.seqReplies := rfl

end txnBegin

section txnEnd
variable (bytes : List Exchange) (s : State)

@[simp] theorem txnEnd_fifoBuf : (txnEnd bytes s).fifoBuf = s.fifoBuf := rfl
@[simp] theorem txnEnd_fifoHead : (txnEnd bytes s).fifoHead = s.fifoHead := rfl
@[simp] theorem txnEnd_fifoTail : (txnEnd bytes s).fifoTail = s.fifoTail := rfl
@[simp] theorem txnEnd_fifoSize : (txnEnd bytes s).fifoSize = s.fifoSize := rfl
@[simp] theorem txnEnd_cbAttached : (txnEnd bytes s).cbAttached = s.cbAttached := rfl
@[simp] theorem txnEnd_drainState : (txnEnd bytes s).drainState = s.drainState := rfl
@[simp] theorem txnEnd_intPrev : (txnEnd bytes s).intPrev = s.intPrev := rfl
@[simp] theorem txnEnd_edgeLatch : (txnEnd bytes s).edgeLatch = s.edgeLatch := rfl
@[simp] theorem txnEnd_csN : (txnEnd bytes s).csN = .high := rfl
@[simp] theorem txnEnd_busLog : (txnEnd bytes s).busLog = s.busLog ++ [.txn bytes] := rfl
@[simp] theorem txnEnd_cbLog : (txnEnd bytes s).cbLog = s.cbLog := rfl
@[simp] theorem txnEnd_refused : (txnEnd bytes s).refused = s.refused := rfl
@[simp] theorem txnEnd_rstN : (txnEnd bytes s).rstN = s.rstN := rfl
@[simp] theorem txnEnd_cfg : (txnEnd bytes s).cfg = s.cfg := rfl
@[simp] theorem txnEnd_requests : (txnEnd bytes s).requests = s.requests := rfl
@[simp] theorem txnEnd_results : (txnEnd bytes s).results = s.results := rfl
@[simp] theorem txnEnd_miso : (txnEnd bytes s).miso = s.miso := rfl
@[simp] theorem txnEnd_misoDraws : (txnEnd bytes s).misoDraws = s.misoDraws := rfl
@[simp] theorem txnEnd_schedule : (txnEnd bytes s).schedule = s.schedule := rfl
@[simp] theorem txnEnd_turnDraws : (txnEnd bytes s).turnDraws = s.turnDraws := rfl
@[simp] theorem txnEnd_seqReplies : (txnEnd bytes s).seqReplies = s.seqReplies := rfl

end txnEnd

section delay
variable (s : State)

@[simp] theorem delay_fifoBuf : (delay s).fifoBuf = s.fifoBuf := rfl
@[simp] theorem delay_fifoHead : (delay s).fifoHead = s.fifoHead := rfl
@[simp] theorem delay_fifoTail : (delay s).fifoTail = s.fifoTail := rfl
@[simp] theorem delay_fifoSize : (delay s).fifoSize = s.fifoSize := rfl
@[simp] theorem delay_cbAttached : (delay s).cbAttached = s.cbAttached := rfl
@[simp] theorem delay_drainState : (delay s).drainState = s.drainState := rfl
@[simp] theorem delay_intPrev : (delay s).intPrev = s.intPrev := rfl
@[simp] theorem delay_edgeLatch : (delay s).edgeLatch = s.edgeLatch := rfl
@[simp] theorem delay_csN : (delay s).csN = s.csN := rfl
@[simp] theorem delay_busLog : (delay s).busLog = s.busLog ++ [.delay s.cfg.resetDelay] := rfl
@[simp] theorem delay_cbLog : (delay s).cbLog = s.cbLog := rfl
@[simp] theorem delay_refused : (delay s).refused = s.refused := rfl
@[simp] theorem delay_rstN : (delay s).rstN = s.rstN := rfl
@[simp] theorem delay_cfg : (delay s).cfg = s.cfg := rfl
@[simp] theorem delay_requests : (delay s).requests = s.requests := rfl
@[simp] theorem delay_results : (delay s).results = s.results := rfl
@[simp] theorem delay_miso : (delay s).miso = s.miso := rfl
@[simp] theorem delay_misoDraws : (delay s).misoDraws = s.misoDraws := rfl
@[simp] theorem delay_schedule : (delay s).schedule = s.schedule := rfl
@[simp] theorem delay_turnDraws : (delay s).turnDraws = s.turnDraws := rfl
@[simp] theorem delay_seqReplies : (delay s).seqReplies = s.seqReplies := rfl

end delay

section deliver
variable (r : HostResult) (s : State)

@[simp] theorem deliver_fifoBuf : (deliver r s).fifoBuf = s.fifoBuf := rfl
@[simp] theorem deliver_fifoHead : (deliver r s).fifoHead = s.fifoHead := rfl
@[simp] theorem deliver_fifoTail : (deliver r s).fifoTail = s.fifoTail := rfl
@[simp] theorem deliver_fifoSize : (deliver r s).fifoSize = s.fifoSize := rfl
@[simp] theorem deliver_cbAttached : (deliver r s).cbAttached = s.cbAttached := rfl
@[simp] theorem deliver_drainState : (deliver r s).drainState = s.drainState := rfl
@[simp] theorem deliver_intPrev : (deliver r s).intPrev = s.intPrev := rfl
@[simp] theorem deliver_edgeLatch : (deliver r s).edgeLatch = s.edgeLatch := rfl
@[simp] theorem deliver_csN : (deliver r s).csN = s.csN := rfl
@[simp] theorem deliver_busLog : (deliver r s).busLog = s.busLog := rfl
@[simp] theorem deliver_cbLog : (deliver r s).cbLog = s.cbLog := rfl
@[simp] theorem deliver_refused : (deliver r s).refused = s.refused := rfl
@[simp] theorem deliver_rstN : (deliver r s).rstN = s.rstN := rfl
@[simp] theorem deliver_cfg : (deliver r s).cfg = s.cfg := rfl
@[simp] theorem deliver_requests : (deliver r s).requests = s.requests := rfl
@[simp] theorem deliver_results : (deliver r s).results = s.results ++ [r] := rfl
@[simp] theorem deliver_miso : (deliver r s).miso = s.miso := rfl
@[simp] theorem deliver_misoDraws : (deliver r s).misoDraws = s.misoDraws := rfl
@[simp] theorem deliver_schedule : (deliver r s).schedule = s.schedule := rfl
@[simp] theorem deliver_turnDraws : (deliver r s).turnDraws = s.turnDraws := rfl
@[simp] theorem deliver_seqReplies : (deliver r s).seqReplies = s.seqReplies := rfl

end deliver

section reply
variable (kept : List Byte) (s : State)

@[simp] theorem reply_fifoBuf : (reply kept s).fifoBuf = s.fifoBuf := rfl
@[simp] theorem reply_fifoHead : (reply kept s).fifoHead = s.fifoHead := rfl
@[simp] theorem reply_fifoTail : (reply kept s).fifoTail = s.fifoTail := rfl
@[simp] theorem reply_fifoSize : (reply kept s).fifoSize = s.fifoSize := rfl
@[simp] theorem reply_cbAttached : (reply kept s).cbAttached = s.cbAttached := rfl
@[simp] theorem reply_drainState : (reply kept s).drainState = s.drainState := rfl
@[simp] theorem reply_intPrev : (reply kept s).intPrev = s.intPrev := rfl
@[simp] theorem reply_edgeLatch : (reply kept s).edgeLatch = s.edgeLatch := rfl
@[simp] theorem reply_csN : (reply kept s).csN = s.csN := rfl
@[simp] theorem reply_busLog : (reply kept s).busLog = s.busLog := rfl
@[simp] theorem reply_cbLog : (reply kept s).cbLog = s.cbLog := rfl
@[simp] theorem reply_refused : (reply kept s).refused = s.refused := rfl
@[simp] theorem reply_rstN : (reply kept s).rstN = s.rstN := rfl
@[simp] theorem reply_cfg : (reply kept s).cfg = s.cfg := rfl
@[simp] theorem reply_requests : (reply kept s).requests = s.requests := rfl
@[simp] theorem reply_results : (reply kept s).results = s.results := rfl
@[simp] theorem reply_miso : (reply kept s).miso = s.miso := rfl
@[simp] theorem reply_misoDraws : (reply kept s).misoDraws = s.misoDraws := rfl
@[simp] theorem reply_schedule : (reply kept s).schedule = s.schedule := rfl
@[simp] theorem reply_turnDraws : (reply kept s).turnDraws = s.turnDraws := rfl
@[simp] theorem reply_seqReplies : (reply kept s).seqReplies = s.seqReplies ++ [kept] := rfl

end reply

section fifoAdvance
variable (s : State)

@[simp] theorem fifoAdvance_fifoBuf : (fifoAdvance s).fifoBuf = s.fifoBuf := rfl
@[simp] theorem fifoAdvance_fifoHead : (fifoAdvance s).fifoHead = (s.fifoHead + 1) % s.cfg.fifoN := rfl
@[simp] theorem fifoAdvance_fifoTail : (fifoAdvance s).fifoTail = s.fifoTail := rfl
@[simp] theorem fifoAdvance_fifoSize : (fifoAdvance s).fifoSize = s.fifoSize - 1 := rfl
@[simp] theorem fifoAdvance_cbAttached : (fifoAdvance s).cbAttached = s.cbAttached := rfl
@[simp] theorem fifoAdvance_drainState : (fifoAdvance s).drainState = s.drainState := rfl
@[simp] theorem fifoAdvance_intPrev : (fifoAdvance s).intPrev = s.intPrev := rfl
@[simp] theorem fifoAdvance_edgeLatch : (fifoAdvance s).edgeLatch = s.edgeLatch := rfl
@[simp] theorem fifoAdvance_csN : (fifoAdvance s).csN = s.csN := rfl
@[simp] theorem fifoAdvance_busLog : (fifoAdvance s).busLog = s.busLog := rfl
@[simp] theorem fifoAdvance_cbLog : (fifoAdvance s).cbLog = s.cbLog := rfl
@[simp] theorem fifoAdvance_refused : (fifoAdvance s).refused = s.refused := rfl
@[simp] theorem fifoAdvance_rstN : (fifoAdvance s).rstN = s.rstN := rfl
@[simp] theorem fifoAdvance_cfg : (fifoAdvance s).cfg = s.cfg := rfl
@[simp] theorem fifoAdvance_requests : (fifoAdvance s).requests = s.requests := rfl
@[simp] theorem fifoAdvance_results : (fifoAdvance s).results = s.results := rfl
@[simp] theorem fifoAdvance_miso : (fifoAdvance s).miso = s.miso := rfl
@[simp] theorem fifoAdvance_misoDraws : (fifoAdvance s).misoDraws = s.misoDraws := rfl
@[simp] theorem fifoAdvance_schedule : (fifoAdvance s).schedule = s.schedule := rfl
@[simp] theorem fifoAdvance_turnDraws : (fifoAdvance s).turnDraws = s.turnDraws := rfl
@[simp] theorem fifoAdvance_seqReplies : (fifoAdvance s).seqReplies = s.seqReplies := rfl

end fifoAdvance

section fifoClear
variable (s : State)

@[simp] theorem fifoClear_fifoBuf : (fifoClear s).fifoBuf = s.fifoBuf := rfl
@[simp] theorem fifoClear_fifoHead : (fifoClear s).fifoHead = 0 := rfl
@[simp] theorem fifoClear_fifoTail : (fifoClear s).fifoTail = 0 := rfl
@[simp] theorem fifoClear_fifoSize : (fifoClear s).fifoSize = 0 := rfl
@[simp] theorem fifoClear_cbAttached : (fifoClear s).cbAttached = s.cbAttached := rfl
@[simp] theorem fifoClear_drainState : (fifoClear s).drainState = s.drainState := rfl
@[simp] theorem fifoClear_intPrev : (fifoClear s).intPrev = s.intPrev := rfl
@[simp] theorem fifoClear_edgeLatch : (fifoClear s).edgeLatch = s.edgeLatch := rfl
@[simp] theorem fifoClear_csN : (fifoClear s).csN = s.csN := rfl
@[simp] theorem fifoClear_busLog : (fifoClear s).busLog = s.busLog := rfl
@[simp] theorem fifoClear_cbLog : (fifoClear s).cbLog = s.cbLog := rfl
@[simp] theorem fifoClear_refused : (fifoClear s).refused = s.refused := rfl
@[simp] theorem fifoClear_rstN : (fifoClear s).rstN = s.rstN := rfl
@[simp] theorem fifoClear_cfg : (fifoClear s).cfg = s.cfg := rfl
@[simp] theorem fifoClear_requests : (fifoClear s).requests = s.requests := rfl
@[simp] theorem fifoClear_results : (fifoClear s).results = s.results := rfl
@[simp] theorem fifoClear_miso : (fifoClear s).miso = s.miso := rfl
@[simp] theorem fifoClear_misoDraws : (fifoClear s).misoDraws = s.misoDraws := rfl
@[simp] theorem fifoClear_schedule : (fifoClear s).schedule = s.schedule := rfl
@[simp] theorem fifoClear_turnDraws : (fifoClear s).turnDraws = s.turnDraws := rfl
@[simp] theorem fifoClear_seqReplies : (fifoClear s).seqReplies = s.seqReplies := rfl

end fifoClear

section drainEnter
variable (s : State)

@[simp] theorem drainEnter_fifoBuf : (drainEnter s).fifoBuf = s.fifoBuf := rfl
@[simp] theorem drainEnter_fifoHead : (drainEnter s).fifoHead = s.fifoHead := rfl
@[simp] theorem drainEnter_fifoTail : (drainEnter s).fifoTail = s.fifoTail := rfl
@[simp] theorem drainEnter_fifoSize : (drainEnter s).fifoSize = s.fifoSize := rfl
@[simp] theorem drainEnter_cbAttached : (drainEnter s).cbAttached = s.cbAttached := rfl
@[simp] theorem drainEnter_drainState : (drainEnter s).drainState = .draining := rfl
@[simp] theorem drainEnter_intPrev : (drainEnter s).intPrev = s.intPrev := rfl
@[simp] theorem drainEnter_edgeLatch : (drainEnter s).edgeLatch = if s.cfg.drainMode = .edge then false else s.edgeLatch := rfl
@[simp] theorem drainEnter_csN : (drainEnter s).csN = s.csN := rfl
@[simp] theorem drainEnter_busLog : (drainEnter s).busLog = s.busLog := rfl
@[simp] theorem drainEnter_cbLog : (drainEnter s).cbLog = s.cbLog := rfl
@[simp] theorem drainEnter_refused : (drainEnter s).refused = s.refused := rfl
@[simp] theorem drainEnter_rstN : (drainEnter s).rstN = s.rstN := rfl
@[simp] theorem drainEnter_cfg : (drainEnter s).cfg = s.cfg := rfl
@[simp] theorem drainEnter_requests : (drainEnter s).requests = s.requests := rfl
@[simp] theorem drainEnter_results : (drainEnter s).results = s.results := rfl
@[simp] theorem drainEnter_miso : (drainEnter s).miso = s.miso := rfl
@[simp] theorem drainEnter_misoDraws : (drainEnter s).misoDraws = s.misoDraws := rfl
@[simp] theorem drainEnter_schedule : (drainEnter s).schedule = s.schedule := rfl
@[simp] theorem drainEnter_turnDraws : (drainEnter s).turnDraws = s.turnDraws := rfl
@[simp] theorem drainEnter_seqReplies : (drainEnter s).seqReplies = s.seqReplies := rfl

end drainEnter

section drainReturn
variable (s : State)

@[simp] theorem drainReturn_fifoBuf : (drainReturn s).fifoBuf = s.fifoBuf := rfl
@[simp] theorem drainReturn_fifoHead : (drainReturn s).fifoHead = s.fifoHead := rfl
@[simp] theorem drainReturn_fifoTail : (drainReturn s).fifoTail = s.fifoTail := rfl
@[simp] theorem drainReturn_fifoSize : (drainReturn s).fifoSize = s.fifoSize := rfl
@[simp] theorem drainReturn_cbAttached : (drainReturn s).cbAttached = s.cbAttached := rfl
@[simp] theorem drainReturn_drainState : (drainReturn s).drainState = .idle := rfl
@[simp] theorem drainReturn_intPrev : (drainReturn s).intPrev = s.intPrev := rfl
@[simp] theorem drainReturn_edgeLatch : (drainReturn s).edgeLatch = s.edgeLatch := rfl
@[simp] theorem drainReturn_csN : (drainReturn s).csN = s.csN := rfl
@[simp] theorem drainReturn_busLog : (drainReturn s).busLog = s.busLog := rfl
@[simp] theorem drainReturn_cbLog : (drainReturn s).cbLog = s.cbLog := rfl
@[simp] theorem drainReturn_refused : (drainReturn s).refused = s.refused := rfl
@[simp] theorem drainReturn_rstN : (drainReturn s).rstN = s.rstN := rfl
@[simp] theorem drainReturn_cfg : (drainReturn s).cfg = s.cfg := rfl
@[simp] theorem drainReturn_requests : (drainReturn s).requests = s.requests := rfl
@[simp] theorem drainReturn_results : (drainReturn s).results = s.results := rfl
@[simp] theorem drainReturn_miso : (drainReturn s).miso = s.miso := rfl
@[simp] theorem drainReturn_misoDraws : (drainReturn s).misoDraws = s.misoDraws := rfl
@[simp] theorem drainReturn_schedule : (drainReturn s).schedule = s.schedule := rfl
@[simp] theorem drainReturn_turnDraws : (drainReturn s).turnDraws = s.turnDraws := rfl
@[simp] theorem drainReturn_seqReplies : (drainReturn s).seqReplies = s.seqReplies := rfl

end drainReturn

section envSetInt
variable (v : Level) (s : State)

@[simp] theorem envSetInt_fifoBuf : (envSetInt v s).fifoBuf = s.fifoBuf := rfl
@[simp] theorem envSetInt_fifoHead : (envSetInt v s).fifoHead = s.fifoHead := rfl
@[simp] theorem envSetInt_fifoTail : (envSetInt v s).fifoTail = s.fifoTail := rfl
@[simp] theorem envSetInt_fifoSize : (envSetInt v s).fifoSize = s.fifoSize := rfl
@[simp] theorem envSetInt_cbAttached : (envSetInt v s).cbAttached = s.cbAttached := rfl
@[simp] theorem envSetInt_drainState : (envSetInt v s).drainState = s.drainState := rfl
@[simp] theorem envSetInt_intPrev : (envSetInt v s).intPrev = v := rfl
@[simp] theorem envSetInt_edgeLatch : (envSetInt v s).edgeLatch = if s.cfg.drainMode = .edge ∧ s.intPrev = .high ∧ v = .low then true else s.edgeLatch := rfl
@[simp] theorem envSetInt_csN : (envSetInt v s).csN = s.csN := rfl
@[simp] theorem envSetInt_busLog : (envSetInt v s).busLog = s.busLog := rfl
@[simp] theorem envSetInt_cbLog : (envSetInt v s).cbLog = s.cbLog := rfl
@[simp] theorem envSetInt_refused : (envSetInt v s).refused = s.refused := rfl
@[simp] theorem envSetInt_rstN : (envSetInt v s).rstN = s.rstN := rfl
@[simp] theorem envSetInt_cfg : (envSetInt v s).cfg = s.cfg := rfl
@[simp] theorem envSetInt_requests : (envSetInt v s).requests = s.requests := rfl
@[simp] theorem envSetInt_results : (envSetInt v s).results = s.results := rfl
@[simp] theorem envSetInt_miso : (envSetInt v s).miso = s.miso := rfl
@[simp] theorem envSetInt_misoDraws : (envSetInt v s).misoDraws = s.misoDraws := rfl
@[simp] theorem envSetInt_schedule : (envSetInt v s).schedule = s.schedule := rfl
@[simp] theorem envSetInt_turnDraws : (envSetInt v s).turnDraws = s.turnDraws := rfl
@[simp] theorem envSetInt_seqReplies : (envSetInt v s).seqReplies = s.seqReplies := rfl

end envSetInt

section refuseRequest
variable (s : State)

@[simp] theorem refuseRequest_fifoBuf : (refuseRequest s).fifoBuf = s.fifoBuf := rfl
@[simp] theorem refuseRequest_fifoHead : (refuseRequest s).fifoHead = s.fifoHead := rfl
@[simp] theorem refuseRequest_fifoTail : (refuseRequest s).fifoTail = s.fifoTail := rfl
@[simp] theorem refuseRequest_fifoSize : (refuseRequest s).fifoSize = s.fifoSize := rfl
@[simp] theorem refuseRequest_cbAttached : (refuseRequest s).cbAttached = s.cbAttached := rfl
@[simp] theorem refuseRequest_drainState : (refuseRequest s).drainState = s.drainState := rfl
@[simp] theorem refuseRequest_intPrev : (refuseRequest s).intPrev = s.intPrev := rfl
@[simp] theorem refuseRequest_edgeLatch : (refuseRequest s).edgeLatch = s.edgeLatch := rfl
@[simp] theorem refuseRequest_csN : (refuseRequest s).csN = s.csN := rfl
@[simp] theorem refuseRequest_busLog : (refuseRequest s).busLog = s.busLog := rfl
@[simp] theorem refuseRequest_cbLog : (refuseRequest s).cbLog = s.cbLog := rfl
@[simp] theorem refuseRequest_refused : (refuseRequest s).refused = true := rfl
@[simp] theorem refuseRequest_rstN : (refuseRequest s).rstN = s.rstN := rfl
@[simp] theorem refuseRequest_cfg : (refuseRequest s).cfg = s.cfg := rfl
@[simp] theorem refuseRequest_requests : (refuseRequest s).requests = s.requests := rfl
@[simp] theorem refuseRequest_results : (refuseRequest s).results = s.results := rfl
@[simp] theorem refuseRequest_miso : (refuseRequest s).miso = s.miso := rfl
@[simp] theorem refuseRequest_misoDraws : (refuseRequest s).misoDraws = s.misoDraws := rfl
@[simp] theorem refuseRequest_schedule : (refuseRequest s).schedule = s.schedule := rfl
@[simp] theorem refuseRequest_turnDraws : (refuseRequest s).turnDraws = s.turnDraws := rfl
@[simp] theorem refuseRequest_seqReplies : (refuseRequest s).seqReplies = s.seqReplies := rfl

end refuseRequest

section blockReset
variable (s : State)

@[simp] theorem blockReset_fifoBuf : (blockReset s).fifoBuf = s.fifoBuf := rfl
@[simp] theorem blockReset_fifoHead : (blockReset s).fifoHead = 0 := rfl
@[simp] theorem blockReset_fifoTail : (blockReset s).fifoTail = 0 := rfl
@[simp] theorem blockReset_fifoSize : (blockReset s).fifoSize = 0 := rfl
@[simp] theorem blockReset_cbAttached : (blockReset s).cbAttached = false := rfl
@[simp] theorem blockReset_drainState : (blockReset s).drainState = .idle := rfl
@[simp] theorem blockReset_intPrev : (blockReset s).intPrev = .high := rfl
@[simp] theorem blockReset_edgeLatch : (blockReset s).edgeLatch = false := rfl
@[simp] theorem blockReset_csN : (blockReset s).csN = .high := rfl
@[simp] theorem blockReset_busLog : (blockReset s).busLog = [] := rfl
@[simp] theorem blockReset_cbLog : (blockReset s).cbLog = [] := rfl
@[simp] theorem blockReset_refused : (blockReset s).refused = false := rfl
@[simp] theorem blockReset_rstN : (blockReset s).rstN = s.rstN := rfl
@[simp] theorem blockReset_cfg : (blockReset s).cfg = s.cfg := rfl
@[simp] theorem blockReset_requests : (blockReset s).requests = s.requests := rfl
@[simp] theorem blockReset_results : (blockReset s).results = [] := rfl
@[simp] theorem blockReset_miso : (blockReset s).miso = s.miso := rfl
@[simp] theorem blockReset_misoDraws : (blockReset s).misoDraws = s.misoDraws := rfl
@[simp] theorem blockReset_schedule : (blockReset s).schedule = s.schedule := rfl
@[simp] theorem blockReset_turnDraws : (blockReset s).turnDraws = s.turnDraws := rfl
@[simp] theorem blockReset_seqReplies : (blockReset s).seqReplies = [] := rfl

end blockReset

section afterTxn
variable (s : State) (mosi : List Byte)

@[simp] theorem afterTxn_fifoBuf : (afterTxn s mosi).fifoBuf = s.fifoBuf := rfl
@[simp] theorem afterTxn_fifoHead : (afterTxn s mosi).fifoHead = s.fifoHead := rfl
@[simp] theorem afterTxn_fifoTail : (afterTxn s mosi).fifoTail = s.fifoTail := rfl
@[simp] theorem afterTxn_fifoSize : (afterTxn s mosi).fifoSize = s.fifoSize := rfl
@[simp] theorem afterTxn_cbAttached : (afterTxn s mosi).cbAttached = s.cbAttached := rfl
@[simp] theorem afterTxn_drainState : (afterTxn s mosi).drainState = s.drainState := rfl
@[simp] theorem afterTxn_intPrev : (afterTxn s mosi).intPrev = s.intPrev := rfl
@[simp] theorem afterTxn_edgeLatch : (afterTxn s mosi).edgeLatch = s.edgeLatch := rfl
@[simp] theorem afterTxn_csN : (afterTxn s mosi).csN = .high := rfl
@[simp] theorem afterTxn_busLog : (afterTxn s mosi).busLog = s.busLog ++ [.txn (exchanged s mosi)] := rfl
@[simp] theorem afterTxn_cbLog : (afterTxn s mosi).cbLog = s.cbLog := rfl
@[simp] theorem afterTxn_refused : (afterTxn s mosi).refused = s.refused := rfl
@[simp] theorem afterTxn_rstN : (afterTxn s mosi).rstN = s.rstN := rfl
@[simp] theorem afterTxn_cfg : (afterTxn s mosi).cfg = s.cfg := rfl
@[simp] theorem afterTxn_requests : (afterTxn s mosi).requests = s.requests := rfl
@[simp] theorem afterTxn_results : (afterTxn s mosi).results = s.results := rfl
@[simp] theorem afterTxn_miso : (afterTxn s mosi).miso = s.miso.drop mosi.length := rfl
@[simp] theorem afterTxn_misoDraws : (afterTxn s mosi).misoDraws = s.misoDraws + (mosi.length - s.miso.length) := rfl
@[simp] theorem afterTxn_schedule : (afterTxn s mosi).schedule = s.schedule := rfl
@[simp] theorem afterTxn_turnDraws : (afterTxn s mosi).turnDraws = s.turnDraws := rfl
@[simp] theorem afterTxn_seqReplies : (afterTxn s mosi).seqReplies = s.seqReplies := rfl

end afterTxn

section fifoStore
variable (f : Frame) (s : State)

@[simp] theorem fifoStore_fifoBuf : (fifoStore f s).fifoBuf = s.fifoBuf.set s.fifoTail (some f) := rfl
@[simp] theorem fifoStore_fifoHead : (fifoStore f s).fifoHead = s.fifoHead := rfl
@[simp] theorem fifoStore_fifoTail : (fifoStore f s).fifoTail = (s.fifoTail + 1) % s.cfg.fifoN := rfl
@[simp] theorem fifoStore_fifoSize : (fifoStore f s).fifoSize = s.fifoSize + 1 := rfl
@[simp] theorem fifoStore_cbAttached : (fifoStore f s).cbAttached = s.cbAttached := rfl
@[simp] theorem fifoStore_drainState : (fifoStore f s).drainState = s.drainState := rfl
@[simp] theorem fifoStore_intPrev : (fifoStore f s).intPrev = s.intPrev := rfl
@[simp] theorem fifoStore_edgeLatch : (fifoStore f s).edgeLatch = s.edgeLatch := rfl
@[simp] theorem fifoStore_csN : (fifoStore f s).csN = s.csN := rfl
@[simp] theorem fifoStore_busLog : (fifoStore f s).busLog = s.busLog := rfl
@[simp] theorem fifoStore_cbLog : (fifoStore f s).cbLog = s.cbLog := rfl
@[simp] theorem fifoStore_refused : (fifoStore f s).refused = s.refused := rfl
@[simp] theorem fifoStore_rstN : (fifoStore f s).rstN = s.rstN := rfl
@[simp] theorem fifoStore_cfg : (fifoStore f s).cfg = s.cfg := rfl
@[simp] theorem fifoStore_requests : (fifoStore f s).requests = s.requests := rfl
@[simp] theorem fifoStore_results : (fifoStore f s).results = s.results := rfl
@[simp] theorem fifoStore_miso : (fifoStore f s).miso = s.miso := rfl
@[simp] theorem fifoStore_misoDraws : (fifoStore f s).misoDraws = s.misoDraws := rfl
@[simp] theorem fifoStore_schedule : (fifoStore f s).schedule = s.schedule := rfl
@[simp] theorem fifoStore_turnDraws : (fifoStore f s).turnDraws = s.turnDraws := rfl
@[simp] theorem fifoStore_seqReplies : (fifoStore f s).seqReplies = s.seqReplies := rfl

end fifoStore

section setCallback
variable (attached : Bool) (s : State)

@[simp] theorem setCallback_fifoBuf : (setCallback attached s).fifoBuf = s.fifoBuf := rfl
@[simp] theorem setCallback_fifoHead : (setCallback attached s).fifoHead = s.fifoHead := rfl
@[simp] theorem setCallback_fifoTail : (setCallback attached s).fifoTail = s.fifoTail := rfl
@[simp] theorem setCallback_fifoSize : (setCallback attached s).fifoSize = s.fifoSize := rfl
@[simp] theorem setCallback_cbAttached : (setCallback attached s).cbAttached = attached := rfl
@[simp] theorem setCallback_drainState : (setCallback attached s).drainState = s.drainState := rfl
@[simp] theorem setCallback_intPrev : (setCallback attached s).intPrev = s.intPrev := rfl
@[simp] theorem setCallback_edgeLatch : (setCallback attached s).edgeLatch = s.edgeLatch := rfl
@[simp] theorem setCallback_csN : (setCallback attached s).csN = s.csN := rfl
@[simp] theorem setCallback_busLog : (setCallback attached s).busLog = s.busLog := rfl
@[simp] theorem setCallback_cbLog : (setCallback attached s).cbLog = s.cbLog := rfl
@[simp] theorem setCallback_refused : (setCallback attached s).refused = s.refused := rfl
@[simp] theorem setCallback_rstN : (setCallback attached s).rstN = s.rstN := rfl
@[simp] theorem setCallback_cfg : (setCallback attached s).cfg = s.cfg := rfl
@[simp] theorem setCallback_requests : (setCallback attached s).requests = s.requests := rfl
@[simp] theorem setCallback_results : (setCallback attached s).results = s.results := rfl
@[simp] theorem setCallback_miso : (setCallback attached s).miso = s.miso := rfl
@[simp] theorem setCallback_misoDraws : (setCallback attached s).misoDraws = s.misoDraws := rfl
@[simp] theorem setCallback_schedule : (setCallback attached s).schedule = s.schedule := rfl
@[simp] theorem setCallback_turnDraws : (setCallback attached s).turnDraws = s.turnDraws := rfl
@[simp] theorem setCallback_seqReplies : (setCallback attached s).seqReplies = s.seqReplies := rfl

end setCallback

section callbackDeliver
variable (f : Frame) (s : State)

@[simp] theorem callbackDeliver_fifoBuf : (callbackDeliver f s).fifoBuf = s.fifoBuf := rfl
@[simp] theorem callbackDeliver_fifoHead : (callbackDeliver f s).fifoHead = s.fifoHead := rfl
@[simp] theorem callbackDeliver_fifoTail : (callbackDeliver f s).fifoTail = s.fifoTail := rfl
@[simp] theorem callbackDeliver_fifoSize : (callbackDeliver f s).fifoSize = s.fifoSize := rfl
@[simp] theorem callbackDeliver_cbAttached : (callbackDeliver f s).cbAttached = s.cbAttached := rfl
@[simp] theorem callbackDeliver_drainState : (callbackDeliver f s).drainState = s.drainState := rfl
@[simp] theorem callbackDeliver_intPrev : (callbackDeliver f s).intPrev = s.intPrev := rfl
@[simp] theorem callbackDeliver_edgeLatch : (callbackDeliver f s).edgeLatch = s.edgeLatch := rfl
@[simp] theorem callbackDeliver_csN : (callbackDeliver f s).csN = s.csN := rfl
@[simp] theorem callbackDeliver_busLog : (callbackDeliver f s).busLog = s.busLog := rfl
@[simp] theorem callbackDeliver_cbLog : (callbackDeliver f s).cbLog = s.cbLog ++ [f] := rfl
@[simp] theorem callbackDeliver_refused : (callbackDeliver f s).refused = s.refused := rfl
@[simp] theorem callbackDeliver_rstN : (callbackDeliver f s).rstN = s.rstN := rfl
@[simp] theorem callbackDeliver_cfg : (callbackDeliver f s).cfg = s.cfg := rfl
@[simp] theorem callbackDeliver_requests : (callbackDeliver f s).requests = s.requests := rfl
@[simp] theorem callbackDeliver_results : (callbackDeliver f s).results = s.results := rfl
@[simp] theorem callbackDeliver_miso : (callbackDeliver f s).miso = s.miso := rfl
@[simp] theorem callbackDeliver_misoDraws : (callbackDeliver f s).misoDraws = s.misoDraws := rfl
@[simp] theorem callbackDeliver_schedule : (callbackDeliver f s).schedule = s.schedule := rfl
@[simp] theorem callbackDeliver_turnDraws : (callbackDeliver f s).turnDraws = s.turnDraws := rfl
@[simp] theorem callbackDeliver_seqReplies : (callbackDeliver f s).seqReplies = s.seqReplies := rfl

end callbackDeliver

section setRstN
variable (v : Level) (s : State)

@[simp] theorem setRstN_fifoBuf : (setRstN v s).fifoBuf = s.fifoBuf := rfl
@[simp] theorem setRstN_fifoHead : (setRstN v s).fifoHead = s.fifoHead := rfl
@[simp] theorem setRstN_fifoTail : (setRstN v s).fifoTail = s.fifoTail := rfl
@[simp] theorem setRstN_fifoSize : (setRstN v s).fifoSize = s.fifoSize := rfl
@[simp] theorem setRstN_cbAttached : (setRstN v s).cbAttached = s.cbAttached := rfl
@[simp] theorem setRstN_drainState : (setRstN v s).drainState = s.drainState := rfl
@[simp] theorem setRstN_intPrev : (setRstN v s).intPrev = s.intPrev := rfl
@[simp] theorem setRstN_edgeLatch : (setRstN v s).edgeLatch = s.edgeLatch := rfl
@[simp] theorem setRstN_csN : (setRstN v s).csN = s.csN := rfl
@[simp] theorem setRstN_busLog : (setRstN v s).busLog = s.busLog := rfl
@[simp] theorem setRstN_cbLog : (setRstN v s).cbLog = s.cbLog := rfl
@[simp] theorem setRstN_refused : (setRstN v s).refused = s.refused := rfl
@[simp] theorem setRstN_rstN : (setRstN v s).rstN = v := rfl
@[simp] theorem setRstN_cfg : (setRstN v s).cfg = s.cfg := rfl
@[simp] theorem setRstN_requests : (setRstN v s).requests = s.requests := rfl
@[simp] theorem setRstN_results : (setRstN v s).results = s.results := rfl
@[simp] theorem setRstN_miso : (setRstN v s).miso = s.miso := rfl
@[simp] theorem setRstN_misoDraws : (setRstN v s).misoDraws = s.misoDraws := rfl
@[simp] theorem setRstN_schedule : (setRstN v s).schedule = s.schedule := rfl
@[simp] theorem setRstN_turnDraws : (setRstN v s).turnDraws = s.turnDraws := rfl
@[simp] theorem setRstN_seqReplies : (setRstN v s).seqReplies = s.seqReplies := rfl

end setRstN

section withSchedule
variable (turns : List Turn) (s : State)

@[simp] theorem withSchedule_fifoBuf : (withSchedule turns s).fifoBuf = s.fifoBuf := rfl
@[simp] theorem withSchedule_fifoHead : (withSchedule turns s).fifoHead = s.fifoHead := rfl
@[simp] theorem withSchedule_fifoTail : (withSchedule turns s).fifoTail = s.fifoTail := rfl
@[simp] theorem withSchedule_fifoSize : (withSchedule turns s).fifoSize = s.fifoSize := rfl
@[simp] theorem withSchedule_cbAttached : (withSchedule turns s).cbAttached = s.cbAttached := rfl
@[simp] theorem withSchedule_drainState : (withSchedule turns s).drainState = s.drainState := rfl
@[simp] theorem withSchedule_intPrev : (withSchedule turns s).intPrev = s.intPrev := rfl
@[simp] theorem withSchedule_edgeLatch : (withSchedule turns s).edgeLatch = s.edgeLatch := rfl
@[simp] theorem withSchedule_csN : (withSchedule turns s).csN = s.csN := rfl
@[simp] theorem withSchedule_busLog : (withSchedule turns s).busLog = s.busLog := rfl
@[simp] theorem withSchedule_cbLog : (withSchedule turns s).cbLog = s.cbLog := rfl
@[simp] theorem withSchedule_refused : (withSchedule turns s).refused = s.refused := rfl
@[simp] theorem withSchedule_rstN : (withSchedule turns s).rstN = s.rstN := rfl
@[simp] theorem withSchedule_cfg : (withSchedule turns s).cfg = s.cfg := rfl
@[simp] theorem withSchedule_requests : (withSchedule turns s).requests = s.requests := rfl
@[simp] theorem withSchedule_results : (withSchedule turns s).results = s.results := rfl
@[simp] theorem withSchedule_miso : (withSchedule turns s).miso = s.miso := rfl
@[simp] theorem withSchedule_misoDraws : (withSchedule turns s).misoDraws = s.misoDraws := rfl
@[simp] theorem withSchedule_schedule : (withSchedule turns s).schedule = turns := rfl
@[simp] theorem withSchedule_turnDraws : (withSchedule turns s).turnDraws = s.turnDraws := rfl
@[simp] theorem withSchedule_seqReplies : (withSchedule turns s).seqReplies = s.seqReplies := rfl

end withSchedule

section withRequests
variable (rest : List Presented) (s : State)

@[simp] theorem withRequests_fifoBuf : (withRequests rest s).fifoBuf = s.fifoBuf := rfl
@[simp] theorem withRequests_fifoHead : (withRequests rest s).fifoHead = s.fifoHead := rfl
@[simp] theorem withRequests_fifoTail : (withRequests rest s).fifoTail = s.fifoTail := rfl
@[simp] theorem withRequests_fifoSize : (withRequests rest s).fifoSize = s.fifoSize := rfl
@[simp] theorem withRequests_cbAttached : (withRequests rest s).cbAttached = s.cbAttached := rfl
@[simp] theorem withRequests_drainState : (withRequests rest s).drainState = s.drainState := rfl
@[simp] theorem withRequests_intPrev : (withRequests rest s).intPrev = s.intPrev := rfl
@[simp] theorem withRequests_edgeLatch : (withRequests rest s).edgeLatch = s.edgeLatch := rfl
@[simp] theorem withRequests_csN : (withRequests rest s).csN = s.csN := rfl
@[simp] theorem withRequests_busLog : (withRequests rest s).busLog = s.busLog := rfl
@[simp] theorem withRequests_cbLog : (withRequests rest s).cbLog = s.cbLog := rfl
@[simp] theorem withRequests_refused : (withRequests rest s).refused = s.refused := rfl
@[simp] theorem withRequests_rstN : (withRequests rest s).rstN = s.rstN := rfl
@[simp] theorem withRequests_cfg : (withRequests rest s).cfg = s.cfg := rfl
@[simp] theorem withRequests_requests : (withRequests rest s).requests = rest := rfl
@[simp] theorem withRequests_results : (withRequests rest s).results = s.results := rfl
@[simp] theorem withRequests_miso : (withRequests rest s).miso = s.miso := rfl
@[simp] theorem withRequests_misoDraws : (withRequests rest s).misoDraws = s.misoDraws := rfl
@[simp] theorem withRequests_schedule : (withRequests rest s).schedule = s.schedule := rfl
@[simp] theorem withRequests_turnDraws : (withRequests rest s).turnDraws = s.turnDraws := rfl
@[simp] theorem withRequests_seqReplies : (withRequests rest s).seqReplies = s.seqReplies := rfl

end withRequests

section countFreeTurn
variable (s : State)

@[simp] theorem countFreeTurn_fifoBuf : (countFreeTurn s).fifoBuf = s.fifoBuf := rfl
@[simp] theorem countFreeTurn_fifoHead : (countFreeTurn s).fifoHead = s.fifoHead := rfl
@[simp] theorem countFreeTurn_fifoTail : (countFreeTurn s).fifoTail = s.fifoTail := rfl
@[simp] theorem countFreeTurn_fifoSize : (countFreeTurn s).fifoSize = s.fifoSize := rfl
@[simp] theorem countFreeTurn_cbAttached : (countFreeTurn s).cbAttached = s.cbAttached := rfl
@[simp] theorem countFreeTurn_drainState : (countFreeTurn s).drainState = s.drainState := rfl
@[simp] theorem countFreeTurn_intPrev : (countFreeTurn s).intPrev = s.intPrev := rfl
@[simp] theorem countFreeTurn_edgeLatch : (countFreeTurn s).edgeLatch = s.edgeLatch := rfl
@[simp] theorem countFreeTurn_csN : (countFreeTurn s).csN = s.csN := rfl
@[simp] theorem countFreeTurn_busLog : (countFreeTurn s).busLog = s.busLog := rfl
@[simp] theorem countFreeTurn_cbLog : (countFreeTurn s).cbLog = s.cbLog := rfl
@[simp] theorem countFreeTurn_refused : (countFreeTurn s).refused = s.refused := rfl
@[simp] theorem countFreeTurn_rstN : (countFreeTurn s).rstN = s.rstN := rfl
@[simp] theorem countFreeTurn_cfg : (countFreeTurn s).cfg = s.cfg := rfl
@[simp] theorem countFreeTurn_requests : (countFreeTurn s).requests = s.requests := rfl
@[simp] theorem countFreeTurn_results : (countFreeTurn s).results = s.results := rfl
@[simp] theorem countFreeTurn_miso : (countFreeTurn s).miso = s.miso := rfl
@[simp] theorem countFreeTurn_misoDraws : (countFreeTurn s).misoDraws = s.misoDraws := rfl
@[simp] theorem countFreeTurn_schedule : (countFreeTurn s).schedule = s.schedule := rfl
@[simp] theorem countFreeTurn_turnDraws : (countFreeTurn s).turnDraws = s.turnDraws + 1 := rfl
@[simp] theorem countFreeTurn_seqReplies : (countFreeTurn s).seqReplies = s.seqReplies := rfl

end countFreeTurn

end Sys2Proof.Machine
end

