-- ==== Sys2Proof/Laws/Ops.lean ====
section
/-! SUPPORT. One spec lemma per shared operation: what it returns, in closed form over `answer` and `afterTxn`. -/

namespace Sys2Proof.Machine

/-! ### The chip's answers -/

theorem answer_congr {s t : State} (hm : s.miso = t.miso) (hd : s.misoDraws = t.misoDraws) (k : Nat) :
    answer s k = answer t k := by
  simp [answer, hm, hd]

@[simp] theorem answer_txnBegin (s : State) (k : Nat) : answer (txnBegin s) k = answer s k := rfl
@[simp] theorem answer_txnEnd (bytes : List Exchange) (s : State) (k : Nat) :
    answer (txnEnd bytes s) k = answer s k := rfl
@[simp] theorem answer_delay (s : State) (k : Nat) : answer (delay s) k = answer s k := rfl
@[simp] theorem answer_deliver (r : HostResult) (s : State) (k : Nat) : answer (deliver r s) k = answer s k := rfl
@[simp] theorem answer_withSchedule (turns : List Turn) (s : State) (k : Nat) :
    answer (withSchedule turns s) k = answer s k := rfl
@[simp] theorem answer_withRequests (rest : List Presented) (s : State) (k : Nat) :
    answer (withRequests rest s) k = answer s k := rfl
@[simp] theorem answer_countFreeTurn (s : State) (k : Nat) : answer (countFreeTurn s) k = answer s k := rfl
@[simp] theorem answer_drainEnter (s : State) (k : Nat) : answer (drainEnter s) k = answer s k := rfl
@[simp] theorem answer_drainReturn (s : State) (k : Nat) : answer (drainReturn s) k = answer s k := rfl
@[simp] theorem answer_fifoClear (s : State) (k : Nat) : answer (fifoClear s) k = answer s k := rfl

@[simp] theorem answer_drawn (s : State) (n k : Nat) : answer (drawn s n) k = answer s (n + k) := by
  simp only [answer, drawn_miso, drawn_misoDraws, List.getElem?_drop, List.length_drop]
  cases h : s.miso[n + k]? with
  | some r => rfl
  | none =>
    have hk : s.miso.length ≤ n + k := by simpa using h
    have : s.misoDraws + (n - s.miso.length) + (k - (s.miso.length - n)) =
        s.misoDraws + (n + k - s.miso.length) := by omega
    exact congrArg Config.freeMiso this

@[simp] theorem answer_afterTxn (s : State) (mosi : List Byte) (k : Nat) :
    answer (afterTxn s mosi) k = answer s (mosi.length + k) :=
  answer_drawn s mosi.length k

theorem drawn_drawn (s : State) (m n : Nat) : drawn (drawn s m) n = drawn s (m + n) := by
  simp only [drawn, List.drop_drop, List.length_drop, State.mk.injEq, and_true, true_and]
  omega

theorem drawn_zero (s : State) : drawn s 0 = s := by
  simp [drawn]

/-- Written-down answers are what the chip answers. -/
theorem answer_of_miso {s : State} {k : Nat} {r : Byte} (h : s.miso[k]? = some r) : answer s k = r := by
  simp [answer, h]

/-! ### Exchanges -/

@[simp] theorem length_exchanged (s : State) (mosi : List Byte) : (exchanged s mosi).length = mosi.length := by
  simp [exchanged]

@[simp] theorem exchanged_txnBegin (s : State) (mosi : List Byte) :
    exchanged (txnBegin s) mosi = exchanged s mosi := rfl

theorem getElem?_exchanged (s : State) (mosi : List Byte) (k : Nat) :
    (exchanged s mosi)[k]? = mosi[k]?.map fun b => { mosi := b, miso := answer s k } := by
  simp only [exchanged, List.getElem?_zipWith, List.getElem?_map]
  by_cases h : k < mosi.length
  · simp [h]
  · simp [List.getElem?_eq_none (not_lt.mp h)]

theorem exchanged_cons (s : State) (b : Byte) (bs : List Byte) :
    exchanged s (b :: bs) = { mosi := b, miso := answer s 0 } :: exchanged (drawn s 1) bs := by
  refine List.ext_getElem? fun k => ?_
  cases k with
  | zero => rw [getElem?_exchanged]; rfl
  | succ k => simp [getElem?_exchanged, Nat.add_comm]

@[simp] theorem exchanged_nil (s : State) : exchanged s [] = [] := rfl

theorem exchanged_append (s : State) (as bs : List Byte) :
    exchanged s (as ++ bs) = exchanged s as ++ exchanged (drawn s as.length) bs := by
  induction as generalizing s with
  | nil => simp [drawn_zero]
  | cons a as ih => simp [exchanged_cons, ih, drawn_drawn, Nat.add_comm]

@[simp] theorem map_mosi_exchanged (s : State) (mosi : List Byte) :
    (exchanged s mosi).map Exchange.mosi = mosi := by
  apply List.ext_getElem?
  intro k
  simp [getElem?_exchanged, Function.comp_def]

@[simp] theorem map_miso_exchanged (s : State) (mosi : List Byte) :
    (exchanged s mosi).map Exchange.miso = (List.range mosi.length).map (answer s) := by
  apply List.ext_getElem?
  intro k
  simp only [List.getElem?_map, getElem?_exchanged]
  by_cases h : k < mosi.length
  · simp [h]
  · simp [List.getElem?_eq_none (not_lt.mp h), List.getElem?_eq_none (l := List.range mosi.length) (by simpa using h)]

theorem misoAt_exchanged {s : State} {mosi : List Byte} {k : Nat} (h : k < mosi.length) :
    misoAt (exchanged s mosi) k = answer s k := by
  rw [misoAt, getElem?_exchanged, List.getElem?_eq_getElem h]
  rfl

/-! ### Transactions -/

theorem xfers_eq (bs : List Byte) (s : State) : xfers bs s = (exchanged s bs, drawn s bs.length) := by
  induction bs generalizing s with
  | nil => simp [xfers, drawn_zero]
  | cons b bs ih => simp [xfers, xfer, ih, exchanged_cons, drawn_drawn, Nat.add_comm]

/-- A transaction whose bytes are known makes exactly the change `afterTxn` says. -/
theorem transact_eq (mosi : List Byte) (s : State) : transact mosi s = (exchanged s mosi, afterTxn s mosi) := by
  simp only [transact, xfers_eq, exchanged_txnBegin]
  rfl

theorem tReset_eq (s : State) : tReset s = (answer s 0, afterTxn s [0xC0]) := by
  simp [tReset, transact_eq, misoAt_exchanged]

theorem tRead_eq (addr : Byte) (s : State) :
    tRead addr s = (answer s 2, afterTxn s [0x03, addr, s.cfg.dummyByte]) := by
  simp [tRead, transact_eq, misoAt_exchanged]

theorem tWrite_eq (addr value : Byte) (s : State) : tWrite addr value s = afterTxn s [0x02, addr, value] := by
  simp [tWrite, transact_eq]

theorem tModify_eq (addr mask value : Byte) (s : State) :
    tModify addr mask value s = afterTxn s [0x05, addr, mask, value] := by
  simp [tModify, transact_eq]

theorem tReadStatus_eq (s : State) : tReadStatus s = (answer s 1, afterTxn s [0xA0, s.cfg.dummyByte]) := by
  simp [tReadStatus, transact_eq, misoAt_exchanged]

theorem tRxStatus_eq (s : State) : tRxStatus s = (answer s 1, afterTxn s [0xB0, s.cfg.dummyByte]) := by
  simp [tRxStatus, transact_eq, misoAt_exchanged]

theorem tLoadTx_eq (n : TxBuffer) (sidh sidl dlc : Byte) (payload : List Byte) (s : State) :
    tLoadTx n sidh sidl dlc payload s =
      afterTxn s (loadTxBytes (loadTxCommand n) sidh sidl dlc (payload.take dlc.toNat)) := by
  simp [tLoadTx, transact_eq, loadTxBytes]

theorem tRts_eq (n : TxBuffer) (s : State) : tRts n s = afterTxn s [rtsCommand n] := by
  simp [tRts, transact_eq]

/-- What READ_RX returns and leaves: the header answers, and as many payload answers as the DLC asks for. -/
theorem tReadRx_eq (b : RxBuffer) (s : State) :
    tReadRx b s =
      ({ sidh := answer s 1, sidl := answer s 2, eid8 := answer s 3, eid0 := answer s 4, dlc := answer s 5,
         payload := (List.range (rxPayloadLen (answer s 5))).map fun k => answer s (6 + k) },
       afterTxn s (readRxMosi s b)) := by
  have hd : readRxMosi s b =
      [readRxCommand b, s.cfg.dummyByte, s.cfg.dummyByte, s.cfg.dummyByte, s.cfg.dummyByte, s.cfg.dummyByte] ++
        List.replicate (rxPayloadLen (answer s 5)) s.cfg.dummyByte := by
    simp [readRxMosi, List.replicate_add, List.replicate_succ]
  simp only [tReadRx, xfers_eq, exchanged_txnBegin]
  have h5 : misoAt (exchanged s [readRxCommand b, s.cfg.dummyByte, s.cfg.dummyByte, s.cfg.dummyByte,
      s.cfg.dummyByte, s.cfg.dummyByte]) 5 = answer s 5 := misoAt_exchanged (by simp)
  simp only [h5]
  refine Prod.ext ?_ ?_
  · simp [misoAt_exchanged]
  · have hx : ∀ n bs, exchanged (drawn (txnBegin s) n) bs = exchanged (drawn s n) bs := fun _ _ => rfl
    rw [hd, drawn_drawn, hx, afterTxn, exchanged_append, List.length_append]
    rfl

/-! ### Composite operations -/

theorem recv_none {channel : Byte} (h : resolveRx channel = none) (s : State) :
    recv channel s = ({ code := .fail, value := none, frame := .absent }, s) := by
  simp [recv, h]

/-- recv on a valid channel: READ_RX, then the MODIFY that clears the flag. -/
theorem recv_some {channel : Byte} {b : RxBuffer} (h : resolveRx channel = some b) (s : State) :
    recv channel s =
      (okFrame (frameAnswered s),
       afterTxn (afterTxn s (readRxMosi s b)) [0x05, addrCanintf, rxClearMask s.cfg b, 0x00]) := by
  simp [recv, h, tReadRx_eq, tModify_eq, decodeFrame, frameAnswered]

theorem availBits_rxStatus {c : Config} (h : c.availSource = .rxStatus) (status : Byte) :
    availBits c status = availOfRxStatus status := by
  simp [availBits, h]

theorem availBits_readStatus {c : Config} (h : c.availSource = .readStatus) (status : Byte) :
    availBits c status = availOfReadStatus status := by
  simp [availBits, h]

theorem availQuery_eq (s : State) : availQuery s = (availAnswered s, afterTxn s (availMosi s)) := by
  unfold availQuery availAnswered availBits availMosi
  cases s.cfg.availSource <;> simp [tRxStatus_eq, tReadStatus_eq]

theorem setBitrateBody_none {khz : BitVec 32} (h : timing khz = none) (s : State) :
    setBitrateBody khz s = (.fail, s) := by
  simp [setBitrateBody, h]

theorem setBitrateBody_some {khz : BitVec 32} {c1 c2 c3 : Byte} (h : timing khz = some (c1, c2, c3)) (s : State) :
    setBitrateBody khz s =
      (.ok, afterTxns s [[0x02, addrCnf1, c1], [0x02, addrCnf2, c2], [0x02, addrCnf3, c3]]) := by
  simp [setBitrateBody, h, tWrite_eq, afterTxns]

theorem writePair_eq (base : Byte) (id : BitVec 16) (s : State) :
    writePair base id s = afterTxns s [[0x02, base, (packId id).1], [0x02, base + 1, (packId id).2]] := by
  simp [writePair, tWrite_eq, afterTxns]

@[simp] theorem afterTxns_nil (s : State) : afterTxns s [] = s := rfl
@[simp] theorem afterTxns_cons (s : State) (t : List Byte) (ts : List (List Byte)) :
    afterTxns s (t :: ts) = afterTxns (afterTxn s t) ts := rfl

theorem afterTxns_append (s : State) (as bs : List (List Byte)) :
    afterTxns s (as ++ bs) = afterTxns (afterTxns s as) bs := by
  simp [afterTxns]

/-! ### The ring buffer -/

@[simp] theorem fifoPush_cfg (f : Frame) (s : State) : (fifoPush f s).cfg = s.cfg := by
  unfold fifoPush; split <;> rfl

theorem fifoPush_full {s : State} (h : s.fifoSize = s.cfg.fifoN) (f : Frame) : fifoPush f s = s := by
  simp [fifoPush, h]

theorem fifoPush_room {s : State} (h : s.fifoSize ≠ s.cfg.fifoN) (f : Frame) :
    fifoPush f s = fifoStore f s := by
  simp [fifoPush, h]

/-- The storage keeps its form: FIFO_N entries. -/
theorem fifoPush_bufOk {s : State} (h : FifoBufOk s) (f : Frame) : FifoBufOk (fifoPush f s) := by
  unfold fifoPush
  split
  · exact h
  · simpa [FifoBufOk] using h

theorem fifoSlot_set {s : State} {i j : Nat} (h : i < s.fifoBuf.length) (f : Option Frame) :
    fifoSlot { s with fifoBuf := s.fifoBuf.set i f } j = if i = j then f else fifoSlot s j := by
  unfold fifoSlot
  by_cases hij : i = j
  · subst hij; simp [h]
  · simp [hij]

theorem length_fifoWindow (s : State) : (fifoWindow s).length = s.fifoSize := by
  simp [fifoWindow]

/-- Two places of the window below FIFO_N are the same slot only if they are the same place. -/
theorem window_index_inj {h a b n : Nat} (ha : a < n) (hb : b < n) (he : (h + a) % n = (h + b) % n) : a = b := by
  have h1 : (h + a) % n = (h + b) % n := he
  have := Nat.ModEq.add_left_cancel' h (show h + a ≡ h + b [MOD n] from h1)
  rw [Nat.ModEq, Nat.mod_eq_of_lt ha, Nat.mod_eq_of_lt hb] at this
  exact this

/-! ### Delivery -/

/-! A push changes only `fifo_buf`, the tail and the size; delivery also the callback log. -/

section fifoPush
variable (f : Frame) (s : State)

@[simp] theorem fifoPush_cbLog : (fifoPush f s).cbLog = s.cbLog := by
  unfold fifoPush; split <;> rfl
@[simp] theorem fifoPush_fifoHead : (fifoPush f s).fifoHead = s.fifoHead := by
  unfold fifoPush; split <;> rfl
@[simp] theorem fifoPush_cbAttached : (fifoPush f s).cbAttached = s.cbAttached := by
  unfold fifoPush; split <;> rfl
@[simp] theorem fifoPush_drainState : (fifoPush f s).drainState = s.drainState := by
  unfold fifoPush; split <;> rfl
@[simp] theorem fifoPush_intPrev : (fifoPush f s).intPrev = s.intPrev := by
  unfold fifoPush; split <;> rfl
@[simp] theorem fifoPush_edgeLatch : (fifoPush f s).edgeLatch = s.edgeLatch := by
  unfold fifoPush; split <;> rfl
@[simp] theorem fifoPush_csN : (fifoPush f s).csN = s.csN := by
  unfold fifoPush; split <;> rfl
@[simp] theorem fifoPush_busLog : (fifoPush f s).busLog = s.busLog := by
  unfold fifoPush; split <;> rfl
@[simp] theorem fifoPush_refused : (fifoPush f s).refused = s.refused := by
  unfold fifoPush; split <;> rfl
@[simp] theorem fifoPush_rstN : (fifoPush f s).rstN = s.rstN := by
  unfold fifoPush; split <;> rfl
@[simp] theorem fifoPush_requests : (fifoPush f s).requests = s.requests := by
  unfold fifoPush; split <;> rfl
@[simp] theorem fifoPush_results : (fifoPush f s).results = s.results := by
  unfold fifoPush; split <;> rfl
@[simp] theorem fifoPush_miso : (fifoPush f s).miso = s.miso := by
  unfold fifoPush; split <;> rfl
@[simp] theorem fifoPush_misoDraws : (fifoPush f s).misoDraws = s.misoDraws := by
  unfold fifoPush; split <;> rfl
@[simp] theorem fifoPush_schedule : (fifoPush f s).schedule = s.schedule := by
  unfold fifoPush; split <;> rfl
@[simp] theorem fifoPush_turnDraws : (fifoPush f s).turnDraws = s.turnDraws := by
  unfold fifoPush; split <;> rfl
@[simp] theorem fifoPush_seqReplies : (fifoPush f s).seqReplies = s.seqReplies := by
  unfold fifoPush; split <;> rfl

end fifoPush

section route
variable (f : Frame) (s : State)

@[simp] theorem route_fifoHead : (route f s).fifoHead = s.fifoHead := by
  unfold route; split <;> simp
@[simp] theorem route_cbAttached : (route f s).cbAttached = s.cbAttached := by
  unfold route; split <;> simp
@[simp] theorem route_drainState : (route f s).drainState = s.drainState := by
  unfold route; split <;> simp
@[simp] theorem route_intPrev : (route f s).intPrev = s.intPrev := by
  unfold route; split <;> simp
@[simp] theorem route_edgeLatch : (route f s).edgeLatch = s.edgeLatch := by
  unfold route; split <;> simp
@[simp] theorem route_csN : (route f s).csN = s.csN := by
  unfold route; split <;> simp
@[simp] theorem route_busLog : (route f s).busLog = s.busLog := by
  unfold route; split <;> simp
@[simp] theorem route_refused : (route f s).refused = s.refused := by
  unfold route; split <;> simp
@[simp] theorem route_rstN : (route f s).rstN = s.rstN := by
  unfold route; split <;> simp
@[simp] theorem route_cfg : (route f s).cfg = s.cfg := by
  unfold route; split <;> simp
@[simp] theorem route_requests : (route f s).requests = s.requests := by
  unfold route; split <;> simp
@[simp] theorem route_results : (route f s).results = s.results := by
  unfold route; split <;> simp
@[simp] theorem route_miso : (route f s).miso = s.miso := by
  unfold route; split <;> simp
@[simp] theorem route_misoDraws : (route f s).misoDraws = s.misoDraws := by
  unfold route; split <;> simp
@[simp] theorem route_schedule : (route f s).schedule = s.schedule := by
  unfold route; split <;> simp
@[simp] theorem route_turnDraws : (route f s).turnDraws = s.turnDraws := by
  unfold route; split <;> simp
@[simp] theorem route_seqReplies : (route f s).seqReplies = s.seqReplies := by
  unfold route; split <;> simp

end route

theorem route_attached {s : State} (h : s.cbAttached = true) (f : Frame) :
    route f s = callbackDeliver f s := by
  simp [route, h]

theorem route_detached {s : State} (h : s.cbAttached = false) (f : Frame) : route f s = fifoPush f s := by
  simp [route, h]

theorem resolveRx_selectChannel (a : BitVec 2) :
    resolveRx (selectChannel a) = some (if a = 2#2 then .b1 else .b0) := by
  unfold selectChannel
  split <;> rfl

/-- A drain iteration whose query finds nothing: the query, then IDLE. -/
theorem drainIter_none {s : State} (h : availAnswered s = 0#2) :
    drainIter s = drainReturn (afterTxn s (availMosi s)) := by
  simp [drainIter, availQuery_eq, h]

/-- A drain iteration whose query finds a channel: query, receive, route. -/
theorem drainIter_some {s : State} {b : RxBuffer} (h : availAnswered s ≠ 0#2)
    (hb : (if availAnswered s = 2#2 then RxBuffer.b1 else .b0) = b) :
    drainIter s =
      route (frameAnswered (afterTxn s (availMosi s)))
        (afterTxn (afterTxn (afterTxn s (availMosi s)) (readRxMosi (afterTxn s (availMosi s)) b))
          [0x05, addrCanintf, rxClearMask s.cfg b, 0x00]) := by
  subst hb
  simp [drainIter, availQuery_eq, h, recv_some (resolveRx_selectChannel (availAnswered s)), okFrame]

/-! ### Enabling -/

theorem drainStartEnabled_iff (s : State) : drainStartEnabled s = true ↔ DrainMayStart s := by
  unfold drainStartEnabled
  cases h : s.cfg.drainMode <;> simp [h, DrainMayStart, and_assoc]

theorem hostEnabled_iff (s : State) : hostEnabled s = true ↔ HostMayStep s := by
  unfold hostEnabled drainStartEnabled
  cases h : s.cfg.drainMode <;> cases hl : s.intPrev <;> cases hr : s.rstN <;> cases hd : s.drainState <;>
    simp [h, hl, hr, hd, HostMayStep]

theorem step_ok {s : State} (h : s.cfg.wellFormed = true) : step s = takeTurn (nextTurn s).1 (nextTurn s).2 := by
  simp [step, h]

theorem nextTurn_cons {s : State} {t : Turn} {rest : List Turn} (h : s.schedule = t :: rest) :
    nextTurn s = (t, withSchedule rest s) := by
  simp [nextTurn, h]

end Sys2Proof.Machine
end

