-- ==== Sys2Proof/Laws/Runs.lean ====
section
/-! SUPPORT. What the bus side of any operation does, said once: it adds legal events to the log, and takes the
chip's answers in order (spec R58, R71, R109). -/

namespace Sys2Proof.Machine

/-- From `s`, the events `es` were added to the log and the chip's next answers, as many as they hold, drawn. -/
structure BusRun (s t : State) (es : List Event) : Prop where
  log : t.busLog = s.busLog ++ es
  answers : misoOf es = (List.range (misoOf es).length).map (answer s)
  miso : t.miso = s.miso.drop (misoOf es).length
  draws : t.misoDraws = s.misoDraws + ((misoOf es).length - s.miso.length)
  legal : LogLegal s.cfg.dummyByte es
  cfg : t.cfg = s.cfg

theorem misoOf_append (as bs : List Event) : misoOf (as ++ bs) = misoOf as ++ misoOf bs := by
  induction as with
  | nil => rfl
  | cons a as ih => cases a <;> simp [misoOf, ih]

theorem mosiOf_append (as bs : List Event) : mosiOf (as ++ bs) = mosiOf as ++ mosiOf bs := by
  induction as with
  | nil => rfl
  | cons a as ih => cases a <;> simp [mosiOf, ih]

theorem logLegal_append {d : Byte} {as bs : List Event} (ha : LogLegal d as) (hb : LogLegal d bs) :
    LogLegal d (as ++ bs) := by
  intro bytes h
  rcases List.mem_append.mp h with h | h
  · exact ha bytes h
  · exact hb bytes h

/-- After a run, the chip's answers go on where the run stopped. -/
theorem BusRun.answer_eq {s t : State} {es : List Event} (h : BusRun s t es) (k : Nat) :
    answer t k = answer s ((misoOf es).length + k) := by
  have : answer t k = answer (drawn s (misoOf es).length) k := answer_congr h.miso h.draws k
  rw [this, answer_drawn]

theorem BusRun.trans {s t u : State} {as bs : List Event} (h : BusRun s t as) (h' : BusRun t u bs) :
    BusRun s u (as ++ bs) where
  log := by rw [h'.log, h.log, List.append_assoc]
  answers := by
    have hb : misoOf bs = (List.range (misoOf bs).length).map fun k => answer s ((misoOf as).length + k) := by
      calc misoOf bs = (List.range (misoOf bs).length).map (answer t) := h'.answers
        _ = _ := by simp [h.answer_eq]
    rw [misoOf_append, List.length_append, List.range_add, List.map_append, List.map_map]
    exact congrArg₂ (· ++ ·) h.answers hb
  miso := by rw [h'.miso, h.miso, List.drop_drop, misoOf_append, List.length_append]
  draws := by
    rw [h'.draws, h.draws, h.miso, misoOf_append, List.length_append, List.length_drop]
    omega
  legal := logLegal_append h.legal (h.cfg ▸ h'.legal)
  cfg := h'.cfg.trans h.cfg

/-- A change that leaves the log, the answers and the parameters alone. -/
theorem BusRun.quiet {s t : State} (hl : t.busLog = s.busLog) (hm : t.miso = s.miso)
    (hd : t.misoDraws = s.misoDraws) (hc : t.cfg = s.cfg) : BusRun s t [] where
  log := by simp [hl]
  answers := rfl
  miso := by simp [hm, misoOf]
  draws := by simp [hd, misoOf]
  legal := by intro bytes h; cases h
  cfg := hc

theorem BusRun.refl (s : State) : BusRun s s [] :=
  .quiet rfl rfl rfl rfl

theorem BusRun.delay (s : State) : BusRun s (delay s) [.delay s.cfg.resetDelay] where
  log := rfl
  answers := rfl
  miso := rfl
  draws := by simp [misoOf]
  legal := by intro bytes h; cases h with | tail _ h => cases h
  cfg := rfl

theorem BusRun.txn {s : State} {mosi : List Byte} (h : TxnLegal s.cfg.dummyByte (exchanged s mosi)) :
    BusRun s (afterTxn s mosi) [.txn (exchanged s mosi)] where
  log := rfl
  answers := by simp [misoOf]
  miso := by simp [misoOf]
  draws := by simp [misoOf]
  legal := by
    intro bytes hb
    have : bytes = exchanged s mosi := by simpa using hb
    exact this ▸ h
  cfg := rfl

/-- A transaction whose bytes are those presented for a command is legal. -/
theorem txnLegal_of_encode {s : State} {i : Instr} {mosi : List Byte} (hc : isBusCommand i = true)
    (hw : i.wellFormed = true) (he : encode s.cfg.dummyByte i = .command mosi)
    (hp : ∀ miso, payloadDummies s.cfg.dummyByte i miso = []) : TxnLegal s.cfg.dummyByte (exchanged s mosi) :=
  ⟨i, mosi, hc, hw, he, by simp [hp]⟩

theorem txnLegal_reset (s : State) : TxnLegal s.cfg.dummyByte (exchanged s [0xC0]) :=
  txnLegal_of_encode (i := .reset) rfl rfl rfl fun _ => rfl

theorem txnLegal_read (s : State) (addr : Byte) :
    TxnLegal s.cfg.dummyByte (exchanged s [0x03, addr, s.cfg.dummyByte]) :=
  txnLegal_of_encode (i := .read addr) rfl rfl rfl fun _ => rfl

theorem txnLegal_write (s : State) (addr value : Byte) :
    TxnLegal s.cfg.dummyByte (exchanged s [0x02, addr, value]) :=
  txnLegal_of_encode (i := .write addr value) rfl rfl rfl fun _ => rfl

theorem txnLegal_modify (s : State) (addr mask value : Byte) :
    TxnLegal s.cfg.dummyByte (exchanged s [0x05, addr, mask, value]) :=
  txnLegal_of_encode (i := .modify addr mask value) rfl rfl rfl fun _ => rfl

theorem txnLegal_readStatus (s : State) : TxnLegal s.cfg.dummyByte (exchanged s [0xA0, s.cfg.dummyByte]) :=
  txnLegal_of_encode (i := .readStatus) rfl rfl rfl fun _ => rfl

theorem txnLegal_rxStatus (s : State) : TxnLegal s.cfg.dummyByte (exchanged s [0xB0, s.cfg.dummyByte]) :=
  txnLegal_of_encode (i := .rxStatus) rfl rfl rfl fun _ => rfl

theorem txnLegal_loadTx (s : State) (n : TxBuffer) {sidh sidl dlc : Byte} {payload : List Byte}
    (h : loadTxOperandsOk dlc payload = true) :
    TxnLegal s.cfg.dummyByte (exchanged s (loadTxBytes (loadTxCommand n) sidh sidl dlc payload)) := by
  cases n
  · exact txnLegal_of_encode (i := .loadTx0 sidh sidl dlc payload) rfl h rfl fun _ => rfl
  · exact txnLegal_of_encode (i := .loadTx1 sidh sidl dlc payload) rfl h rfl fun _ => rfl
  · exact txnLegal_of_encode (i := .loadTx2 sidh sidl dlc payload) rfl h rfl fun _ => rfl

theorem txnLegal_rts (s : State) (n : TxBuffer) : TxnLegal s.cfg.dummyByte (exchanged s [rtsCommand n]) := by
  cases n
  · exact txnLegal_of_encode (i := .rts0) rfl rfl rfl fun _ => rfl
  · exact txnLegal_of_encode (i := .rts1) rfl rfl rfl fun _ => rfl
  · exact txnLegal_of_encode (i := .rts2) rfl rfl rfl fun _ => rfl

/-- READ_RX is legal because its length is the one its own DLC answer asks for (R75). -/
theorem txnLegal_readRx (s : State) (b : RxBuffer) :
    TxnLegal s.cfg.dummyByte (exchanged s (readRxMosi s b)) := by
  have hdlc : ((exchanged s (readRxMosi s b)).map Exchange.miso).getD 5 0 = answer s 5 := by
    simp [readRxMosi]
  cases b
  · refine ⟨.readRx0, _, rfl, rfl, rfl, ?_⟩
    simp only [payloadDummies, hdlc, map_mosi_exchanged]
    simp [readRxMosi, List.replicate_add, List.replicate_succ, readRxCommand, rxNumber]
  · refine ⟨.readRx1, _, rfl, rfl, rfl, ?_⟩
    simp only [payloadDummies, hdlc, map_mosi_exchanged]
    simp [readRxMosi, List.replicate_add, List.replicate_succ, readRxCommand, rxNumber]

end Sys2Proof.Machine
end

