-- ==== Sys2Proof/Laws/Exec.lean ====
section
/-! SUPPORT. The bus side of every instruction and of a drain iteration is a run of legal events. -/

namespace Sys2Proof.Machine

/-- Some legal run leads from `s` to `t`. -/
def Runs (s t : State) : Prop :=
  ∃ es, BusRun s t es

theorem Runs.refl (s : State) : Runs s s := ⟨_, .refl s⟩

theorem Runs.trans {s t u : State} : Runs s t → Runs t u → Runs s u
  | ⟨_, h⟩, ⟨_, h'⟩ => ⟨_, h.trans h'⟩

theorem Runs.quiet {s t u : State} (h : Runs s t) (hl : u.busLog = t.busLog) (hm : u.miso = t.miso)
    (hd : u.misoDraws = t.misoDraws) (hc : u.cfg = t.cfg) : Runs s u :=
  h.trans ⟨_, .quiet hl hm hd hc⟩

theorem Runs.deliver {s t : State} (r : HostResult) (h : Runs s t) : Runs s (deliver r t) :=
  h.quiet rfl rfl rfl rfl

theorem Runs.reply {s t : State} (kept : List Byte) (h : Runs s t) : Runs s (reply kept t) :=
  h.quiet rfl rfl rfl rfl

theorem Runs.delay {s t : State} (h : Runs s t) : Runs s (delay t) :=
  h.trans ⟨_, .delay t⟩

theorem runs_tReset (s : State) : Runs s (tReset s).2 := by
  rw [tReset_eq]
  exact ⟨_, .txn (txnLegal_reset s)⟩

theorem runs_tRead (addr : Byte) (s : State) : Runs s (tRead addr s).2 := by
  rw [tRead_eq]
  exact ⟨_, .txn (txnLegal_read s addr)⟩

theorem runs_tWrite (addr value : Byte) (s : State) : Runs s (tWrite addr value s) := by
  rw [tWrite_eq]
  exact ⟨_, .txn (txnLegal_write s addr value)⟩

theorem runs_tModify (addr mask value : Byte) (s : State) : Runs s (tModify addr mask value s) := by
  rw [tModify_eq]
  exact ⟨_, .txn (txnLegal_modify s addr mask value)⟩

theorem runs_tReadStatus (s : State) : Runs s (tReadStatus s).2 := by
  rw [tReadStatus_eq]
  exact ⟨_, .txn (txnLegal_readStatus s)⟩

theorem runs_tRxStatus (s : State) : Runs s (tRxStatus s).2 := by
  rw [tRxStatus_eq]
  exact ⟨_, .txn (txnLegal_rxStatus s)⟩

theorem runs_tLoadTx (n : TxBuffer) (sidh sidl : Byte) {dlc : Byte} {payload : List Byte}
    (h : loadTxOperandsOk dlc payload = true) (s : State) : Runs s (tLoadTx n sidh sidl dlc payload s) := by
  have ht : payload.take dlc.toNat = payload := by
    simp only [loadTxOperandsOk, Bool.and_eq_true, decide_eq_true_eq] at h
    rw [← h.2, List.take_length]
  rw [tLoadTx_eq, ht]
  exact ⟨_, .txn (txnLegal_loadTx s n h)⟩

theorem runs_tRts (n : TxBuffer) (s : State) : Runs s (tRts n s) := by
  rw [tRts_eq]
  exact ⟨_, .txn (txnLegal_rts s n)⟩

theorem runs_tReadRx (b : RxBuffer) (s : State) : Runs s (tReadRx b s).2 := by
  rw [tReadRx_eq]
  exact ⟨_, .txn (txnLegal_readRx s b)⟩

theorem runs_recv (channel : Byte) (s : State) : Runs s (recv channel s).2 := by
  unfold recv
  split
  · exact .refl s
  · exact (runs_tReadRx _ s).trans (runs_tModify _ _ _ _)

theorem runs_availQuery (s : State) : Runs s (availQuery s).2 := by
  unfold availQuery
  split
  · exact runs_tRxStatus s
  · exact runs_tReadStatus s

theorem runs_setBitrateBody (khz : BitVec 32) (s : State) : Runs s (setBitrateBody khz s).2 := by
  unfold setBitrateBody
  split
  · exact .refl s
  · exact ((runs_tWrite _ _ _).trans (runs_tWrite _ _ _)).trans (runs_tWrite _ _ _)

theorem runs_writePair (base : Byte) (id : BitVec 16) (s : State) : Runs s (writePair base id s) :=
  (runs_tWrite _ _ _).trans (runs_tWrite _ _ _)

theorem clampLen_le (length : BitVec 8) : clampLen length ≤ 8 := by
  unfold clampLen maxLen
  omega

/-- What SEND loads is well formed: the DLC is the clamped length, and so many bytes follow. -/
theorem loadTxOperandsOk_send (length : BitVec 8) (data : Vector Byte 8) :
    loadTxOperandsOk (BitVec.ofNat 8 (clampLen length)) (data.toList.take (clampLen length)) = true := by
  have := clampLen_le length
  simp only [loadTxOperandsOk, maxLen, BitVec.toNat_ofNat, List.length_take, Vector.length_toList, Bool.and_eq_true,
    decide_eq_true_eq]
  omega

theorem runs_sendOnStatus (st : Byte) (id : BitVec 16) (length : BitVec 8) (data : Vector Byte 8) (s : State) :
    Runs s (sendOnStatus st id length data s) := by
  unfold sendOnStatus
  split
  · exact (Runs.refl s).deliver _
  · exact ((runs_tLoadTx _ _ _ (loadTxOperandsOk_send length data) s).trans (runs_tRts _ _)).deliver _

theorem runs_initReset (performReset : BitVec 1) (s : State) : Runs s (initReset performReset s) := by
  unfold initReset
  split
  · exact (runs_tReset s).delay
  · exact .refl s

/-- The bus side of any well-formed instruction that answers a next state. -/
theorem exec_runs {i : Instr} {s t : State} (hw : i.wellFormed = true) (h : exec i s = .next t) : Runs s t := by
  cases i with
  | fifoPop =>
    simp only [exec, execFifoPop] at h
    split at h
    · cases h; exact (Runs.refl s).deliver _
    · split at h
      · cases h; exact (Runs.refl s).quiet rfl rfl rfl rfl
      · cases h
  | reset => cases h; exact (runs_tReset s).reply _
  | read addr => cases h; exact (runs_tRead addr s).reply _
  | write addr value => cases h; exact (runs_tWrite addr value s).reply _
  | modify addr mask value => cases h; exact (runs_tModify addr mask value s).reply _
  | readStatus => cases h; exact (runs_tReadStatus s).reply _
  | rxStatus => cases h; exact (runs_tRxStatus s).reply _
  | loadTx0 sidh sidl dlc payload => cases h; exact (runs_tLoadTx .b0 sidh sidl hw s).reply _
  | loadTx1 sidh sidl dlc payload => cases h; exact (runs_tLoadTx .b1 sidh sidl hw s).reply _
  | loadTx2 sidh sidl dlc payload => cases h; exact (runs_tLoadTx .b2 sidh sidl hw s).reply _
  | rts0 => cases h; exact (runs_tRts .b0 s).reply _
  | rts1 => cases h; exact (runs_tRts .b1 s).reply _
  | rts2 => cases h; exact (runs_tRts .b2 s).reply _
  | readRx0 => cases h; exact (runs_tReadRx .b0 s).reply _
  | readRx1 => cases h; exact (runs_tReadRx .b1 s).reply _
  | initializeOp khz performReset =>
    cases h
    have h0 : Runs s (fifoClear s) := (Runs.refl s).quiet rfl rfl rfl rfl
    exact ((((h0.trans (runs_initReset performReset _)).trans (runs_setBitrateBody khz _)).trans
      (runs_tWrite _ _ _)).trans (runs_tModify _ _ _ _)).deliver _
  | setBitrate khz => cases h; exact (runs_setBitrateBody khz s).deliver _
  | availableChannels => cases h; exact (runs_availQuery s).deliver _
  | interruptPending => cases h; exact (Runs.refl s).deliver _
  | send id length data => cases h; exact (runs_tReadStatus s).trans (runs_sendOnStatus _ id length data _)
  | receive channel => cases h; exact (runs_recv channel s).deliver _
  | setFilter channel index id =>
    cases h
    split
    · exact (Runs.refl s).deliver _
    · exact (runs_writePair _ id s).deliver _
  | setMask channel id =>
    cases h
    split
    · exact (Runs.refl s).deliver _
    · exact (runs_writePair _ id s).deliver _
  | filterOn => cases h; exact ((runs_tWrite _ _ s).trans (runs_tWrite _ _ _)).deliver _
  | filterOff => cases h; exact ((runs_tWrite _ _ s).trans (runs_tWrite _ _ _)).deliver _
  | hardReset => cases h; exact (runs_tReset s).delay.deliver _
  | setConfigMode enable => cases h; exact (runs_tModify _ _ _ s).deliver _
  | setSilentMode enable => cases h; exact (runs_tModify _ _ _ s).deliver _
  | attachCallback => cases h; exact (Runs.refl s).quiet rfl rfl rfl rfl
  | detachCallback => cases h; exact (Runs.refl s).quiet rfl rfl rfl rfl
  | readRxError => cases h; exact (runs_tRead _ s).deliver _
  | readTxError => cases h; exact (runs_tRead _ s).deliver _
  | fifoSize => cases h; exact (Runs.refl s).deliver _

theorem runs_route (f : Frame) (s : State) : Runs s (route f s) := by
  unfold route
  split
  · exact (Runs.refl s).quiet rfl rfl rfl rfl
  · unfold fifoPush
    split
    · exact .refl s
    · exact (Runs.refl s).quiet rfl rfl rfl rfl

/-- The bus side of a drain iteration. -/
theorem runs_drainIter (s : State) : Runs s (drainIter s) := by
  have hq := runs_availQuery s
  simp only [drainIter]
  split
  · exact hq.quiet rfl rfl rfl rfl
  · have hr := hq.trans (runs_recv (selectChannel (availQuery s).1) (availQuery s).2)
    split
    · exact hr.trans (runs_route _ _)
    · exact hr
    · exact hr

end Sys2Proof.Machine
end

