-- ==== Sys2Proof/Laws/PerInstr.lean ====
section
/-! SUPPORT. Per instruction: the first byte of what is presented for it is the code its row of
spec/opcode_table.json gives (R70, R81). -/

namespace Sys2Proof.Laws.FirstByte

/-- The command byte, or the request's op code. -/
def firstByte : Presented → Byte
  | .command bytes => bytes.headD 0x00
  | .request r => r.op

/-- The `match` value of the instruction's row of spec/opcode_table.json. -/
def tableCode : Instr → Byte
  | .reset => 0xC0
  | .read _ => 0x03
  | .write _ _ => 0x02
  | .modify _ _ _ => 0x05
  | .readStatus => 0xA0
  | .rxStatus => 0xB0
  | .loadTx0 _ _ _ _ => 0x40
  | .loadTx1 _ _ _ _ => 0x42
  | .loadTx2 _ _ _ _ => 0x44
  | .rts0 => 0x81
  | .rts1 => 0x82
  | .rts2 => 0x84
  | .readRx0 => 0x90
  | .readRx1 => 0x94
  | .initializeOp _ _ => 0x01
  | .setBitrate _ => 0x02
  | .availableChannels => 0x03
  | .interruptPending => 0x04
  | .send _ _ _ => 0x05
  | .receive _ => 0x06
  | .setFilter _ _ _ => 0x07
  | .setMask _ _ => 0x08
  | .filterOn => 0x09
  | .filterOff => 0x0A
  | .hardReset => 0x0B
  | .setConfigMode _ => 0x0C
  | .setSilentMode _ => 0x0D
  | .attachCallback => 0x0E
  | .detachCallback => 0x0F
  | .readRxError => 0x10
  | .readTxError => 0x11
  | .fifoPop => 0x12
  | .fifoSize => 0x13

def Statement (i : Instr) : Prop :=
  ∀ d : Byte, firstByte (encode d i) = tableCode i

theorem reset : Statement (.reset) := fun _ => rfl
theorem read (addr : Byte) : Statement (.read addr) := fun _ => rfl
theorem write (addr value : Byte) : Statement (.write addr value) := fun _ => rfl
theorem modify (addr mask value : Byte) : Statement (.modify addr mask value) := fun _ => rfl
theorem readStatus : Statement (.readStatus) := fun _ => rfl
theorem rxStatus : Statement (.rxStatus) := fun _ => rfl
theorem loadTx0 (sidh sidl dlc : Byte) (payload : List Byte) : Statement (.loadTx0 sidh sidl dlc payload) := fun _ => rfl
theorem loadTx1 (sidh sidl dlc : Byte) (payload : List Byte) : Statement (.loadTx1 sidh sidl dlc payload) := fun _ => rfl
theorem loadTx2 (sidh sidl dlc : Byte) (payload : List Byte) : Statement (.loadTx2 sidh sidl dlc payload) := fun _ => rfl
theorem rts0 : Statement (.rts0) := fun _ => rfl
theorem rts1 : Statement (.rts1) := fun _ => rfl
theorem rts2 : Statement (.rts2) := fun _ => rfl
theorem readRx0 : Statement (.readRx0) := fun _ => rfl
theorem readRx1 : Statement (.readRx1) := fun _ => rfl
theorem initializeOp (khz : BitVec 32) (performReset : BitVec 1) : Statement (.initializeOp khz performReset) := fun _ => rfl
theorem setBitrate (khz : BitVec 32) : Statement (.setBitrate khz) := fun _ => rfl
theorem availableChannels : Statement (.availableChannels) := fun _ => rfl
theorem interruptPending : Statement (.interruptPending) := fun _ => rfl
theorem send (id : BitVec 16) (length : BitVec 8) (data : Vector Byte 8) : Statement (.send id length data) := fun _ => rfl
theorem receive (channel : Byte) : Statement (.receive channel) := fun _ => rfl
theorem setFilter (channel index : Byte) (id : BitVec 16) : Statement (.setFilter channel index id) := fun _ => rfl
theorem setMask (channel : Byte) (id : BitVec 16) : Statement (.setMask channel id) := fun _ => rfl
theorem filterOn : Statement (.filterOn) := fun _ => rfl
theorem filterOff : Statement (.filterOff) := fun _ => rfl
theorem hardReset : Statement (.hardReset) := fun _ => rfl
theorem setConfigMode (enable : BitVec 1) : Statement (.setConfigMode enable) := fun _ => rfl
theorem setSilentMode (enable : BitVec 1) : Statement (.setSilentMode enable) := fun _ => rfl
theorem attachCallback : Statement (.attachCallback) := fun _ => rfl
theorem detachCallback : Statement (.detachCallback) := fun _ => rfl
theorem readRxError : Statement (.readRxError) := fun _ => rfl
theorem readTxError : Statement (.readTxError) := fun _ => rfl
theorem fifoPop : Statement (.fifoPop) := fun _ => rfl
theorem fifoSize : Statement (.fifoSize) := fun _ => rfl

end Sys2Proof.Laws.FirstByte
end

