-- ==== Sys2Proof/Laws/Step.lean ====
section
/-! SUPPORT. What a step can do, said once: one inversion lemma each for the host turn and the step. -/

namespace Sys2Proof.Machine

theorem hostTurn_run {s : State} {p : Presented} {ps : List Presented} (hr : s.requests = p :: ps)
    (hm : HostMayStep s) : hostTurn s = runPresented p (withRequests ps s) := by
  simp [hostTurn, hr, (hostEnabled_iff s).mpr hm]

theorem hostTurn_wait {s : State} (hm : ¬ HostMayStep s) : hostTurn s = .next s := by
  have : hostEnabled s = false := by rwa [← Bool.not_eq_true, hostEnabled_iff]
  unfold hostTurn
  split <;> simp [this]

theorem runPresented_ok {s : State} {p : Presented} {i : Instr}
    (h : decodePresented s.cfg.dummyByte p = .ok i) : runPresented p s = exec i s := by
  unfold runPresented
  rw [h]

theorem drainTurn_iterates {s : State} (hr : s.rstN = .high) (hd : s.drainState = .draining) :
    drainTurn s = drainIter s := by
  simp [drainTurn, hr, hd]

theorem drainTurn_starts {s : State} (h : DrainMayStart s) : drainTurn s = drainEnter s := by
  simp [drainTurn, h.1, h.2.1, (drainStartEnabled_iff s).mpr h]

theorem drainTurn_rests {s : State} (hd : s.drainState = .idle) (h : ¬ DrainMayStart s) : drainTurn s = s := by
  have : drainStartEnabled s = false := by rwa [← Bool.not_eq_true, drainStartEnabled_iff]
  simp [drainTurn, hd, this]

theorem drainTurn_inReset {s : State} (h : s.rstN = .low) : drainTurn s = s := by
  simp [drainTurn, h]

/-- The drain turn: nothing, an iteration, or a start. -/
theorem drainTurn_cases (s : State) :
    drainTurn s = s ∨
      (s.rstN = .high ∧ s.drainState = .draining ∧ drainTurn s = drainIter s) ∨
      (DrainMayStart s ∧ drainTurn s = drainEnter s) := by
  unfold drainTurn
  by_cases hr : s.rstN = .low
  · exact .inl (if_pos hr)
  have hr' : s.rstN = .high := by cases h : s.rstN <;> simp_all
  rw [if_neg hr]
  by_cases hd : s.drainState = .draining
  · exact .inr (.inl ⟨hr', hd, if_pos hd⟩)
  rw [if_neg hd]
  by_cases he : drainStartEnabled s = true
  · exact .inr (.inr ⟨(drainStartEnabled_iff s).mp he, if_pos he⟩)
  · exact .inl (if_neg he)

/-- The host turn, where it answers a next state: it waits, or runs a decoded instruction, or marks a reserved
request. -/
theorem hostTurn_cases {s t : State} (h : hostTurn s = .next t) :
    t = s ∨ ∃ p ps, s.requests = p :: ps ∧ HostMayStep s ∧
      ((∃ i, decodePresented s.cfg.dummyByte p = .ok i ∧ exec i (withRequests ps s) = .next t) ∨
        ∃ r e, p = .request r ∧ decodeRequest r = .error e ∧ t = refuseRequest (withRequests ps s)) := by
  by_cases hm : HostMayStep s
  · cases hr : s.requests with
    | nil => exact .inl (by simpa [hostTurn, hr, eq_comm] using h)
    | cons p ps =>
      rw [hostTurn_run hr hm] at h
      refine .inr ⟨p, ps, rfl, hm, ?_⟩
      unfold runPresented at h
      split at h
      · exact .inl ⟨_, by assumption, h⟩
      · cases h
        exact .inr ⟨_, _, rfl, by assumption, rfl⟩
      · cases h
  · rw [hostTurn_wait hm] at h
    cases h
    exact .inl rfl

/-- Taking the turn off the schedule leaves everything but the schedule and its counter. -/
theorem nextTurn_snd (s : State) :
    (∃ rest, (nextTurn s).2 = withSchedule rest s) ∨ (nextTurn s).2 = countFreeTurn s := by
  unfold nextTurn
  split
  · exact .inl ⟨_, rfl⟩
  · exact .inr rfl

/-- A step that answers a next state, by whose turn it was; `u` is `s` with the turn taken. -/
theorem step_cases {s t : State} (h : step s = .next t) :
    s.cfg.wellFormed = true ∧ ∃ u, ((∃ rest, u = withSchedule rest s) ∨ u = countFreeTurn s) ∧
      ((∃ e, (nextTurn s).1 = .env e ∧ t = envTurn e u) ∨
        ((nextTurn s).1 = .drain ∧ t = drainTurn u) ∨
        ((nextTurn s).1 = .host ∧ hostTurn u = .next t)) := by
  unfold step at h
  split at h
  · rename_i hc
    refine ⟨hc, (nextTurn s).2, nextTurn_snd s, ?_⟩
    cases ht : (nextTurn s).1 with
    | env e => rw [ht] at h; cases h; exact .inl ⟨e, rfl, rfl⟩
    | drain => rw [ht] at h; cases h; exact .inr (.inl ⟨rfl, rfl⟩)
    | host => rw [ht] at h; exact .inr (.inr ⟨rfl, h⟩)
  · cases h

/-! ### Runs -/

theorem run_zero (s : State) : Host.Core.run Sys2Proof.core 0 s = .next s := rfl

theorem run_next {s t : State} (h : step s = .next t) (n : Nat) :
    Host.Core.run Sys2Proof.core (n + 1) s = Host.Core.run Sys2Proof.core n t := by
  simp [Host.Core.run, Sys2Proof.core, h]

/-- A run of `n + 1` steps that ends in a next state takes a first step, then runs `n` more. -/
theorem run_succ_cases {n : Nat} {s t : State} (h : Host.Core.run Sys2Proof.core (n + 1) s = .next t) :
    ∃ u, step s = .next u ∧ Host.Core.run Sys2Proof.core n u = .next t := by
  cases hs : step s with
  | next u => exact ⟨u, rfl, by rwa [run_next hs] at h⟩
  | fault r => simp [Host.Core.run, Sys2Proof.core, hs] at h
  | refused r => simp [Host.Core.run, Sys2Proof.core, hs] at h

end Sys2Proof.Machine
end

