-- ==== Sys2Proof/Machine/Text.lean ====
section
/-! DEFINITION. The textual syntax of host operations and of bus transactions, "for test programs only" (spec
R84): the mnemonic, then the operands in R81's order, separated by commas. Written as lists of characters. -/

namespace Sys2Proof.Machine

def hexDigit (n : Nat) : Char :=
  if n < 10 then Char.ofNat (48 + n) else Char.ofNat (55 + n)

/-- At least `width` hexadecimal digits of `n`, most significant first; `fuel` bounds their number. -/
def hexDigits : Nat → Nat → Nat → List Char
  | 0, _, _ => []
  | fuel + 1, width, n =>
    if n = 0 ∧ width = 0 then [] else hexDigits fuel (width - 1) (n / 16) ++ [hexDigit (n % 16)]

def decDigits : Nat → Nat → List Char
  | 0, _ => []
  | fuel + 1, n => if n < 10 then [hexDigit n] else decDigits fuel (n / 10) ++ [hexDigit (n % 10)]

/-- A number in decimal; ten digits hold every `u32`. -/
def textNat (n : Nat) : List Char :=
  decDigits 10 n

def textInt (i : Int) : List Char :=
  if i < 0 then '-' :: textNat i.natAbs else textNat i.natAbs

/-- A byte as two hexadecimal digits, as in a `TXN` line. -/
def textByte (b : Byte) : List Char :=
  hexDigits 2 2 b.toNat

/-- A data byte, `0x` and two digits. -/
def textData (b : Byte) : List Char :=
  '0' :: 'x' :: textByte b

/-- An identifier argument, `0x` and at least three digits. -/
def textId (id : BitVec 16) : List Char :=
  '0' :: 'x' :: hexDigits 4 3 id.toNat

/-- `parts` with `sep` between them. -/
def textJoin (sep : List Char) : List (List Char) → List Char
  | [] => []
  | [a] => a
  | a :: b :: rest => a ++ sep ++ textJoin sep (b :: rest)

/-- A mnemonic and its operands. -/
def textOp (mnemonic : String) (operands : List (List Char)) : List Char :=
  match operands with
  | [] => mnemonic.toList
  | _ :: _ => mnemonic.toList ++ ' ' :: textJoin [',', ' '] operands

def textBit (b : BitVec 1) : List Char :=
  textNat b.toNat

/-- The mnemonic of each row of the opcode table. -/
def mnemonic : Instr → String
  | .reset => "RESET"
  | .read _ => "READ"
  | .write _ _ => "WRITE"
  | .modify _ _ _ => "MODIFY"
  | .readStatus => "READ_STATUS"
  | .rxStatus => "RX_STATUS"
  | .loadTx0 _ _ _ _ => "LOAD_TX0"
  | .loadTx1 _ _ _ _ => "LOAD_TX1"
  | .loadTx2 _ _ _ _ => "LOAD_TX2"
  | .rts0 => "RTS0"
  | .rts1 => "RTS1"
  | .rts2 => "RTS2"
  | .readRx0 => "READ_RX0"
  | .readRx1 => "READ_RX1"
  | .initializeOp _ _ => "INITIALIZE"
  | .setBitrate _ => "SET_BITRATE"
  | .availableChannels => "AVAILABLE_CHANNELS"
  | .interruptPending => "INTERRUPT_PENDING"
  | .send _ _ _ => "SEND"
  | .receive _ => "RECEIVE"
  | .setFilter _ _ _ => "SET_FILTER"
  | .setMask _ _ => "SET_MASK"
  | .filterOn => "FILTER_ON"
  | .filterOff => "FILTER_OFF"
  | .hardReset => "HARD_RESET"
  | .setConfigMode _ => "SET_CONFIG_MODE"
  | .setSilentMode _ => "SET_SILENT_MODE"
  | .attachCallback => "ATTACH_CALLBACK"
  | .detachCallback => "DETACH_CALLBACK"
  | .readRxError => "READ_RX_ERROR"
  | .readTxError => "READ_TX_ERROR"
  | .fifoPop => "FIFO_POP"
  | .fifoSize => "FIFO_SIZE"

/-- The operands of a host operation, in R81's order; SEND lists the bytes it sends. R84 gives bus commands no
form of this kind: a transaction is written by `textTxn`. -/
def textOperands : Instr → List (List Char)
  | .initializeOp khz performReset => [textNat khz.toNat, textBit performReset]
  | .setBitrate khz => [textNat khz.toNat]
  | .send id length data =>
    [textId id, textInt length.toInt,
     '[' :: textJoin [',', ' '] ((data.toList.take (clampLen length)).map textData) ++ [']']]
  | .receive channel => [textNat channel.toNat]
  | .setFilter channel index id => [textNat channel.toNat, textNat index.toNat, textId id]
  | .setMask channel id => [textNat channel.toNat, textId id]
  | .setConfigMode enable => [textBit enable]
  | .setSilentMode enable => [textBit enable]
  | _ => []

/-- A host operation as text (R84). -/
def textInstr (i : Instr) : List Char :=
  textOp (mnemonic i) (textOperands i)

/-- `TXN [b0 b1 ...] / [r0 r1 ...]`: MOSI bytes, then MISO bytes (R84); a delay is written `Delay`. -/
def textTxn (e : Event) : List Char :=
  match e with
  | .delay _ => "Delay".toList
  | .txn bytes =>
    "TXN [".toList ++ textJoin [' '] (bytes.map fun x => textByte x.mosi) ++ "] / [".toList ++
      textJoin [' '] (bytes.map fun x => textByte x.miso) ++ [']']

end Sys2Proof.Machine
end

