-- ==== Sys2Proof/Tests/Slice0.lean ====
section
/-! SUPPORT. Tests: each expected result is taken from the spec's tables, examples and vectors (named at each
test), and the witnesses that the hypotheses of the obligations can be met. -/

namespace Sys2Proof.Tests
open Sys2Proof.Machine

/-! ### Helpers -/

/-- The block out of reset, the chip's coming answers being `miso`. -/
def start (miso : List Byte) : State :=
  { State.reset with miso := miso }

/-- The outcome delivers exactly the result `r` and issues exactly the MOSI bytes `ts`; a delay is `[]`. -/
def gives (o : Host.Outcome State Fault Refusal) (r : HostResult) (ts : List (List Byte)) : Bool :=
  match o with
  | .next t => decide (t.results = [r]) && decide (mosiOf t.busLog = ts)
  | .fault _ => false
  | .refused _ => false

/-- The outcome is a next state that passes `p`. -/
def nextIs (o : Host.Outcome State Fault Refusal) (p : State → Bool) : Bool :=
  match o with
  | .next t => p t
  | .fault _ => false
  | .refused _ => false

/-- A bus command presented alone replies `kept` and issues `mosi`. -/
def replies (o : Host.Outcome State Fault Refusal) (kept mosi : List Byte) : Bool :=
  nextIs o fun t => decide (t.seqReplies = [kept]) && decide (mosiOf t.busLog = [mosi])

def frameA : Frame := { id := 1, len := 1, data := [0x0A] }
def frameB : Frame := { id := 2, len := 0, data := [] }

/-- V11's FIFO, `FIFO_N = 3`, holding `fs` from slot `head` on. -/
def fifo3 (head : Nat) (buf : List (Option Frame)) (size : Nat) : State :=
  { start [] with
    cfg := { defaultConfig with fifoN := 3 }
    fifoBuf := buf
    fifoHead := head
    fifoTail := (head + size) % 3
    fifoSize := size }

def withMode (m : DrainMode) (s : State) : State :=
  { s with cfg := { s.cfg with drainMode := m } }

/-- A request with a value of its own in every field. -/
def fullRequest (op : Byte) : Request where
  op := op
  khz := 500
  performReset := 1
  enable := 1
  channel := 2
  index := 3
  id := 0x123
  length := 3
  data := #v[0x11, 0x22, 0x33, 0x44, 0x55, 0x66, 0x77, 0x88]

/-! ### Well-formedness: an ill-formed term for each check (R106, R7) -/

theorem test_wf_dlc_above_8 : (Instr.loadTx0 0x24 0x60 9 (List.replicate 9 0)).wellFormed = false := by decide
theorem test_wf_payload_too_short : (Instr.loadTx1 0x24 0x60 3 [1, 2]).wellFormed = false := by decide
theorem test_wf_payload_too_long : (Instr.loadTx2 0x24 0x60 0 [1]).wellFormed = false := by decide
theorem test_wf_loadTx : (Instr.loadTx0 0x24 0x60 8 (List.replicate 8 0)).wellFormed = true := by decide
theorem test_wf_no_fifo : Config.wellFormed { defaultConfig with fifoN := 0 } = false := by decide
theorem test_wf_fifo_of_one : Config.wellFormed { defaultConfig with fifoN := 1 } = true := by decide

/-! ### Decoding, from the tables of R70, R71 and R81 -/

theorem test_decode_short_commands :
    decodeCommand 0 [0b11000000] = .ok .reset ∧
    decodeCommand 0 [0b00000011, 0x1D, 0x00] = .ok (.read 0x1D) ∧
    decodeCommand 0 [0b00000010, 0x2A, 0x27] = .ok (.write 0x2A 0x27) ∧
    decodeCommand 0 [0b00000101, 0x2C, 0x01, 0x00] = .ok (.modify 0x2C 0x01 0x00) ∧
    decodeCommand 0 [0b10100000, 0x00] = .ok .readStatus ∧
    decodeCommand 0 [0b10110000, 0x00] = .ok .rxStatus ∧
    decodeCommand 0 [0b10000001] = .ok .rts0 ∧
    decodeCommand 0 [0b10000010] = .ok .rts1 ∧
    decodeCommand 0 [0b10000100] = .ok .rts2 := by decide

theorem test_decode_buffer_commands :
    decodeCommand 0 [0b01000000, 0x24, 0x60, 0, 0, 3, 1, 2, 3] = .ok (.loadTx0 0x24 0x60 3 [1, 2, 3]) ∧
    decodeCommand 0 [0b01000010, 0x24, 0x80, 0, 0, 1, 0xFF] = .ok (.loadTx1 0x24 0x80 1 [0xFF]) ∧
    decodeCommand 0 [0b01000100, 0x00, 0x20, 0, 0, 0] = .ok (.loadTx2 0x00 0x20 0 []) ∧
    decodeCommand 0x55 [0b10010000, 0x55, 0x55, 0x55, 0x55, 0x55] = .ok .readRx0 ∧
    decodeCommand 0 [0b10010100, 0, 0, 0, 0, 0] = .ok .readRx1 := by decide

theorem test_decode_requests :
    decodeRequest (fullRequest 0b00000001) = .ok (.initializeOp 500 1) ∧
    decodeRequest (fullRequest 0b00000010) = .ok (.setBitrate 500) ∧
    decodeRequest (fullRequest 0b00000011) = .ok .availableChannels ∧
    decodeRequest (fullRequest 0b00000100) = .ok .interruptPending ∧
    decodeRequest (fullRequest 0b00000101) =
      .ok (.send 0x123 3 #v[0x11, 0x22, 0x33, 0x44, 0x55, 0x66, 0x77, 0x88]) ∧
    decodeRequest (fullRequest 0b00000110) = .ok (.receive 2) ∧
    decodeRequest (fullRequest 0b00000111) = .ok (.setFilter 2 3 0x123) ∧
    decodeRequest (fullRequest 0b00001000) = .ok (.setMask 2 0x123) ∧
    decodeRequest (fullRequest 0b00001001) = .ok .filterOn ∧
    decodeRequest (fullRequest 0b00001010) = .ok .filterOff := by decide

theorem test_decode_control_requests :
    decodeRequest (fullRequest 0b00001011) = .ok .hardReset ∧
    decodeRequest (fullRequest 0b00001100) = .ok (.setConfigMode 1) ∧
    decodeRequest (fullRequest 0b00001101) = .ok (.setSilentMode 1) ∧
    decodeRequest (fullRequest 0b00001110) = .ok .attachCallback ∧
    decodeRequest (fullRequest 0b00001111) = .ok .detachCallback ∧
    decodeRequest (fullRequest 0b00010000) = .ok .readRxError ∧
    decodeRequest (fullRequest 0b00010001) = .ok .readTxError ∧
    decodeRequest (fullRequest 0b00010010) = .ok .fifoPop ∧
    decodeRequest (fullRequest 0b00010011) = .ok .fifoSize := by decide

/-- R79, R83: what no table gives a meaning is rejected by name. -/
theorem test_decode_rejects :
    decodeCommand 0 [] = .error .emptyCommand ∧
    decodeCommand 0 [0x46, 0, 0, 0, 0, 0] = .error (.unknownCommand 0x46) ∧
    decodeCommand 0 [0x83] = .error (.unknownCommand 0x83) ∧
    decodeCommand 0 [0x92, 0, 0, 0, 0, 0] = .error (.unknownCommand 0x92) ∧
    decodeCommand 0 [0x02, 0x2A] = .error (.badLength 0x02) ∧
    decodeCommand 0 [0xA0, 0x01] = .error (.badDummy 0xA0) ∧
    decodeCommand 0 [0x40, 0x24, 0x60, 0, 1, 0] = .error (.badExtendedId 0x40) ∧
    decodeCommand 0 [0x40, 0x24, 0x60, 0, 0, 2, 1] = .error (.badLength 0x40) ∧
    decodeRequest (fullRequest 0x00) = .error (.reservedOp 0x00) ∧
    decodeRequest (fullRequest 0x14) = .error (.reservedOp 0x14) := by decide

/-- A table word of eight bits, and SET_FILTER 2, 3, 0x7F0 packed as log 5 says. -/
theorem test_table_words :
    decodeTableWord 8 0xC0 = some .reset ∧ decodeTableWord 8 0x94 = some .readRx1 ∧
    decodeTableWord 8 0x44 = some (.loadTx2 0 0 0 []) ∧ decodeTableWord 8 0x01 = some (.initializeOp 0 0) ∧
    decodeTableWord 146 (0x07 + 2 * 2 ^ 42 + 3 * 2 ^ 50 + 0x7F0 * 2 ^ 58) = some (.setFilter 2 3 0x7F0) := by decide

theorem test_table_word_runs :
    nextIs (step (State.reset.withFetchWord 8 0x0C)) fun t =>
      decide (mosiOf t.busLog = [[0x05, 0x0F, 0xE0, 0x00]]) := by decide

/-! ### Codec vectors: V1, V2, V3, V4, V6, V8 of 95_test_vectors -/

theorem test_packId :
    packId 0x007 = (0x00, 0xE0) ∧ packId 0x008 = (0x01, 0x00) ∧ packId 0x123 = (0x24, 0x60) ∧
    packId 0x2AA = (0x55, 0x40) ∧ packId 0x7FF = (0xFF, 0xE0) ∧ packId 0x800 = (0x00, 0x00) ∧
    packId 0xFFFF = (0xFF, 0xE0) := by decide

theorem test_unpackId :
    unpackId 0x24 0x60 = 0x123 ∧ unpackId 0x24 0x7F = 0x123 ∧ unpackId 0x00 0x1F = 0x000 ∧
    unpackId 0x80 0x20 = 0x401 ∧ unpackId 0xFF 0xFF = 0x7FF := by decide

theorem test_lengths :
    clampLen 0x80 = 0 ∧ clampLen 0xFF = 0 ∧ clampLen 3 = 3 ∧ clampLen 8 = 8 ∧ clampLen 9 = 8 ∧ clampLen 127 = 8 ∧
    rxPayloadLen 0x00 = 0 ∧ rxPayloadLen 0x08 = 8 ∧ rxPayloadLen 0x09 = 8 ∧ rxPayloadLen 0x43 = 3 ∧
    rxPayloadLen 0xF0 = 0 := by decide

theorem test_selectTx :
    selectTx defaultConfig 0x03 = some .b0 ∧ selectTx defaultConfig 0x04 = some .b1 ∧
    selectTx defaultConfig 0x44 = some .b1 ∧ selectTx defaultConfig 0x14 = some .b2 ∧
    selectTx defaultConfig 0x50 = some .b0 ∧ selectTx defaultConfig 0x54 = none ∧
    selectTx defaultConfig 0xA8 = some .b0 := by decide

theorem test_availability :
    availOfRxStatus 0x3F = 0 ∧ availOfRxStatus 0x80 = 2 ∧ availOfRxStatus 0xC7 = 3 ∧
    availOfReadStatus 0xFC = 0 ∧ availOfReadStatus 0x02 = 2 ∧
    selectChannel 1 = 1 ∧ selectChannel 2 = 2 ∧ selectChannel 3 = 1 := by decide

/-- R76 and R77: the status bits' places. -/
theorem test_status_bits :
    stRxFull 0x02 .b1 = true ∧ stRxFull 0x02 .b0 = false ∧ rxHasMessage 0x40 .b0 = true ∧
    rxFilterMatch 0x1D = 5 ∧ rxFrameType 0x1D = 3 := by decide

/-- R103's named chip property: "only bits set in `mask` are affected". -/
theorem test_chipModified : chipModified 0xFF 0xE0 0x80 = 0x9F := by decide

/-- R7's defaults: the values of the table of R6. -/
theorem test_defaults :
    defaultConfig.wellFormed = true ∧ defaultConfig.fifoN = 30 ∧ defaultConfig.dummyByte = 0x00 ∧
    defaultConfig.rxClearMask2 = 0x02 ∧ defaultConfig.modeSilent = 0x60 ∧
    defaultConfig.rxb0ctrlFilterOff = 0x64 := by decide

/-! ### Text: the examples of R84 -/

theorem test_text :
    textInstr (.initializeOp 500 1) = "INITIALIZE 500, 1".toList ∧
    textInstr (.send 0x123 3 #v[1, 2, 3, 0, 0, 0, 0, 0]) = "SEND 0x123, 3, [0x01, 0x02, 0x03]".toList ∧
    textInstr (.setFilter 2 3 0x7F0) = "SET_FILTER 2, 3, 0x7F0".toList ∧
    textTxn (.txn [⟨0xA0, 0x5A⟩, ⟨0x00, 0x04⟩]) = "TXN [A0 00] / [5A 04]".toList := by decide

/-! ### Bus commands presented alone: the examples of R100 to R108 -/

theorem test_reset : replies (exec .reset (start [0x5A])) [0x5A] [0xC0] = true := by decide
theorem test_read : replies (exec (.read 0x1D) (start [1, 2, 5])) [5] [0x03, 0x1D, 0x00] = true := by decide
theorem test_write : replies (exec (.write 0x2A 0x00) (start [])) [] [0x02, 0x2A, 0x00] = true := by decide
theorem test_modify : replies (exec (.modify 0x2C 1 0) (start [])) [] [0x05, 0x2C, 0x01, 0x00] = true := by decide
theorem test_readStatus : replies (exec .readStatus (start [9, 4])) [4] [0xA0, 0x00] = true := by decide
theorem test_rxStatus : replies (exec .rxStatus (start [9, 0xC0])) [0xC0] [0xB0, 0x00] = true := by decide
theorem test_loadTx0 :
    replies (exec (.loadTx0 0x24 0x60 3 [1, 2, 3]) (start [])) [] [0x40, 0x24, 0x60, 0, 0, 3, 1, 2, 3] = true := by
  decide
theorem test_loadTx1 :
    replies (exec (.loadTx1 0x24 0x80 1 [0xFF]) (start [])) [] [0x42, 0x24, 0x80, 0, 0, 1, 0xFF] = true := by decide
theorem test_loadTx2 : replies (exec (.loadTx2 0 0x20 0 []) (start [])) [] [0x44, 0, 0x20, 0, 0, 0] = true := by decide
theorem test_rts0 : replies (exec .rts0 (start [])) [] [0x81] = true := by decide
theorem test_rts1 : replies (exec .rts1 (start [])) [] [0x82] = true := by decide
theorem test_rts2 : replies (exec .rts2 (start [])) [] [0x84] = true := by decide
theorem test_readRx0 :
    replies (exec .readRx0 (start [9, 0x24, 0x60, 0, 0, 2, 0xAA, 0xBB])) [0x24, 0x60, 0, 0, 2, 0xAA, 0xBB]
      [0x90, 0, 0, 0, 0, 0, 0, 0] = true := by decide
theorem test_readRx1 :
    replies (exec .readRx1 (start [9, 0, 0x20, 0x12, 0x34, 0xF0])) [0, 0x20, 0x12, 0x34, 0xF0]
      [0x94, 0, 0, 0, 0, 0] = true := by decide

/-! ### Host operations: W1 to W5 and V5 to V12 of 95_test_vectors -/

theorem test_setBitrate_rows :
    gives (exec (.setBitrate 10) (start [])) (codeOnly .ok) [[2, 0x2A, 0x27], [2, 0x29, 0xBF], [2, 0x28, 7]] ∧
    gives (exec (.setBitrate 125) (start [])) (codeOnly .ok) [[2, 0x2A, 3], [2, 0x29, 0xBA], [2, 0x28, 7]] ∧
    gives (exec (.setBitrate 500) (start [])) (codeOnly .ok) [[2, 0x2A, 0], [2, 0x29, 0xB6], [2, 0x28, 4]] ∧
    gives (exec (.setBitrate 1000) (start [])) (codeOnly .ok) [[2, 0x2A, 0], [2, 0x29, 0xA0], [2, 0x28, 2]] := by decide

theorem test_setBitrate_fails :
    gives (exec (.setBitrate 0) (start [])) (codeOnly .fail) [] ∧
    gives (exec (.setBitrate 499) (start [])) (codeOnly .fail) [] ∧
    gives (exec (.setBitrate 0xFFFFFFFF) (start [])) (codeOnly .fail) [] := by decide

theorem test_send :
    gives (exec (.send 0x123 3 #v[1, 2, 3, 4, 5, 6, 7, 8]) (start [9, 0x00])) (codeOnly .ok)
      [[0xA0, 0], [0x40, 0x24, 0x60, 0, 0, 3, 1, 2, 3], [0x81]] ∧
    gives (exec (.send 0x0AB 2 #v[0x10, 0x20, 0, 0, 0, 0, 0, 0]) (start [9, 0x14])) (codeOnly .ok)
      [[0xA0, 0], [0x44, 0x15, 0x60, 0, 0, 2, 0x10, 0x20], [0x84]] := by decide

theorem test_send_edges :
    gives (exec (.send 0x7FF 9 #v[0x11, 0x22, 0x33, 0x44, 0x55, 0x66, 0x77, 0x88]) (start [9, 0])) (codeOnly .ok)
      [[0xA0, 0], [0x40, 0xFF, 0xE0, 0, 0, 8, 0x11, 0x22, 0x33, 0x44, 0x55, 0x66, 0x77, 0x88], [0x81]] ∧
    gives (exec (.send 0x800 0xFF #v[1, 2, 3, 4, 5, 6, 7, 8]) (start [9, 0])) (codeOnly .ok)
      [[0xA0, 0], [0x40, 0, 0, 0, 0, 0], [0x81]] ∧
    gives (exec (.send 0x001 1 #v[1, 2, 3, 4, 5, 6, 7, 8]) (start [9, 0x54])) (codeOnly .fail) [[0xA0, 0]] := by decide

theorem test_receive :
    gives (exec (.receive 2) (start [9, 0x24, 0x60, 0, 0, 1, 0x7E])) (okFrame { id := 0x123, len := 1, data := [0x7E] })
      [[0x94, 0, 0, 0, 0, 0, 0], [5, 0x2C, 2, 0]] ∧
    gives (exec (.receive 3) (start [9, 0, 0, 0x12, 0x34, 0])) (okFrame { id := 0, len := 0, data := [] })
      [[0x90, 0, 0, 0, 0, 0], [5, 0x2C, 1, 0]] := by decide

theorem test_receive_edges :
    gives (exec (.receive 1) (start [9, 0xFF, 0xE0, 0, 0, 0x0F, 1, 2, 3, 4, 5, 6, 7, 8]))
      (okFrame { id := 0x7FF, len := 8, data := [1, 2, 3, 4, 5, 6, 7, 8] })
      [0x90 :: List.replicate 13 0, [5, 0x2C, 1, 0]] ∧
    gives (exec (.receive 0) (start [])) { code := .fail, value := none, frame := .absent } [] ∧
    gives (exec (.receive 4) (start [])) { code := .fail, value := none, frame := .absent } [] := by decide

theorem test_setFilter :
    gives (exec (.setFilter 1 1 0x123) (start [])) (codeOnly .ok) [[2, 0x00, 0x24], [2, 0x01, 0x60]] ∧
    gives (exec (.setFilter 1 2 0x7FF) (start [])) (codeOnly .ok) [[2, 0x04, 0xFF], [2, 0x05, 0xE0]] ∧
    gives (exec (.setFilter 2 1 0x000) (start [])) (codeOnly .ok) [[2, 0x08, 0x00], [2, 0x09, 0x00]] ∧
    gives (exec (.setFilter 2 2 0x001) (start [])) (codeOnly .ok) [[2, 0x10, 0x00], [2, 0x11, 0x20]] ∧
    gives (exec (.setFilter 2 3 0x7F0) (start [])) (codeOnly .ok) [[2, 0x14, 0xFE], [2, 0x15, 0x00]] ∧
    gives (exec (.setFilter 2 4 0x555) (start [])) (codeOnly .ok) [[2, 0x18, 0xAA], [2, 0x19, 0xA0]] := by decide

theorem test_setFilter_fails :
    gives (exec (.setFilter 1 0 0x123) (start [])) (codeOnly .fail) [] ∧
    gives (exec (.setFilter 1 3 0x123) (start [])) (codeOnly .fail) [] ∧
    gives (exec (.setFilter 2 5 0x123) (start [])) (codeOnly .fail) [] ∧
    gives (exec (.setFilter 0 1 0x123) (start [])) (codeOnly .fail) [] ∧
    gives (exec (.setFilter 3 1 0x123) (start [])) (codeOnly .fail) [] := by decide

theorem test_setMask :
    gives (exec (.setMask 1 0x7FF) (start [])) (codeOnly .ok) [[2, 0x20, 0xFF], [2, 0x21, 0xE0]] ∧
    gives (exec (.setMask 2 0x000) (start [])) (codeOnly .ok) [[2, 0x24, 0x00], [2, 0x25, 0x00]] ∧
    gives (exec (.setMask 0 0x7FF) (start [])) (codeOnly .fail) [] ∧
    gives (exec (.setMask 3 0x7FF) (start [])) (codeOnly .fail) [] := by decide

theorem test_filterOn : gives (exec .filterOn (start [])) (codeOnly .ok) [[2, 0x60, 0], [2, 0x70, 0]] := by decide
theorem test_filterOff : gives (exec .filterOff (start [])) (codeOnly .ok) [[2, 0x60, 0x64], [2, 0x70, 0x60]] := by
  decide

theorem test_availableChannels :
    gives (exec .availableChannels (start [9, 0xC0])) (okValue 3) [[0xB0, 0]] ∧
    gives (exec .availableChannels { start [9, 0x02] with cfg := { defaultConfig with availSource := .readStatus } })
      (okValue 2) [[0xA0, 0]] := by decide

theorem test_initialize :
    gives (exec (.initializeOp 500 1) (start [])) (codeOnly .ok)
      [[0xC0], [], [2, 0x2A, 0], [2, 0x29, 0xB6], [2, 0x28, 4], [2, 0x2B, 3], [5, 0x0F, 0xE0, 0]] ∧
    gives (exec (.initializeOp 125 0) (start [])) (codeOnly .ok)
      [[2, 0x2A, 3], [2, 0x29, 0xBA], [2, 0x28, 7], [2, 0x2B, 3], [5, 0x0F, 0xE0, 0]] := by decide

theorem test_initialize_fails :
    gives (exec (.initializeOp 100 1) (fifo3 1 [none, some frameA, none] 1)) (codeOnly .fail)
      [[0xC0], [], [2, 0x2B, 3], [5, 0x0F, 0xE0, 0]] ∧
    nextIs (exec (.initializeOp 100 1) (fifo3 1 [none, some frameA, none] 1)) fun t =>
      decide (t.fifoHead = 0 ∧ t.fifoTail = 0 ∧ t.fifoSize = 0 ∧ t.fifoBuf = [none, some frameA, none]) := by decide

theorem test_hardReset : gives (exec .hardReset (start [0x5A])) (okValue 0x5A) [[0xC0], []] := by decide

/-- R211: the delay recorded is the instance's RESET_DELAY, whatever it is. -/
theorem test_hardReset_delay (d : Nat) :
    exec .hardReset { start [0x5A] with cfg := { defaultConfig with resetDelay := d } } =
      .next { start [] with
        cfg := { defaultConfig with resetDelay := d }
        busLog := [.txn [{ mosi := 0xC0, miso := 0x5A }], .delay d]
        results := [okValue 0x5A] } := rfl

theorem test_setConfigMode :
    gives (exec (.setConfigMode 1) (start [])) (codeOnly .ok) [[5, 0x0F, 0xE0, 0x80]] ∧
    gives (exec (.setConfigMode 0) (start [])) (codeOnly .ok) [[5, 0x0F, 0xE0, 0x00]] := by decide

theorem test_setSilentMode :
    gives (exec (.setSilentMode 1) (start [])) (codeOnly .ok) [[5, 0x0F, 0xE0, 0x60]] ∧
    gives (exec (.setSilentMode 0) (start [])) (codeOnly .ok) [[5, 0x0F, 0xE0, 0x00]] := by decide

theorem test_readRxError : gives (exec .readRxError (start [1, 2, 0xFF])) (okValue 255) [[3, 0x1D, 0]] := by decide
theorem test_readTxError : gives (exec .readTxError (start [1, 2, 0x00])) (okValue 0) [[3, 0x1C, 0]] := by decide

theorem test_interruptPending :
    gives (exec .interruptPending { withMode .polled (start []) with intPrev := .low }) (okValue 1) [] ∧
    gives (exec .interruptPending (withMode .polled (start []))) (okValue 0) [] := by decide

theorem test_attachCallback : nextIs (exec .attachCallback (start [])) fun t => t.cbAttached := by decide
theorem test_detachCallback :
    nextIs (exec .detachCallback { start [] with cbAttached := true }) fun t => !t.cbAttached := by decide

/-- V11: popping wraps the head from `FIFO_N - 1` to 0. -/
theorem test_fifoPop :
    nextIs (exec .fifoPop (fifo3 2 [some frameB, none, some frameA] 2)) fun t =>
      decide (t.results = [okFrame frameA] ∧ t.fifoHead = 0 ∧ t.fifoTail = 1 ∧ t.fifoSize = 1) := by decide

theorem test_fifoPop_empty :
    gives (exec .fifoPop (fifo3 1 [none, none, none] 0)) { code := .ok, value := none, frame := .absent } [] := by decide

theorem test_fifoSize : gives (exec .fifoSize (fifo3 0 [some frameA, some frameB, some frameA] 3)) (okValue 3) [] := by
  decide

/-- V11: the tail wraps, and a push on a full FIFO is dropped. -/
theorem test_fifoPush :
    (fifoPush frameB (fifo3 0 [some frameA, some frameA, none] 2)).fifoTail = 0 ∧
    fifoPush frameB (fifo3 0 [some frameA, some frameA, some frameA] 3) =
      fifo3 0 [some frameA, some frameA, some frameA] 3 := ⟨rfl, rfl⟩

/-! ### The drain and the inputs: V13, P2, P3, P6 of 95_test_vectors -/

theorem test_drain_start_level :
    nextIs (step { start [] with schedule := [.drain], intPrev := .low }) fun t =>
      decide (t.drainState = .draining ∧ t.busLog = []) := by decide

theorem test_drain_start_edge :
    nextIs (step { withMode .edge (start []) with schedule := [.drain], edgeLatch := true }) fun t =>
      decide (t.drainState = .draining ∧ t.edgeLatch = false) := by decide

/-- P2, iteration 2: the query answers 0x80, channel 2 is read and F2 pushed. -/
theorem test_drain_iteration :
    nextIs (step { start [9, 0x80, 9, 0x00, 0x20, 0, 0, 0] with schedule := [.drain], drainState := .draining }) fun t =>
      decide (mosiOf t.busLog = [[0xB0, 0], [0x94, 0, 0, 0, 0, 0], [5, 0x2C, 2, 0]] ∧ t.fifoSize = 1 ∧
        fifoSlot t 0 = some { id := 0x001, len := 0, data := [] } ∧ t.drainState = .draining) := by decide

/-- P3, step 6: with a callback attached the frame goes to `cb_log` and the FIFO is unchanged. -/
theorem test_drain_callback :
    nextIs (step { start [9, 0x40, 9, 0x00, 0x80, 0, 0, 1, 4] with
        schedule := [.drain], drainState := .draining, cbAttached := true }) fun t =>
      decide (t.cbLog = [{ id := 4, len := 1, data := [4] }] ∧ t.fifoSize = 0) := by decide

theorem test_drain_end :
    nextIs (step { start [9, 0x3F] with schedule := [.drain], drainState := .draining }) fun t =>
      decide (t.drainState = .idle ∧ mosiOf t.busLog = [[0xB0, 0]]) := by decide

theorem test_polled_never_drains :
    nextIs (step { withMode .polled (start []) with schedule := [.drain], intPrev := .low }) fun t =>
      decide (t.drainState = .idle) := by decide

theorem test_edge_latch :
    (envSetInt .low (withMode .edge (start []))).edgeLatch = true ∧
    (envSetInt .low { withMode .edge (start []) with intPrev := .low }).edgeLatch = false ∧
    (envSetInt .low (start [])).edgeLatch = false := by decide

/-- P6: a reserved request sets the mark and returns nothing; the block reset clears it. -/
theorem test_refusal :
    (nextIs (step { start [] with schedule := [.host], requests := [.request (fullRequest 0x14)] }) fun t =>
      decide (t.refused = true ∧ t.results = [] ∧ t.busLog = [] ∧ t.requests = [])) ∧
    (nextIs (step { start [] with schedule := [.env (.setRst .low)], refused := true, cbAttached := true }) fun t =>
      decide (t.refused = false ∧ t.cbAttached = false)) := by decide

/-- R244(c), V13: under LEVEL a host request waits while the line is low. -/
theorem test_host_waits :
    nextIs (step { start [] with
        schedule := [.host], requests := [.request (fullRequest 0x13)], intPrev := .low }) fun t =>
      decide (t.results = [] ∧ t.requests.length = 1) := by decide

/-- R79: bytes that are no command are refused; R7: so is a configuration with no FIFO. -/
theorem test_stops :
    (step { start [] with schedule := [.host], requests := [.command [0x83]] } = .refused .neverIssuedCommand) ∧
    (step { start [] with cfg := { defaultConfig with fifoN := 0 } } = .refused .illFormedConfiguration) ∧
    (exec .fifoPop (fifo3 0 [none, none, none] 1) = .fault (.unwrittenFifoSlot 0)) := ⟨rfl, rfl, rfl⟩

/-! ### Witnesses: a concrete state and operands for the hypotheses of each obligation -/

/-- `start` with the HOST agent's turn next and `i` at the request port. -/
def presenting (i : Instr) : State :=
  { start [] with schedule := [.host], requests := [encode 0 i] }

theorem wit_DecodeInvertsEncode :
    (Instr.loadTx0 0 0 0 []).wellFormed = true ∧
    (Instr.loadTx2 0xFF 0xE0 8 [1, 2, 3, 4, 5, 6, 7, 8]).wellFormed = true := by decide

theorem wit_DecodedCommandsAreExact :
    decodeCommand 0x55 [0x03, 0xFF, 0x55] = .ok (.read 0xFF) := by decide

theorem wit_OnlyReservedOpCodesAreRejected :
    ((fullRequest 0x00).op.toNat = 0) ∧ (0x14 ≤ (fullRequest 0x14).op.toNat) ∧ (0x14 ≤ (fullRequest 0xFF).op.toNat) ∧
    (1 ≤ (fullRequest 0x01).op.toNat) ∧ ((fullRequest 0x13).op.toNat ≤ 0x13) := by decide

/-- Two requests that differ in every field RECEIVE does not read. -/
theorem wit_UnreadRequestFieldsAreIgnored :
    let r := fullRequest 0x06
    let r' := { blankRequest 0x06 with channel := 2 }
    r ≠ r' ∧ r.op = r'.op ∧ (r.op = 0x06 → r.channel = r'.channel) ∧ r.op ≠ 0x01 ∧ r.op ≠ 0x02 ∧ r.op ≠ 0x05 ∧
      r.op ≠ 0x07 ∧ r.op ≠ 0x08 ∧ ¬(r.op = 0x0C ∨ r.op = 0x0D) := by decide

theorem wit_StepRunsThePresentedInstruction :
    let s := presenting (.receive 1)
    s.cfg.wellFormed = true ∧ s.schedule = .host :: [] ∧ s.requests = encode 0 (.receive 1) :: [] ∧ HostMayStep s ∧
      decodePresented s.cfg.dummyByte (encode 0 (.receive 1)) = .ok (.receive 1) := by decide

/-- The other clauses of StepsAreSerialised: an iteration, a start under each mode, a wait while DRAINING, in
reset, and while a start is enabled. -/
theorem wit_StepsAreSerialised :
    (let s := { start [] with schedule := [.drain], drainState := .draining }
     s.schedule = .drain :: [] ∧ s.rstN = .high ∧ s.drainState = .draining) ∧
    DrainMayStart { start [] with schedule := [.drain], intPrev := .low } ∧
    DrainMayStart { withMode .edge (start []) with schedule := [.drain], edgeLatch := true } ∧
    ¬ HostMayStep { start [] with schedule := [.host], drainState := .draining } ∧
    ¬ HostMayStep { start [] with schedule := [.host], rstN := .low } ∧
    ¬ HostMayStep { withMode .edge (start []) with schedule := [.host], edgeLatch := true } := by decide

/-- A step that takes a request and delivers a result. -/
theorem wit_RequestsAreTakenOnlyWhenHostMayStep :
    nextIs (step (presenting .fifoSize)) fun t =>
      decide (t.requests ≠ (presenting .fifoSize).requests) &&
        decide (t.results = (presenting .fifoSize).results ++ [okValue 0]) := by decide

theorem wit_ReservedRequestSetsTheMark :
    let s := { start [] with schedule := [.host], requests := [.request (fullRequest 0x00)] }
    s.cfg.wellFormed = true ∧ HostMayStep s ∧ (fullRequest 0x00).op.toNat = 0 ∧
      0x14 ≤ (fullRequest 0x14).op.toNat ∧ 0x14 ≤ (fullRequest 0xFF).op.toNat := by decide

/-- Both clauses of RefusalIsSticky: the mark cleared by the block reset, and set by a reserved request. -/
theorem wit_RefusalIsSticky :
    (nextIs (step { start [] with schedule := [.env (.setRst .low)], refused := true }) fun t =>
      decide (t.refused = false)) ∧
    (nextIs (step { start [] with schedule := [.host], requests := [.request (fullRequest 0xFF)] }) fun t =>
      decide (t.refused = true)) := by decide

theorem wit_PresentedTableWordRunsNext :
    State.reset.cfg.wellFormed = true ∧ decodeTableWord 8 0x13 = some .fifoSize ∧
    decodeTableWord 8 0xB0 = some .rxStatus := by decide

theorem wit_LoadTxIssuesTheFrame :
    (0 : Byte).toNat ≤ 8 ∧ ([] : List Byte).length = (0 : Byte).toNat ∧
    (8 : Byte).toNat ≤ 8 ∧ (List.replicate 8 (0 : Byte)).length = (8 : Byte).toNat := by decide

/-- TransactionsSendTheirBytes and ReadRxLengthFollowsTheDlc at DLC 0x0F and 0xF0. -/
theorem wit_ReadRxLengthFollowsTheDlc :
    8 = min ((answer (start [0, 0, 0, 0, 0, 0x0F]) 5).toNat % 16) 8 ∧
    0 = min ((answer (start [0, 0, 0, 0, 0, 0xF0]) 5).toNat % 16) 8 := by decide

theorem wit_BusCommandFrame :
    isBusCommand .rts0 = true ∧ nextIs (exec .rts0 (start [])) fun _ => true := by decide

theorem wit_SetBitrateWritesItsRowOrNothing :
    ((10 : BitVec 32).toNat, (0x27 : Byte), (0xBF : Byte), (0x07 : Byte)) ∈ statedRates ∧
    ((1000 : BitVec 32).toNat, (0x00 : Byte), (0xA0 : Byte), (0x02 : Byte)) ∈ statedRates ∧
    (9 : BitVec 32).toNat ∉ statedRates.map Prod.fst ∧ (1001 : BitVec 32).toNat ∉ statedRates.map Prod.fst := by decide

/-- The pending bits of buffers 0, 1 and 2 that SEND's poll would be answered. -/
def pendingBits (s : State) : Bool × Bool × Bool :=
  ((answer s 1).getLsbD s.cfg.txPendingBit0, (answer s 1).getLsbD s.cfg.txPendingBit1,
    (answer s 1).getLsbD s.cfg.txPendingBit2)

/-- The four clauses of SendUsesTheFirstFreeBuffer, by the answers 0x00, 0x04, 0x14 and 0x54. -/
theorem wit_SendUsesTheFirstFreeBuffer :
    pendingBits (start [9, 0x00]) = (false, false, false) ∧ pendingBits (start [9, 0x04]) = (true, false, false) ∧
    pendingBits (start [9, 0x14]) = (true, true, false) ∧ pendingBits (start [9, 0x54]) = (true, true, true) := by decide

theorem wit_ReceiveReadsAndClears :
    ((1 : Byte) = 1 ∨ (1 : Byte) = 3) ∧ ((3 : Byte) = 1 ∨ (3 : Byte) = 3) ∧ (2 : Byte) = 2 ∧
    ((0 : Byte) ≠ 1 ∧ (0 : Byte) ≠ 2 ∧ (0 : Byte) ≠ 3) ∧ ((4 : Byte) ≠ 1 ∧ (4 : Byte) ≠ 2 ∧ (4 : Byte) ≠ 3) := by decide

theorem wit_SetFilterWritesThePair :
    ((1 : Byte), (1 : Byte), (0x00 : Byte)) ∈ statedFilters ∧ ((2 : Byte), (4 : Byte), (0x18 : Byte)) ∈ statedFilters ∧
    ((1 : Byte), (3 : Byte)) ∉ statedFilters.map (fun x => (x.1, x.2.1)) ∧
    ((2 : Byte), (5 : Byte)) ∉ statedFilters.map (fun x => (x.1, x.2.1)) ∧
    ((1 : Byte), (0 : Byte)) ∉ statedFilters.map (fun x => (x.1, x.2.1)) := by decide

theorem wit_SetMaskWritesThePair :
    (1 : Byte) = 1 ∧ (2 : Byte) = 2 ∧ ((0 : Byte) ≠ 1 ∧ (0 : Byte) ≠ 2) ∧ ((3 : Byte) ≠ 1 ∧ (3 : Byte) ≠ 2) := by decide

theorem wit_AvailabilityIsTwoBitsOfTheAnswer :
    (start []).cfg.availSource = .rxStatus ∧
    ({ start [] with cfg := { defaultConfig with availSource := .readStatus } } : State).cfg.availSource = .readStatus := by
  decide

theorem wit_OperationsWithNoTransaction :
    (start []).intPrev = .high ∧ ({ start [] with intPrev := .low } : State).intPrev = .low := by decide

theorem wit_FifoPopReturnsTheHead :
    (FifoOk (fifo3 1 [none, none, none] 0) ∧ (fifo3 1 [none, none, none] 0).fifoSize = 0) ∧
    (FifoOk (fifo3 2 [some frameB, none, some frameA] 2) ∧
      (fifo3 2 [some frameB, none, some frameA] 2).fifoSize ≠ 0) := by decide

theorem wit_FifoPopFaultsOnlyOnAnUnwrittenSlot :
    (fifo3 0 [none, none, none] 1).fifoSize ≠ 0 ∧ fifoSlot (fifo3 0 [none, none, none] 1) 0 = none ∧
    exec .fifoPop (fifo3 0 [none, none, none] 1) = .fault (.unwrittenFifoSlot 0) := ⟨by decide, rfl, rfl⟩

theorem wit_HostOperationFrame :
    isBusCommand .fifoPop = false ∧ nextIs (exec .fifoPop (fifo3 0 [some frameA, none, none] 1)) fun _ => true := by
  decide

/-- FailExactlyForTheStatedCauses and FailedValidationChangesNothing: RECEIVE 0 answers a next state with FAIL. -/
theorem wit_FailedValidationChangesNothing :
    isBusCommand (.receive 0) = false ∧
    nextIs (exec (.receive 0) (start [])) fun t =>
      decide (t.results = (start []).results ++ [{ code := .fail, value := none, frame := .absent }]) := by decide

theorem wit_EveryResetIsFollowedByTheDelay :
    isBusCommand .hardReset = false ∧ isBusCommand (.initializeOp 0 1) = false ∧
    nextIs (exec .hardReset (start [])) (fun t => decide ([0xC0] ∈ mosiOf t.busLog)) ∧
    nextIs (exec (.initializeOp 0 1) (start [])) (fun t => decide ([0xC0] ∈ mosiOf t.busLog)) := by decide

/-- Two headers that differ in every ignored bit. -/
theorem wit_DecodeIgnoresTheOtherHeaderBits :
    let r : RxRead := { sidh := 0x24, sidl := 0x60, eid8 := 0, eid0 := 0, dlc := 0x01, payload := [7] }
    let r' : RxRead := { sidh := 0x24, sidl := 0x7F, eid8 := 1, eid0 := 2, dlc := 0xF1, payload := [7] }
    r ≠ r' ∧ r.sidh = r'.sidh ∧ r.sidl.toNat / 32 = r'.sidl.toNat / 32 ∧ r.dlc.toNat % 16 = r'.dlc.toNat % 16 ∧
      r.payload = r'.payload := by decide

/-- W4: the bytes SEND 0x7FF, 1, [7] loads, and a chip that answers them. -/
theorem wit_SentFrameReadBackIsTheSame :
    (nextIs (exec (.send 0x7FF (BitVec.ofNat 8 1) #v[7, 0, 0, 0, 0, 0, 0, 0]) (start [9, 0, 1, 1, 1, 1, 1, 1, 1, 1]))
      fun t => decide (t.busLog = [.txn [⟨0xA0, 9⟩, ⟨0, 0⟩],
        .txn [⟨0x40, 1⟩, ⟨0xFF, 1⟩, ⟨0xE0, 1⟩, ⟨0, 1⟩, ⟨0, 1⟩, ⟨1, 1⟩, ⟨7, 1⟩], .txn [⟨0x81, 1⟩]])) ∧
    (List.range 6).map (fun k => answer (start [9, 0xFF, 0xE0, 0, 0, 1, 7]) (k + 1)) = [0xFF, 0xE0, 0, 0, 1, 7] := by
  decide

/-- Both clauses of DrainStartsAsTheModeAllows; POLLED is in the second. -/
theorem wit_DrainStartsAsTheModeAllows :
    (let s := { start [] with schedule := [.drain], intPrev := .low }
     s.cfg.wellFormed = true ∧ s.schedule = .drain :: [] ∧ s.drainState = .idle ∧ DrainMayStart s) ∧
    ¬ DrainMayStart { withMode .polled (start []) with schedule := [.drain], intPrev := .low, edgeLatch := true } ∧
    ¬ DrainMayStart { start [] with schedule := [.drain] } := by decide

/-- Every value the query of DrainIterationQueriesReceivesRoutes can answer. -/
theorem wit_DrainIterationQueriesReceivesRoutes :
    (let s := { start [9, 0x00] with schedule := [.drain], drainState := .draining }
     s.cfg.wellFormed = true ∧ s.schedule = .drain :: [] ∧ s.drainState = .draining ∧ s.rstN = .high) ∧
    availAnswered (start [9, 0x00]) = 0 ∧ availAnswered (start [9, 0x40]) = 1 ∧ availAnswered (start [9, 0x80]) = 2 ∧
    availAnswered (start [9, 0xC0]) = 3 := by decide

theorem wit_OnlyAnEmptyQueryEndsADrain :
    let s := { start [9, 0x00] with schedule := [.drain], drainState := .draining }
    s.drainState = .draining ∧ s.cfg.wellFormed = true ∧ s.rstN = .high ∧ (nextTurn s).1 = .drain ∧
      nextIs (step s) fun t => decide (t.drainState = .idle) := by decide

theorem wit_AFrameIsNeverDeliveredTwice :
    let s := { start [9, 0x40, 9, 0, 0x20, 0, 0, 0] with schedule := [.drain], drainState := .draining }
    (nextTurn s).1 = .drain ∧ s.cbAttached = false ∧ nextIs (step s) (fun t => decide (t.fifoSize = 1)) ∧
      nextIs (step { s with cbAttached := true }) fun t => decide (t.cbLog.length = 1) := by decide

theorem wit_InterruptPendingIsZeroUnderLevel :
    let s := presenting .interruptPending
    s.cfg.drainMode = .level ∧ s.schedule = .host :: [] ∧ s.requests = encode 0 .interruptPending :: [] ∧
      decodePresented s.cfg.dummyByte (encode 0 .interruptPending) = .ok .interruptPending ∧
      nextIs (step s) fun t => decide (t.requests = []) := by decide

theorem wit_TheLineAndItsEdgeAreRecorded :
    let s := { withMode .edge (start []) with schedule := [.env (.setInt .low)] }
    s.cfg.wellFormed = true ∧ s.schedule = .env (.setInt .low) :: [] ∧ s.cfg.drainMode = .edge ∧ s.intPrev = .high ∧
      (start []).cfg.drainMode ≠ .edge := by decide

theorem wit_AMissedEdgeStartsNoDrain :
    let s := { withMode .edge (start []) with schedule := [.drain], intPrev := .low }
    s.schedule = [.drain] ++ [] ∧ s.cfg.drainMode = .edge ∧ s.drainState = .idle ∧ s.edgeLatch = false ∧
      s.intPrev = .low ∧ (∀ turn ∈ [Turn.drain], turn ≠ .env (.setInt .high) ∧ turn ≠ .env (.setRst .low)) ∧
      nextIs (Host.Core.run Sys2Proof.core 1 s) fun _ => true := by decide

/-- Under both sources, from IDLE and from DRAINING, with ENV turns that keep the line low: five DRAIN turns make two
queries from IDLE and three from DRAINING. -/
theorem wit_AHeldLineLocksTheHostOut :
    let turns : List Turn :=
      [.drain, .host, .env (.setInt .low), .drain, .drain, .host, .drain, .env (.setRst .high), .drain]
    ∀ x ∈ [(AvailSource.rxStatus, DrainState.idle, (0x3F : Byte)), (.readStatus, .draining, 0xFC)],
      let s : State := { start [9, x.2.2, 9, x.2.2, 9, x.2.2] with
        cfg := { defaultConfig with availSource := x.1 }
        drainState := x.2.1, schedule := turns, intPrev := .low, requests := [.request (fullRequest 0x13)] }
      let moves := turns.count .drain + (if s.drainState = .draining then 1 else 0)
      s.cfg.wellFormed = true ∧ s.schedule = turns ++ [] ∧ s.cfg.drainMode = .level ∧ s.rstN = .high ∧
        s.intPrev = .low ∧ (∀ turn ∈ turns, turn ≠ .env (.setInt .high) ∧ turn ≠ .env (.setRst .low)) ∧
        moves = 5 + (if x.2.1 = .draining then 1 else 0) ∧
        (∀ j, j < moves / 2 → availBits s.cfg (answer s (2 * j + 1)) = 0) ∧
        nextIs (Host.Core.run Sys2Proof.core turns.length s) (fun t =>
          decide (mosiOf t.busLog = List.replicate (moves / 2) (availMosi s)) && decide (t.requests = s.requests)) := by
  decide

/-- A FIFO of one: full, and with room. -/
theorem wit_PushAppendsOrDrops :
    let full := { start [] with
      cfg := { defaultConfig with fifoN := 1 }, fifoBuf := [some frameA], fifoSize := 1 }
    let room := { full with fifoBuf := [none], fifoSize := 0 }
    FrameOk frameB ∧ FifoOk full ∧ full.fifoSize = full.cfg.fifoN ∧ FifoOk room ∧ room.fifoSize < room.cfg.fifoN := by
  decide

theorem wit_PopTakesTheOldest :
    FifoOk (fifo3 2 [none, none, some frameA] 1) ∧ (fifo3 2 [none, none, some frameA] 1).fifoSize ≠ 0 := by decide

/-- More frames than FIFO_N, and as many pops as FIFO_N. -/
theorem wit_FifoOrderIsPushOrder :
    let s := fifo3 2 [none, none, none] 0
    let fs := [frameA, frameB, frameA, frameB]
    FifoOk s ∧ s.fifoSize = 0 ∧ (∀ f ∈ fs, FrameOk f) ∧ 3 ≤ fs.length ∧ 3 ≤ s.cfg.fifoN := by decide

theorem wit_OnlyTheDrainWritesTheTailSlot :
    let s := { start [9, 0x40, 9, 0, 0x20, 0, 0, 0] with schedule := [.drain], drainState := .draining }
    nextIs (step s) fun t => decide (t.fifoBuf ≠ s.fifoBuf) := by decide

/-- Each of the three things, and HARD_RESET. -/
theorem wit_OnlyThreeThingsShrinkTheFifo :
    let s := fifo3 0 [some frameA, none, none] 1
    (nextIs (step { s with schedule := [.host], requests := [encode 0 .fifoPop] }) fun t =>
      decide (t.fifoSize < 1)) ∧
    (nextIs (step { s with schedule := [.host], requests := [encode 0 (.initializeOp 500 0)] }) fun t =>
      decide (t.fifoSize < 1)) ∧
    (nextIs (step { s with schedule := [.env (.setRst .low)] }) fun t => decide (t.fifoSize < 1)) ∧
    (nextIs (exec .hardReset s) fun _ => true) := by decide

theorem wit_BlockResetTakesEffectAtOnce :
    let s := { start [] with schedule := [.env (.setRst .low)] }
    let released : State := { s with schedule := [.env (.setRst .high)], rstN := .low, requests := [encode 0 .fifoPop] }
    s.cfg.wellFormed = true ∧ s.schedule = .env (.setRst .low) :: [] ∧
      ({ s with schedule := [.drain], rstN := .low } : State).rstN = .low ∧
      released.cfg.wellFormed = true ∧ released.schedule = .env (.setRst .high) :: [] ∧
      nextIs (step released) (fun t => decide (t.rstN = .high) && decide (t.requests = released.requests)) := by
  decide

/-- EveryStepKeepsTheBlockInvariant, NoStepFaultsUnderTheInvariant: the invariant with a frame in the FIFO and
one in the callback log, and a step from there. -/
theorem wit_BlockOk :
    let s := { fifo3 2 [none, none, some frameA] 1 with
      cbLog := [frameB], schedule := [.host], requests := [encode 0 .fifoPop] }
    BlockOk s ∧ nextIs (step s) (fun t => decide (t.fifoSize = 0)) := by
  refine ⟨⟨by decide, by decide, rfl, by decide, ?_, by decide, by decide, by decide⟩, by decide⟩
  intro r h
  cases h

theorem wit_EveryRecordedTransactionIsACommand :
    LogLegal State.reset.cfg.dummyByte State.reset.busLog ∧
    nextIs (step (presenting (.setMask 1 0x7FF))) (fun t => decide (t.busLog.length = 2)) :=
  ⟨(by intro bytes h; cases h), by decide⟩

theorem wit_TheLogRecordsEveryAnswerInOrder :
    (nextTurn (presenting .hardReset)).1 ≠ .env (.setRst .low) ∧
    nextIs (step (presenting .hardReset)) (fun t => decide (t.busLog.length = 2)) := by decide

end Sys2Proof.Tests
end

