-- ==== Sys2Proof/Proofs/Scope.lean ====
section
/-! PROOFS. Which steps are refused, and O11 (spec 00_scope R7). -/

namespace Sys2Proof.Machine

/-- Every arm but FIFO_POP's answers a next state whatever the state. -/
theorem exec_next_of_ne_fifoPop {i : Instr} (h : i ≠ .fifoPop) (s : State) : ∃ t, exec i s = .next t := by
  cases i with
  | fifoPop => exact absurd rfl h
  | _ => exact ⟨_, rfl⟩

/-- FIFO_POP answers a next state but for an occupied slot that was never written (R30, log 10). -/
theorem exec_fifoPop_cases (s : State) :
    (∃ t, exec .fifoPop s = .next t) ∨
      (s.fifoSize ≠ 0 ∧ fifoSlot s s.fifoHead = none ∧
        exec .fifoPop s = .fault (.unwrittenFifoSlot s.fifoHead)) := by
  simp only [exec, execFifoPop]
  split
  · exact .inl ⟨_, rfl⟩
  · next hn =>
    split
    · exact .inl ⟨_, rfl⟩
    · next hslot => exact .inr ⟨hn, hslot, rfl⟩

theorem exec_ne_refused (i : Instr) (s : State) (r : Refusal) : exec i s ≠ .refused r := by
  by_cases hi : i = .fifoPop
  · subst hi
    obtain ⟨t, ht⟩ | ⟨-, -, hf⟩ := exec_fifoPop_cases s
    · simp [ht]
    · simp [hf]
  · obtain ⟨t, ht⟩ := exec_next_of_ne_fifoPop hi s
    simp [ht]

/-- The host turn is refused for one cause only: presented bytes that are no command (R79, log 20). -/
theorem hostTurn_refused_cases {s : State} {r : Refusal} (h : hostTurn s = .refused r) :
    r = .neverIssuedCommand ∧ ∃ bytes ps e, s.requests = .command bytes :: ps ∧ HostMayStep s ∧
      decodeCommand s.cfg.dummyByte bytes = .error e := by
  by_cases hm : HostMayStep s
  · cases hr : s.requests with
    | nil => simp [hostTurn, hr] at h
    | cons p ps =>
      rw [hostTurn_run hr hm] at h
      unfold runPresented at h
      split at h
      · exact absurd h (exec_ne_refused _ _ _)
      · cases h
      · next e bytes hd =>
        cases h
        exact ⟨rfl, bytes, ps, e, rfl, hm, hd⟩
  · rw [hostTurn_wait hm] at h
    cases h

theorem takeTurn_ne_illFormedConfiguration (t : Turn) (s : State) :
    takeTurn t s ≠ .refused .illFormedConfiguration := by
  intro h
  cases t with
  | env e => cases h
  | drain => cases h
  | host =>
    obtain ⟨hr, -⟩ := hostTurn_refused_cases h
    cases hr

/-- What `Config.wellFormed` excludes: a FIFO of no entries. -/
theorem wellFormed_iff_fifoN_ne_zero (c : Config) : c.wellFormed = true ↔ c.fifoN ≠ 0 := by
  simp [Config.wellFormed, Nat.one_le_iff_ne_zero]

theorem step_illFormed {s : State} (h : s.cfg.wellFormed ≠ true) :
    step s = .refused .illFormedConfiguration := by
  simp [step, h]

/-- Settles O11: `step` refuses an ill-formed configuration before any turn, and no agent's turn answers that
refusal. -/
theorem onlyAnEmptyFifoConfigurationIsRefused : Obligations.OnlyAnEmptyFifoConfigurationIsRefused := by
  unfold Obligations.OnlyAnEmptyFifoConfigurationIsRefused
  intro s
  constructor
  · intro h
    by_contra hn
    rw [step_ok ((wellFormed_iff_fifoN_ne_zero s.cfg).mpr hn)] at h
    exact takeTurn_ne_illFormedConfiguration _ _ h
  · intro h0
    exact step_illFormed fun hw => (wellFormed_iff_fifoN_ne_zero s.cfg).mp hw h0

end Sys2Proof.Machine
end

