-- ==== Sys2Proof/Proofs/Transactions.lean ====
section
/-! PROOFS. O13 (spec 40_register_interface R100 to R108): the stated bytes of the nine transactions. -/

namespace Sys2Proof.Machine

/-! ### The command byte of each buffer, R72's formula evaluated -/

theorem loadTxCommand_bytes :
    ∀ x ∈ [(TxBuffer.b0, (0x40 : Byte)), (.b1, 0x42), (.b2, 0x44)], loadTxCommand x.1 = x.2 := by
  decide

theorem rtsCommand_bytes :
    ∀ x ∈ [(TxBuffer.b0, (0x81 : Byte)), (.b1, 0x82), (.b2, 0x84)], rtsCommand x.1 = x.2 := by
  decide

theorem readRxCommand_bytes :
    ∀ x ∈ [(RxBuffer.b0, (0x90 : Byte)), (.b1, 0x94)], readRxCommand x.1 = x.2 := by
  decide

/-! ### The variable-length transactions -/

/-- The payload length by the DLC in numbers: `min(DLC mod 16, 8)` (R74). -/
theorem rxPayloadLen_eq_min_toNat_mod (dlc : Byte) : rxPayloadLen dlc = min (dlc.toNat % 16) 8 := by
  simp [rxPayloadLen]

/-- R106's loop over `0 .. dlc-1` sends the whole payload when there are `dlc` bytes of it. -/
theorem tLoadTx_whole_payload (n : TxBuffer) (sidh sidl : Byte) {dlc : Byte} {payload : List Byte}
    (h : payload.length = dlc.toNat) (s : State) :
    tLoadTx n sidh sidl dlc payload s =
      afterTxn s ([loadTxCommand n, sidh, sidl, 0x00, 0x00, dlc] ++ payload) := by
  rw [tLoadTx_eq, List.take_of_length_le h.le]
  rfl

/-- Settles O13: the closed form of each transaction, with R72's command bytes evaluated, LOAD_TX's payload sent
whole and READ_RX's length put in numbers. -/
theorem transactionsSendTheirBytes : Obligations.TransactionsSendTheirBytes := by
  unfold Obligations.TransactionsSendTheirBytes
  intro s addr mask value sidh sidl dlc payload
  refine ⟨tReset_eq s, tRead_eq addr s, tWrite_eq addr value s, tModify_eq addr mask value s, tReadStatus_eq s,
    tRxStatus_eq s, ?loadTx, ?rts, ?readRx⟩
  case loadTx =>
    intro _ hlen x hx
    rw [tLoadTx_whole_payload x.1 sidh sidl hlen, loadTxCommand_bytes x hx]
  case rts =>
    intro x hx
    rw [tRts_eq, rtsCommand_bytes x hx]
  case readRx =>
    intro x hx n hn
    rw [tReadRx_eq, readRxMosi, readRxCommand_bytes x hx, rxPayloadLen_eq_min_toNat_mod, ← hn]

end Sys2Proof.Machine
end

