-- ==== Sys2Proof/Proofs/Codec.lean ====
section
/-! PROOFS. The frame codec in numbers, and the choice of the transmit buffer (spec 41_timing_and_codec R120 to R123,
R126). -/

namespace Sys2Proof.Machine

/-! ### The identifier split (R120) -/

theorem packId_fst (id : BitVec 16) : (packId id).1 = idHigh id := by
  apply BitVec.eq_of_toNat_eq
  simp [packId, idHigh, Nat.shiftRight_eq_div_pow]

theorem packId_snd (id : BitVec 16) : (packId id).2 = idLow id := by
  apply BitVec.eq_of_toNat_eq
  simp only [packId, idLow, BitVec.toNat_append, BitVec.extractLsb'_toNat, BitVec.toNat_ofNat, Nat.shiftLeft_eq,
    Nat.shiftRight_zero, Nat.zero_mod, Nat.or_zero]
  omega

theorem packId_eq (id : BitVec 16) : packId id = (idHigh id, idLow id) :=
  Prod.ext (packId_fst id) (packId_snd id)

/-- Only the eleven identifier bits of the argument are used. -/
theorem packId_mod_2048 (id : BitVec 16) : packId (BitVec.ofNat 16 (id.toNat % 2048)) = packId id := by
  have hlow : (BitVec.ofNat 16 (id.toNat % 2048)).toNat = id.toNat % 2048 := by
    rw [BitVec.toNat_ofNat]
    omega
  have hhigh8 : id.toNat % 2048 / 8 % 256 = id.toNat / 8 % 256 := by omega
  have hlow8 : id.toNat % 2048 * 32 % 256 = id.toNat * 32 % 256 := by omega
  simp only [packId_eq, idHigh, idLow, hlow, hhigh8, hlow8]

/-- SIDL's low five bits are zero: bit 3, the extended-frame bit, among them. -/
theorem packId_snd_getLsbD (id : BitVec 16) {k : Nat} (hk : k < 5) : (packId id).2.getLsbD k = false := by
  calc (packId id).2.getLsbD k = (id.extractLsb' 0 3 ++ 0#5).getLsbD k := rfl
    _ = false := by rw [BitVec.getLsbD_append, if_pos hk, BitVec.getLsbD_zero]

/-- Settles O36: both halves are the masked forms, which see the argument modulo 2^11 only. -/
theorem identifierSplitIsMasked : Obligations.IdentifierSplitIsMasked := by
  unfold Obligations.IdentifierSplitIsMasked
  intro id
  exact ⟨packId_fst id, packId_snd id, (packId_mod_2048 id).symm, packId_snd_getLsbD id (by decide)⟩

/-! ### Decoding (R121, R123) -/

theorem toNat_unpackId (sidh sidl : Byte) : (unpackId sidh sidl).toNat = sidh.toNat * 8 + sidl.toNat / 32 := by
  have hlow : (sidl.extractLsb' 5 3).toNat = sidl.toNat / 32 := by
    rw [BitVec.extractLsb'_toNat, Nat.shiftRight_eq_div_pow]
    have := sidl.isLt
    omega
  rw [unpackId, BitVec.toNat_append, ← Nat.shiftLeft_add_eq_or_of_lt (BitVec.isLt _), hlow, Nat.shiftLeft_eq]

/-- The identifier depends on SIDL through its upper three bits only. -/
theorem unpackId_congr {sidh sidl sidl' : Byte} (h : sidl.toNat / 32 = sidl'.toNat / 32) :
    unpackId sidh sidl = unpackId sidh sidl' := by
  apply BitVec.eq_of_toNat_eq
  rw [toNat_unpackId, toNat_unpackId, h]

/-- Settles O37: identifier and length in numbers, from which the ignored header bits are gone. -/
theorem decodeIgnoresTheOtherHeaderBits : Obligations.DecodeIgnoresTheOtherHeaderBits := by
  unfold Obligations.DecodeIgnoresTheOtherHeaderBits
  intro r r'
  refine ⟨toNat_unpackId r.sidh r.sidl, rxPayloadLen_eq_min_toNat_mod r.dlc, rfl, ?_⟩
  intro hsidh hsidl hdlc hpayload
  have hid : unpackId r.sidh r.sidl = unpackId r'.sidh r'.sidl := by rw [hsidh, unpackId_congr hsidl]
  have hlen : rxPayloadLen r.dlc = rxPayloadLen r'.dlc := by
    rw [rxPayloadLen_eq_min_toNat_mod, rxPayloadLen_eq_min_toNat_mod, hdlc]
  simp only [decodeFrame, hid, hlen, hpayload]

/-! ### The length (R122) -/

/-- The clamp is not negative, so as an integer it is the clamped value itself. -/
theorem coe_clampLen (length : BitVec 8) : (clampLen length : Int) = max 0 (min length.toInt 8) :=
  Int.toNat_of_nonneg (le_max_left _ _)

/-- The three cases of the clamp: a negative length, one above 8, and one that stays. -/
theorem clampLen_eq_sentLength (length : BitVec 8) : clampLen length = sentLength length := by
  have hclamp := coe_clampLen length
  unfold sentLength
  split
  · omega
  · split
    · omega
    · next hneg _ =>
      have hsigned := BitVec.toInt_eq_toNat_cond length
      omega

/-- Settles O38: the clamp is the natural number of a value that is never negative. -/
theorem sendLengthIsClamped : Obligations.SendLengthIsClamped := by
  unfold Obligations.SendLengthIsClamped
  exact coe_clampLen

/-! ### The transmit buffer (R126) -/

theorem stTxPending_b0 (c : Config) (st : Byte) : stTxPending c st .b0 = st.getLsbD c.txPendingBit0 := rfl
theorem stTxPending_b1 (c : Config) (st : Byte) : stTxPending c st .b1 = st.getLsbD c.txPendingBit1 := rfl
theorem stTxPending_b2 (c : Config) (st : Byte) : stTxPending c st .b2 = st.getLsbD c.txPendingBit2 := rfl

section selectTx
variable {c : Config} {st : Byte}

theorem selectTx_b0 (h0 : st.getLsbD c.txPendingBit0 = false) : selectTx c st = some .b0 := by
  simp only [selectTx, stTxPending_b0, h0, if_true]

theorem selectTx_b1 (h0 : st.getLsbD c.txPendingBit0 = true) (h1 : st.getLsbD c.txPendingBit1 = false) :
    selectTx c st = some .b1 := by
  simp only [selectTx, stTxPending_b0, stTxPending_b1, h0, h1, Bool.true_eq_false, if_false, if_true]

theorem selectTx_b2 (h0 : st.getLsbD c.txPendingBit0 = true) (h1 : st.getLsbD c.txPendingBit1 = true)
    (h2 : st.getLsbD c.txPendingBit2 = false) : selectTx c st = some .b2 := by
  simp only [selectTx, stTxPending_b0, stTxPending_b1, stTxPending_b2, h0, h1, h2,
    Bool.true_eq_false, if_false, if_true]

theorem selectTx_none (h0 : st.getLsbD c.txPendingBit0 = true) (h1 : st.getLsbD c.txPendingBit1 = true)
    (h2 : st.getLsbD c.txPendingBit2 = true) : selectTx c st = none := by
  simp only [selectTx, stTxPending_b0, stTxPending_b1, stTxPending_b2, h0, h1, h2, Bool.true_eq_false, if_false]

end selectTx

/-- Settles O39: the four patterns of the three pending bits exclude each other, and each has its own answer. -/
theorem selectTxTakesTheFirstFree : Obligations.SelectTxTakesTheFirstFree := by
  unfold Obligations.SelectTxTakesTheFirstFree
  intro c st
  cases h0 : st.getLsbD c.txPendingBit0 with
  | false => simp [selectTx_b0 h0]
  | true =>
    cases h1 : st.getLsbD c.txPendingBit1 with
    | false => simp [selectTx_b1 h0 h1]
    | true =>
      cases h2 : st.getLsbD c.txPendingBit2 with
      | false => simp [selectTx_b2 h0 h1 h2]
      | true => simp [selectTx_none h0 h1 h2]

end Sys2Proof.Machine
end

