-- ==== Sys2Proof/Proofs/TimingAndFrames.lean ====
section
/-! PROOFS. SET_BITRATE, SEND and RECEIVE in closed form (spec 41_timing_and_codec R124, R125, R127 to R129). -/

namespace Sys2Proof.Machine

/-! ### SET_BITRATE (R124, R125) -/

/-- No rate stands twice in the table, so looking a row's rate up finds that row. -/
theorem lookup_timingTable : ∀ row ∈ statedRates, timingTable.lookup row.1 = some row.2 := by
  decide

theorem timing_of_mem_statedRates {khz : BitVec 32} {c1 c2 c3 : Byte} (h : (khz.toNat, c1, c2, c3) ∈ statedRates) :
    timing khz = some (c1, c2, c3) :=
  lookup_timingTable _ h

theorem timing_of_not_mem_statedRates {khz : BitVec 32} (h : khz.toNat ∉ statedRates.map Prod.fst) :
    timing khz = none := by
  refine List.lookup_eq_none_iff.mpr fun row hrow => ?_
  exact bne_iff_ne.mpr fun heq => h (heq ▸ List.mem_map_of_mem hrow)

/-- Settles O18: `timing` finds exactly the stated rows, and the body writes the row found or nothing. -/
theorem setBitrateWritesItsRowOrNothing : Obligations.SetBitrateWritesItsRowOrNothing := by
  unfold Obligations.SetBitrateWritesItsRowOrNothing
  intro s khz
  constructor
  · intro c1 c2 c3 hrow
    simp only [exec, execSetBitrate, setBitrateBody_some (timing_of_mem_statedRates hrow)]
    rfl
  · intro hrate
    simp only [exec, execSetBitrate, setBitrateBody_none (timing_of_not_mem_statedRates hrate)]

/-! ### SEND (R127) -/

/-- The LOAD_TX that SEND issues sends the masked identifier, the clamped length and that many data bytes. -/
theorem tLoadTx_send (n : TxBuffer) (id : BitVec 16) (length : BitVec 8) (data : Vector Byte 8) (s : State) :
    tLoadTx n (packId id).1 (packId id).2 (BitVec.ofNat 8 (clampLen length)) (data.toList.take (clampLen length)) s =
      afterTxn s (loadTxBytes (loadTxCommand n) (idHigh id) (idLow id) (BitVec.ofNat 8 (sentLength length))
        (data.toList.take (sentLength length))) := by
  have hlen : (data.toList.take (clampLen length)).length = (BitVec.ofNat 8 (clampLen length)).toNat := by
    have hok := loadTxOperandsOk_send length data
    simp only [loadTxOperandsOk, Bool.and_eq_true, decide_eq_true_eq] at hok
    exact hok.2
  rw [tLoadTx_whole_payload n _ _ hlen, packId_fst, packId_snd, clampLen_eq_sentLength]
  rfl

section send
variable {s : State} (id : BitVec 16) (length : BitVec 8) (data : Vector Byte 8)

/-- With a free buffer `n`: the poll, LOAD_TX of `n`, RTS of `n`, OK. -/
theorem exec_send_of_selectTx_some {n : TxBuffer} (h : selectTx s.cfg (answer s 1) = some n) :
    exec (.send id length data) s = .next (deliver (codeOnly .ok) (afterTxns s
      [[0xA0, s.cfg.dummyByte],
       loadTxBytes (loadTxCommand n) (idHigh id) (idLow id) (BitVec.ofNat 8 (sentLength length))
         (data.toList.take (sentLength length)),
       [rtsCommand n]])) := by
  simp only [exec, execSend, tReadStatus_eq, sendOnStatus, afterTxn_cfg, h, tLoadTx_send, tRts_eq]
  rfl

/-- With no free buffer: the poll, FAIL. -/
theorem exec_send_of_selectTx_none (h : selectTx s.cfg (answer s 1) = none) :
    exec (.send id length data) s =
      .next (deliver (codeOnly .fail) (afterTxns s [[0xA0, s.cfg.dummyByte]])) := by
  simp only [exec, execSend, tReadStatus_eq, sendOnStatus, afterTxn_cfg, h]
  rfl

end send

/-- Settles O19: the poll's answer selects the first free buffer, and R72 gives that buffer's two command bytes. -/
theorem sendUsesTheFirstFreeBuffer : Obligations.SendUsesTheFirstFreeBuffer := by
  unfold Obligations.SendUsesTheFirstFreeBuffer
  intro s id length data pending frame sent
  refine ⟨fun h0 => ?b0, fun h0 h1 => ?b1, fun h0 h1 h2 => ?b2, fun h0 h1 h2 => ?none⟩
  case b0 => exact exec_send_of_selectTx_some id length data (n := .b0) (selectTx_b0 h0)
  case b1 => exact exec_send_of_selectTx_some id length data (n := .b1) (selectTx_b1 h0 h1)
  case b2 => exact exec_send_of_selectTx_some id length data (n := .b2) (selectTx_b2 h0 h1 h2)
  case none => exact exec_send_of_selectTx_none id length data (selectTx_none h0 h1 h2)

/-! ### RECEIVE (R128, R129) -/

/-- The frame of the coming answers, by bit fields and in numbers. -/
theorem frameAnswered_eq_frameHere (s : State) : frameAnswered s = frameHere s := by
  have hid : unpackId (answer s 1) (answer s 2) =
      BitVec.ofNat 11 ((answer s 1).toNat * 8 + (answer s 2).toNat / 32) := by
    rw [← toNat_unpackId, BitVec.ofNat_toNat, BitVec.setWidth_eq]
  simp only [frameAnswered, frameHere, hid, rxPayloadLen_eq_min_toNat_mod]

/-- A channel that names buffer `b`: READ_RX of `b`, the MODIFY that clears its flag, OK with the frame answered. -/
theorem exec_receive_of_resolveRx_some {channel : Byte} {b : RxBuffer} (h : resolveRx channel = some b) (s : State) :
    exec (.receive channel) s =
      .next (deliver (okFrame (frameHere s)) (afterReceive s (readRxCommand b) (rxClearMask s.cfg b))) := by
  simp only [exec, execReceive, recv_some h, frameAnswered_eq_frameHere, readRxMosi, rxPayloadLen_eq_min_toNat_mod]
  rfl

theorem resolveRx_eq_none {channel : Byte} (h1 : channel ≠ 1) (h2 : channel ≠ 2) (h3 : channel ≠ 3) :
    resolveRx channel = none := by
  unfold resolveRx
  split
  · exact absurd rfl h1
  · exact absurd rfl h2
  · exact absurd rfl h3
  · rfl

/-- Settles O20: channels 1 and 3 name buffer 0, channel 2 buffer 1, any other channel none. -/
theorem receiveReadsAndClears : Obligations.ReceiveReadsAndClears := by
  unfold Obligations.ReceiveReadsAndClears
  intro s channel
  refine ⟨?buffer0, ?buffer1, ?invalid⟩
  case buffer0 =>
    rintro (rfl | rfl)
    · exact exec_receive_of_resolveRx_some (b := .b0) rfl s
    · exact exec_receive_of_resolveRx_some (b := .b0) rfl s
  case buffer1 =>
    rintro rfl
    exact exec_receive_of_resolveRx_some (b := .b1) rfl s
  case invalid =>
    intro h1 h2 h3
    simp only [exec, execReceive, recv_none (resolveRx_eq_none h1 h2 h3)]

end Sys2Proof.Machine
end

