-- ==== Sys2Proof/Proofs/FilterBank.lean ====
section
/-! PROOFS. The filter bank: which slots are valid, and what each operation writes
(spec 42_filter_bank R150 to R155). -/

namespace Sys2Proof.Machine

/-- The pair that R152 and R153 write, the identifier split in numbers. -/
theorem writePair_eq_pairWrites (base : Byte) (id : BitVec 16) (s : State) :
    writePair base id s = afterTxns s (pairWrites base id) := by
  rw [writePair_eq, packId_fst, packId_snd, pairWrites]

/-! ### SET_FILTER (R150, R152) -/

/-- The model's filter slots are exactly the rows of R150's table. -/
theorem filterBase_eq_some_iff {channel index base : Byte} :
    filterBase channel index = some base ↔ (channel, index, base) ∈ statedFilters := by
  constructor
  · intro h
    unfold filterBase at h
    split at h <;> cases h
    all_goals decide
  · intro h
    simp only [statedFilters, List.mem_cons, List.not_mem_nil, or_false, Prod.mk.injEq] at h
    obtain ⟨rfl, rfl, rfl⟩ | ⟨rfl, rfl, rfl⟩ | ⟨rfl, rfl, rfl⟩ |
      ⟨rfl, rfl, rfl⟩ | ⟨rfl, rfl, rfl⟩ | ⟨rfl, rfl, rfl⟩ := h
    all_goals rfl

theorem filterBase_eq_none {channel index : Byte}
    (h : (channel, index) ∉ statedFilters.map (fun x => (x.1, x.2.1))) : filterBase channel index = none :=
  Option.eq_none_iff_forall_ne_some.mpr fun _ hbase =>
    h (List.mem_map_of_mem (f := fun x => (x.1, x.2.1)) (filterBase_eq_some_iff.mp hbase))

/-- Settles O21: `filterBase` is exactly R150's table, and the slot found is written as a pair. -/
theorem setFilterWritesThePair : Obligations.SetFilterWritesThePair := by
  unfold Obligations.SetFilterWritesThePair
  intro s channel index id
  constructor
  · intro base hrow
    simp only [exec, execSetFilter, filterBase_eq_some_iff.mpr hrow, writePair_eq_pairWrites]
  · intro hpair
    simp only [exec, execSetFilter, filterBase_eq_none hpair]

/-! ### SET_MASK (R151, R153) -/

theorem exec_setMask_of_maskBase_some {channel base : Byte} (h : maskBase channel = some base) (id : BitVec 16)
    (s : State) :
    exec (.setMask channel id) s = .next (deliver (codeOnly .ok) (afterTxns s (pairWrites base id))) := by
  simp only [exec, execSetMask, h, writePair_eq_pairWrites]

theorem maskBase_eq_none {channel : Byte} (h1 : channel ≠ 1) (h2 : channel ≠ 2) : maskBase channel = none := by
  unfold maskBase
  split
  · exact absurd rfl h1
  · exact absurd rfl h2
  · rfl

/-- Settles O22: channel 1 has its mask pair at 0x20, channel 2 at 0x24, and no other channel has one. -/
theorem setMaskWritesThePair : Obligations.SetMaskWritesThePair := by
  unfold Obligations.SetMaskWritesThePair
  intro s channel id
  refine ⟨?channel1, ?channel2, ?invalid⟩
  case channel1 =>
    rintro rfl
    exact exec_setMask_of_maskBase_some rfl id s
  case channel2 =>
    rintro rfl
    exact exec_setMask_of_maskBase_some rfl id s
  case invalid =>
    intro h1 h2
    simp only [exec, execSetMask, maskBase_eq_none h1 h2]

/-! ### FILTER_ON, FILTER_OFF (R154, R155) -/

/-- Settles O23: each operation is two WRITEs, to RXB0CTRL and then to RXB1CTRL. -/
theorem filteringWritesBothControls : Obligations.FilteringWritesBothControls := by
  unfold Obligations.FilteringWritesBothControls
  intro s
  constructor
  · simp only [exec, execFilterOn, tWrite_eq, afterTxns_cons, afterTxns_nil, addrRxb0ctrl, addrRxb1ctrl]
  · simp only [exec, execFilterOff, tWrite_eq, afterTxns_cons, afterTxns_nil, addrRxb0ctrl, addrRxb1ctrl]

end Sys2Proof.Machine
end

