-- ==== Sys2Proof/Proofs/ReceiveDispatcher.lean ====
section
/-! PROOFS. The receive dispatcher: how a drain starts, what an iteration does and what ends it, and the host
operations beside it (spec 43_receive_dispatcher R171 to R179; 44 R193; 45 R216). -/

namespace Sys2Proof.Machine

/-! ### The availability query (R170, R171) -/

theorem toNat_availOfRxStatus (rx : Byte) : (availOfRxStatus rx).toNat = rx.toNat / 64 := by
  have := rx.isLt
  rw [availOfRxStatus, BitVec.extractLsb'_toNat, Nat.shiftRight_eq_div_pow]
  omega

theorem toNat_availOfReadStatus (st : Byte) : (availOfReadStatus st).toNat = st.toNat % 4 := by
  rw [availOfReadStatus, BitVec.extractLsb'_toNat, Nat.shiftRight_zero]

/-- Under either source: the one query, and the two bits of its answer as the value. -/
theorem exec_availableChannels_eq (s : State) :
    exec .availableChannels s =
      .next (deliver (okValue (availAnswered s).toNat) (afterTxns s [availMosi s])) := by
  simp only [exec, execAvailableChannels, availQuery_eq, afterTxns_cons, afterTxns_nil]

/-- Settles O24: the source selects the query's command byte and the two bits. -/
theorem availabilityIsTwoBitsOfTheAnswer : Obligations.AvailabilityIsTwoBitsOfTheAnswer := by
  unfold Obligations.AvailabilityIsTwoBitsOfTheAnswer
  intro s
  rw [exec_availableChannels_eq]
  constructor
  · intro hsource
    simp only [availAnswered, availBits_rxStatus hsource, toNat_availOfRxStatus, availMosi, hsource]
  · intro hsource
    simp only [availAnswered, availBits_readStatus hsource, toNat_availOfReadStatus, availMosi, hsource]

/-! ### Operations with no transaction (R178, R179, R193, R216) -/

theorem exec_interruptPending_low {s : State} (h : s.intPrev = .low) :
    exec .interruptPending s = .next (deliver (okValue 1) s) := by
  simp only [exec, execInterruptPending, h, if_true]

theorem exec_interruptPending_high {s : State} (h : s.intPrev = .high) :
    exec .interruptPending s = .next (deliver (okValue 0) s) := by
  simp only [exec, execInterruptPending, h, reduceCtorEq, if_false]

/-- Settles O25: the first three arms are the stated states; INTERRUPT_PENDING splits on the line. -/
theorem operationsWithNoTransaction : Obligations.OperationsWithNoTransaction := by
  unfold Obligations.OperationsWithNoTransaction
  intro s
  exact ⟨rfl, rfl, rfl, exec_interruptPending_low, exec_interruptPending_high⟩

/-! ### The start of a drain (R172) -/

/-- With the DRAIN agent's turn first in the schedule, the step is that turn. -/
theorem step_drain {s : State} {turns : List Turn} (hw : s.cfg.wellFormed = true)
    (hs : s.schedule = .drain :: turns) : step s = .next (drainTurn (withSchedule turns s)) := by
  rw [step_ok hw, nextTurn_cons hs]
  rfl

/-- Settles O41: an idle DRAIN agent enters where `DrainMayStart` holds and rests elsewhere; the schedule, which
the turn was taken from, has no part in that. -/
theorem drainStartsAsTheModeAllows : Obligations.DrainStartsAsTheModeAllows := by
  unfold Obligations.DrainStartsAsTheModeAllows
  intro s turns hw hs hidle
  rw [step_drain hw hs]
  constructor
  · intro hstart
    rw [drainTurn_starts (s := withSchedule turns s) hstart]
    rfl
  · intro hrest
    rw [drainTurn_rests (s := withSchedule turns s) hidle hrest]
    rfl

/-! ### An iteration (R173, R174, R176) -/

/-- R176 and R190 written out are `route` and the push it makes. -/
theorem route_eq_delivered (f : Frame) (s : State) : route f s = delivered f s := rfl

/-- READ_RX of a buffer and the MODIFY of its flag, with READ_RX's length in numbers. -/
theorem readRx_modify_eq_afterReceive (s : State) (b : RxBuffer) (mask : Byte) :
    afterTxn (afterTxn s (readRxMosi s b)) [0x05, addrCanintf, mask, 0x00] =
      afterReceive s (readRxCommand b) mask := by
  rw [readRxMosi, rxPayloadLen_eq_min_toNat_mod]
  rfl

/-- A drain iteration whose query finds a channel, with the frame and the transactions in numbers. -/
theorem drainIter_delivers {s : State} {b : RxBuffer} (h : availAnswered s ≠ 0#2)
    (hb : (if availAnswered s = 2#2 then RxBuffer.b1 else .b0) = b) :
    drainIter s =
      delivered (frameHere (afterTxn s (availMosi s)))
        (afterReceive (afterTxn s (availMosi s)) (readRxCommand b) (rxClearMask s.cfg b)) := by
  rw [drainIter_some h hb, readRx_modify_eq_afterReceive, frameAnswered_eq_frameHere, route_eq_delivered]

/-- Settles O42: the query's answer selects the buffer, 1 and 3 the first and 2 the second, and R72 gives the
buffer's command byte. -/
theorem drainIterationQueriesReceivesRoutes : Obligations.DrainIterationQueriesReceivesRoutes := by
  unfold Obligations.DrainIterationQueriesReceivesRoutes
  intro s turns hw hs hdraining hrst q
  have hiter : drainTurn (withSchedule turns s) = drainIter (withSchedule turns s) :=
    drainTurn_iterates hrst hdraining
  have havail : availAnswered (withSchedule turns s) = availAnswered s := rfl
  rw [step_drain hw hs, hiter]
  refine ⟨?empty, ?channel1, ?channel2⟩
  case empty =>
    intro h
    rw [drainIter_none (havail.trans h)]
    rfl
  case channel1 =>
    rintro (h | h)
    all_goals
      rw [drainIter_delivers (b := .b0) (by rw [havail, h]; decide) (by rw [havail, h]; decide)]
      rfl
  case channel2 =>
    intro h
    rw [drainIter_delivers (b := .b1) (by rw [havail, h]; decide) (by rw [havail, h]; decide)]
    rfl

/-! ### The end of an activation (R175) -/

/-- Taking the turn leaves what the drain goes by: its state, `rst_n` and the answer its query would get. -/
theorem turnTaken_keeps_drain {s u : State} (hu : (∃ rest, u = withSchedule rest s) ∨ u = countFreeTurn s) :
    u.drainState = s.drainState ∧ u.rstN = s.rstN ∧ availAnswered u = availAnswered s := by
  obtain ⟨rest, rfl⟩ | rfl := hu
  · exact ⟨rfl, rfl, rfl⟩
  · exact ⟨rfl, rfl, rfl⟩

/-- No ENV step but the block reset touches the drain. -/
theorem envTurn_drainState {e : EnvEvent} (he : e ≠ .setRst .low) (s : State) :
    (envTurn e s).drainState = s.drainState := by
  cases e with
  | setInt v => rfl
  | setRst v =>
    cases v with
    | low => exact absurd rfl he
    | high => rfl

section draining
variable {s : State} (hd : s.drainState = .draining)
include hd

theorem hostTurn_waits_draining : hostTurn s = .next s :=
  hostTurn_wait fun ⟨_, hidle, _⟩ => by rw [hd] at hidle; cases hidle

theorem drainIter_idle_iff : (drainIter s).drainState = .idle ↔ availAnswered s = 0#2 := by
  by_cases h : availAnswered s = 0#2
  · simp [drainIter_none h, h]
  · simp [drainIter_some h rfl, hd, h]

/-- While DRAINING, the DRAIN agent's turn ends the activation only out of reset and by an empty query. -/
theorem drainTurn_idle_iff : (drainTurn s).drainState = .idle ↔ s.rstN = .high ∧ availAnswered s = 0#2 := by
  cases hr : s.rstN with
  | low => simp [drainTurn_inReset hr, hd]
  | high => simp [drainTurn_iterates hr hd, drainIter_idle_iff hd]

end draining

/-- Settles O43: by whose turn it is. ENV ends the drain by the block reset only, the HOST agent waits, and the
DRAIN agent's turn ends it exactly on an empty query. -/
theorem onlyAnEmptyQueryEndsADrain : Obligations.OnlyAnEmptyQueryEndsADrain := by
  unfold Obligations.OnlyAnEmptyQueryEndsADrain
  intro s hdraining
  constructor
  · intro t hstep hidle
    obtain ⟨-, u, hu, hturn⟩ := step_cases hstep
    obtain ⟨hstate, hrst, havail⟩ := turnTaken_keeps_drain hu
    rw [hdraining] at hstate
    obtain ⟨e, he, rfl⟩ | ⟨ht, rfl⟩ | ⟨-, hhost⟩ := hturn
    · left
      by_contra hne
      rw [envTurn_drainState (fun heq => hne (heq ▸ he)), hstate] at hidle
      cases hidle
    · right
      rw [drainTurn_idle_iff hstate, hrst, havail] at hidle
      exact ⟨ht, hidle⟩
    · rw [hostTurn_waits_draining hstate] at hhost
      cases hhost
      rw [hstate] at hidle
      cases hidle
  · intro hw hr ht
    obtain ⟨hstate, hrst, havail⟩ := turnTaken_keeps_drain (nextTurn_snd s)
    refine ⟨drainTurn (nextTurn s).2, by rw [step_ok hw, ht]; rfl, ?_⟩
    rw [drainTurn_idle_iff (hstate.trans hdraining), hrst, havail]
    exact and_iff_right hr

end Sys2Proof.Machine
end

