-- ==== Sys2Proof/Proofs/RingBuffer.lean ====
section
/-! PROOFS. The ring buffer: what FIFO_POP returns, and what can take entries out of the FIFO
(spec 44_ring_buffer R192, R195). -/

namespace Sys2Proof.Machine

/-! ### FIFO_POP (R192) -/

/-- An occupied FIFO has a frame at its head: the head is the first place of the window (R30). -/
theorem fifoSlot_head_of_fifoOk {s : State} (h : FifoOk s) (hne : s.fifoSize ≠ 0) :
    ∃ f, fifoSlot s s.fifoHead = some f ∧ FrameOk f := by
  obtain ⟨-, -, hhead, -, -, hwindow⟩ := h
  have hmem : fifoSlot s s.fifoHead ∈ fifoWindow s :=
    List.mem_map.mpr ⟨0, List.mem_range.mpr (Nat.pos_of_ne_zero hne), by rw [Nat.add_zero, Nat.mod_eq_of_lt hhead]⟩
  obtain ⟨f, hslot, hf⟩ := Option.any_eq_true _ _ |>.mp (hwindow _ hmem)
  exact ⟨f, hslot, of_decide_eq_true hf⟩

theorem exec_fifoPop_empty {s : State} (h : s.fifoSize = 0) :
    exec .fifoPop s = .next (deliver { code := .ok, value := none, frame := .absent } s) := by
  simp only [exec, execFifoPop, h, if_true]

theorem exec_fifoPop_written {s : State} {f : Frame} (hne : s.fifoSize ≠ 0)
    (hslot : fifoSlot s s.fifoHead = some f) :
    exec .fifoPop s = .next (deliver (okFrame f) (fifoAdvance s)) := by
  simp only [exec, execFifoPop, hne, if_false, hslot]

/-- Settles O26: by whether the FIFO is empty; an occupied one has a written slot at its head. -/
theorem fifoPopReturnsTheHead : Obligations.FifoPopReturnsTheHead := by
  unfold Obligations.FifoPopReturnsTheHead
  intro s hok
  refine ⟨exec_fifoPop_empty, fun hne => ?_⟩
  obtain ⟨f, hslot, -⟩ := fifoSlot_head_of_fifoOk hok hne
  exact ⟨f, hslot, exec_fifoPop_written hne hslot⟩

/-! ### The FIFO's part of the state -/

/-- The four fields of the state that are the ring buffer (R21). -/
structure Fifo where
  buf : List (Option Frame)
  head : Nat
  tail : Nat
  size : Nat

def fifoOf (s : State) : Fifo where
  buf := s.fifoBuf
  head := s.fifoHead
  tail := s.fifoTail
  size := s.fifoSize

/-- Emptied, `buf` as it was (R195). -/
def Fifo.cleared (q : Fifo) : Fifo :=
  { q with head := 0, tail := 0, size := 0 }

theorem fifoOf_eq_iff {s t : State} :
    fifoOf t = fifoOf s ↔ t.fifoHead = s.fifoHead ∧ t.fifoTail = s.fifoTail ∧ t.fifoSize = s.fifoSize ∧
      t.fifoBuf = s.fifoBuf := by
  simp only [fifoOf, Fifo.mk.injEq]
  tauto

theorem fifoOf_eq_cleared_iff {s t : State} :
    fifoOf t = (fifoOf s).cleared ↔ t.fifoHead = 0 ∧ t.fifoTail = 0 ∧ t.fifoSize = 0 ∧ t.fifoBuf = s.fifoBuf := by
  simp only [fifoOf, Fifo.cleared, Fifo.mk.injEq]
  tauto

/-! What leaves the FIFO as it is: the result ports, the queues, and every transaction. -/

section
variable (s : State)

@[simp] theorem fifoOf_deliver (r : HostResult) : fifoOf (deliver r s) = fifoOf s := rfl
@[simp] theorem fifoOf_reply (kept : List Byte) : fifoOf (reply kept s) = fifoOf s := rfl
@[simp] theorem fifoOf_delay : fifoOf (delay s) = fifoOf s := rfl
@[simp] theorem fifoOf_setCallback (attached : Bool) : fifoOf (setCallback attached s) = fifoOf s := rfl
@[simp] theorem fifoOf_fifoClear : fifoOf (fifoClear s) = (fifoOf s).cleared := rfl
@[simp] theorem fifoOf_withSchedule (turns : List Turn) : fifoOf (withSchedule turns s) = fifoOf s := rfl
@[simp] theorem fifoOf_withRequests (rest : List Presented) : fifoOf (withRequests rest s) = fifoOf s := rfl
@[simp] theorem fifoOf_countFreeTurn : fifoOf (countFreeTurn s) = fifoOf s := rfl
@[simp] theorem fifoOf_afterTxn (mosi : List Byte) : fifoOf (afterTxn s mosi) = fifoOf s := rfl

@[simp] theorem fifoOf_tReset : fifoOf (tReset s).2 = fifoOf s := by
  rw [tReset_eq, fifoOf_afterTxn]
@[simp] theorem fifoOf_tRead (addr : Byte) : fifoOf (tRead addr s).2 = fifoOf s := by
  rw [tRead_eq, fifoOf_afterTxn]
@[simp] theorem fifoOf_tWrite (addr value : Byte) : fifoOf (tWrite addr value s) = fifoOf s := by
  rw [tWrite_eq, fifoOf_afterTxn]
@[simp] theorem fifoOf_tModify (addr mask value : Byte) : fifoOf (tModify addr mask value s) = fifoOf s := by
  rw [tModify_eq, fifoOf_afterTxn]
@[simp] theorem fifoOf_tReadStatus : fifoOf (tReadStatus s).2 = fifoOf s := by
  rw [tReadStatus_eq, fifoOf_afterTxn]
@[simp] theorem fifoOf_tRxStatus : fifoOf (tRxStatus s).2 = fifoOf s := by
  rw [tRxStatus_eq, fifoOf_afterTxn]
@[simp] theorem fifoOf_tLoadTx (n : TxBuffer) (sidh sidl dlc : Byte) (payload : List Byte) :
    fifoOf (tLoadTx n sidh sidl dlc payload s) = fifoOf s := by
  rw [tLoadTx_eq, fifoOf_afterTxn]
@[simp] theorem fifoOf_tRts (n : TxBuffer) : fifoOf (tRts n s) = fifoOf s := by
  rw [tRts_eq, fifoOf_afterTxn]
@[simp] theorem fifoOf_tReadRx (b : RxBuffer) : fifoOf (tReadRx b s).2 = fifoOf s := by
  rw [tReadRx_eq, fifoOf_afterTxn]

@[simp] theorem fifoOf_availQuery : fifoOf (availQuery s).2 = fifoOf s := by
  rw [availQuery_eq, fifoOf_afterTxn]
@[simp] theorem fifoOf_recv (channel : Byte) : fifoOf (recv channel s).2 = fifoOf s := by
  unfold recv
  split <;> simp
@[simp] theorem fifoOf_setBitrateBody (khz : BitVec 32) : fifoOf (setBitrateBody khz s).2 = fifoOf s := by
  unfold setBitrateBody
  split <;> simp
@[simp] theorem fifoOf_writePair (base : Byte) (id : BitVec 16) : fifoOf (writePair base id s) = fifoOf s := by
  simp [writePair]
@[simp] theorem fifoOf_sendOnStatus (st : Byte) (id : BitVec 16) (length : BitVec 8) (data : Vector Byte 8) :
    fifoOf (sendOnStatus st id length data s) = fifoOf s := by
  unfold sendOnStatus
  split <;> simp
@[simp] theorem fifoOf_initReset (performReset : BitVec 1) : fifoOf (initReset performReset s) = fifoOf s := by
  unfold initReset
  split <;> simp

end

/-! ### What each agent does to the FIFO (R195) -/

theorem fifoOf_exec_initializeOp {s t : State} {khz : BitVec 32} {performReset : BitVec 1}
    (h : exec (.initializeOp khz performReset) s = .next t) : fifoOf t = (fifoOf s).cleared := by
  cases h
  simp

/-- Every instruction but FIFO_POP and INITIALIZE leaves the FIFO as it is. -/
theorem fifoOf_exec {i : Instr} {s t : State} (hpop : i ≠ .fifoPop)
    (hinit : ∀ khz performReset, i ≠ .initializeOp khz performReset) (h : exec i s = .next t) :
    fifoOf t = fifoOf s := by
  cases i with
  | fifoPop => exact absurd rfl hpop
  | initializeOp khz performReset => exact absurd rfl (hinit khz performReset)
  | setFilter channel index id =>
    cases h
    split <;> simp
  | setMask channel id =>
    cases h
    split <;> simp
  | _ =>
    cases h
    simp

/-- The drain only adds: a frame it delivers is pushed, dropped, or given to the callback (R176, R190). -/
theorem fifoSize_le_route (f : Frame) (s : State) : s.fifoSize ≤ (route f s).fifoSize := by
  cases hcb : s.cbAttached with
  | true => rw [route_attached hcb, callbackDeliver_fifoSize]
  | false =>
    rw [route_detached hcb]
    by_cases hfull : s.fifoSize = s.cfg.fifoN
    · rw [fifoPush_full hfull]
    · rw [fifoPush_room hfull]
      exact Nat.le_succ _

theorem fifoSize_le_drainIter (s : State) : s.fifoSize ≤ (drainIter s).fifoSize := by
  by_cases h : availAnswered s = 0#2
  · rw [drainIter_none h]
    exact le_rfl
  · rw [drainIter_some h rfl]
    refine le_trans ?_ (fifoSize_le_route _ _)
    simp only [afterTxn_fifoSize, le_refl]

theorem fifoSize_le_drainTurn (s : State) : s.fifoSize ≤ (drainTurn s).fifoSize := by
  obtain h | ⟨-, -, h⟩ | ⟨-, h⟩ := drainTurn_cases s
  · rw [h]
  · rw [h]
    exact fifoSize_le_drainIter s
  · rw [h]
    exact le_rfl

/-- No ENV step but the block reset touches the FIFO. -/
theorem fifoOf_envTurn {e : EnvEvent} (he : e ≠ .setRst .low) (s : State) : fifoOf (envTurn e s) = fifoOf s := by
  cases e with
  | setInt v => rfl
  | setRst v =>
    cases v with
    | low => exact absurd rfl he
    | high => rfl

theorem fifoOf_envTurn_reset (s : State) : fifoOf (envTurn (.setRst .low) s) = (fifoOf s).cleared := rfl

/-- A HOST turn that lowers the size runs FIFO_POP or INITIALIZE. -/
theorem hostTurn_shrinks_cases {s t : State} (h : hostTurn s = .next t) (hlt : t.fifoSize < s.fifoSize) :
    ∃ p ps, s.requests = p :: ps ∧ (decodePresented s.cfg.dummyByte p = .ok .fifoPop ∨
      ∃ khz r, decodePresented s.cfg.dummyByte p = .ok (.initializeOp khz r)) := by
  obtain rfl | ⟨p, ps, hreq, -, ⟨i, hdecode, hexec⟩ | ⟨r, e, -, -, rfl⟩⟩ := hostTurn_cases h
  · exact absurd hlt (lt_irrefl _)
  · refine ⟨p, ps, hreq, ?_⟩
    by_contra! hother
    obtain ⟨hpop, hinit⟩ := hother
    have hkept : fifoOf t = fifoOf (withRequests ps s) :=
      fifoOf_exec (fun hi => hpop (hi ▸ hdecode)) (fun khz r hi => hinit khz r (hi ▸ hdecode)) hexec
    exact hlt.ne (congrArg Fifo.size hkept)
  · exact absurd hlt (lt_irrefl _)

/-- Taking the turn leaves the FIFO and what a HOST turn goes by. -/
theorem turnTaken_keeps_fifo {s u : State} (hu : (∃ rest, u = withSchedule rest s) ∨ u = countFreeTurn s) :
    fifoOf u = fifoOf s ∧ u.requests = s.requests ∧ u.cfg = s.cfg := by
  obtain ⟨rest, rfl⟩ | rfl := hu
  · exact ⟨fifoOf_withSchedule s rest, rfl, rfl⟩
  · exact ⟨fifoOf_countFreeTurn s, rfl, rfl⟩

/-- A step that lowers the size, by whose turn it was. -/
theorem step_shrinks_cases {s t : State} (h : step s = .next t) (hlt : t.fifoSize < s.fifoSize) :
    (nextTurn s).1 = .env (.setRst .low) ∨
      ((nextTurn s).1 = .host ∧ ∃ p ps, s.requests = p :: ps ∧
        (decodePresented s.cfg.dummyByte p = .ok .fifoPop ∨
          ∃ khz r, decodePresented s.cfg.dummyByte p = .ok (.initializeOp khz r))) := by
  obtain ⟨-, u, hu, hturn⟩ := step_cases h
  obtain ⟨hfifo, hreq, hcfg⟩ := turnTaken_keeps_fifo hu
  have hsize : u.fifoSize = s.fifoSize := congrArg Fifo.size hfifo
  rw [← hsize] at hlt
  obtain ⟨e, he, rfl⟩ | ⟨-, rfl⟩ | ⟨ht, hhost⟩ := hturn
  · left
    by_contra hne
    have hkept : fifoOf (envTurn e u) = fifoOf u := fifoOf_envTurn (fun heq => hne (heq ▸ he)) u
    exact hlt.ne (congrArg Fifo.size hkept)
  · exact absurd hlt (fifoSize_le_drainTurn u).not_gt
  · right
    rw [← hreq, ← hcfg]
    exact ⟨ht, hostTurn_shrinks_cases hhost hlt⟩

/-- The block reset empties the FIFO and leaves `fifo_buf`. -/
theorem fifoOf_step_blockReset {s t : State} (h : step s = .next t) (ht : (nextTurn s).1 = .env (.setRst .low)) :
    fifoOf t = (fifoOf s).cleared := by
  obtain ⟨-, u, hu, hturn⟩ := step_cases h
  obtain ⟨hfifo, -, -⟩ := turnTaken_keeps_fifo hu
  rw [ht] at hturn
  obtain ⟨e, he, rfl⟩ | ⟨hdrain, -⟩ | ⟨hhost, -⟩ := hturn
  · cases he
    rw [fifoOf_envTurn_reset, hfifo]
  · cases hdrain
  · cases hhost

/-- Settles O53: what a shrinking step is comes from each agent's effect on the FIFO; the other two parts are the
effects of the block reset, INITIALIZE and HARD_RESET. -/
theorem onlyThreeThingsShrinkTheFifo : Obligations.OnlyThreeThingsShrinkTheFifo := by
  unfold Obligations.OnlyThreeThingsShrinkTheFifo
  intro s t
  refine ⟨step_shrinks_cases, ?cleared, ?hardReset⟩
  case cleared =>
    rintro (⟨hstep, hreset⟩ | ⟨khz, performReset, hexec⟩)
    · exact fifoOf_eq_cleared_iff.mp (fifoOf_step_blockReset hstep hreset)
    · exact fifoOf_eq_cleared_iff.mp (fifoOf_exec_initializeOp hexec)
  case hardReset =>
    intro hexec
    exact fifoOf_eq_iff.mp (fifoOf_exec (by simp) (by simp) hexec)

end Sys2Proof.Machine
end

