-- ==== Sys2Proof/Proofs/ControlOps.lean ====
section
/-! PROOFS. The control, mode and error-counter operations in closed form (spec 45_control_ops R210 to R215). -/

namespace Sys2Proof.Machine

/-! ### INITIALIZE (R210) -/

theorem initReset_eq (performReset : BitVec 1) (s : State) :
    initReset performReset s = if performReset = 1 then delay (afterTxns s [[0xC0]]) else s := by
  rw [initReset, tReset_eq]
  rfl

/-- The two transactions that end INITIALIZE, whether or not the rate is supported. -/
def initTail (c : Config) : List (List Byte) :=
  [[0x02, 0x2B, c.initCaninte], [0x05, 0x0F, c.modeMask, c.modeNormal]]

/-- INITIALIZE reports the bit rate's code, and its tail follows the transactions `ts` that the rate issued. -/
theorem exec_initializeOp_of_setBitrateBody {s : State} {khz : BitVec 32} {performReset : BitVec 1} {code : Code}
    {ts : List (List Byte)}
    (h : setBitrateBody khz (initReset performReset (fifoClear s)) =
      (code, afterTxns (initReset performReset (fifoClear s)) ts)) :
    exec (.initializeOp khz performReset) s =
      .next (deliver (codeOnly code) (afterTxns (initReset performReset (fifoClear s)) (ts ++ initTail s.cfg))) := by
  simp only [exec, execInitializeOp, h, tWrite_eq, tModify_eq, afterTxns_append, initTail, afterTxns_cons,
    afterTxns_nil, addrCaninte, addrCanctrl]

/-- Settles O28: by whether the rate is one of R124's, which decides SET_BITRATE's part of the sequence. -/
theorem initializeRunsItsSequence : Obligations.InitializeRunsItsSequence := by
  unfold Obligations.InitializeRunsItsSequence
  intro s khz performReset cleared ready tail
  have hready : initReset performReset (fifoClear s) = ready := initReset_eq performReset (fifoClear s)
  rw [← hready]
  constructor
  · intro c1 c2 c3 hrow
    exact exec_initializeOp_of_setBitrateBody (ts := rateWrites c1 c2 c3)
      (setBitrateBody_some (timing_of_mem_statedRates hrow) _)
  · intro hrate
    exact exec_initializeOp_of_setBitrateBody (ts := []) (setBitrateBody_none (timing_of_not_mem_statedRates hrate) _)

/-! ### HARD_RESET (R211) -/

/-- Settles O29: the RESET transaction answers its first byte, and the delay follows it. -/
theorem hardResetReturnsTheEcho : Obligations.HardResetReturnsTheEcho := by
  unfold Obligations.HardResetReturnsTheEcho
  intro s
  simp only [exec, execHardReset, tReset_eq, afterTxns_cons, afterTxns_nil]

/-! ### SET_CONFIG_MODE, SET_SILENT_MODE (R212, R213) -/

/-- Settles O30: each operation is one MODIFY, and only the value it sends depends on `enable`. -/
theorem modeOperationsModifyCanctrl : Obligations.ModeOperationsModifyCanctrl := by
  unfold Obligations.ModeOperationsModifyCanctrl
  intro s enable
  constructor
  · simp only [exec, execSetConfigMode, tModify_eq, afterTxns_cons, afterTxns_nil, addrCanctrl, BitVec.ofNat_eq_ofNat]
  · simp only [exec, execSetSilentMode, tModify_eq, afterTxns_cons, afterTxns_nil, addrCanctrl, BitVec.ofNat_eq_ofNat]

/-! ### READ_RX_ERROR, READ_TX_ERROR (R214, R215) -/

/-- Settles O31: each operation is one READ, which answers its third byte. -/
theorem errorCountersAreRead : Obligations.ErrorCountersAreRead := by
  unfold Obligations.ErrorCountersAreRead
  intro s
  constructor
  · simp only [exec, execReadRxError, tRead_eq, afterTxns_cons, afterTxns_nil, addrRec]
  · simp only [exec, execReadTxError, tRead_eq, afterTxns_cons, afterTxns_nil, addrTec]

end Sys2Proof.Machine
end

