-- ==== Sys2Proof/Proofs/Exceptions.lean ====
section
/-! PROOFS. What the host is told of a failure: the refusal mark of a reserved request, and the FAIL of a host
operation (spec 60_exceptions R240, R253). -/

namespace Sys2Proof.Machine

/-! ### What the host is told -/

/-- The result port (R82) and the refusal mark (R83): all by which the block reports to the host (R240, R253). -/
structure HostView where
  results : List HostResult
  refused : Bool

def hostView (s : State) : HostView where
  results := s.results
  refused := s.refused

/-! What leaves both as they are: a sequencer reply, a delay, the host's changes of the FIFO and the callback, and
every transaction. -/

section
variable (s : State)

@[simp] theorem hostView_reply (kept : List Byte) : hostView (reply kept s) = hostView s := rfl
@[simp] theorem hostView_delay : hostView (delay s) = hostView s := rfl
@[simp] theorem hostView_setCallback (attached : Bool) : hostView (setCallback attached s) = hostView s := rfl
@[simp] theorem hostView_fifoClear : hostView (fifoClear s) = hostView s := rfl
@[simp] theorem hostView_fifoAdvance : hostView (fifoAdvance s) = hostView s := rfl
@[simp] theorem hostView_afterTxn (mosi : List Byte) : hostView (afterTxn s mosi) = hostView s := rfl

@[simp] theorem hostView_afterTxns (ts : List (List Byte)) : hostView (afterTxns s ts) = hostView s := by
  induction ts generalizing s with
  | nil => rfl
  | cons mosi ts ih => rw [afterTxns_cons, ih, hostView_afterTxn]

@[simp] theorem hostView_recv (channel : Byte) : hostView (recv channel s).2 = hostView s := by
  unfold recv
  split <;> simp [tReadRx_eq, tModify_eq]
@[simp] theorem hostView_setBitrateBody (khz : BitVec 32) : hostView (setBitrateBody khz s).2 = hostView s := by
  unfold setBitrateBody
  split <;> simp [tWrite_eq]
@[simp] theorem hostView_writePair (base : Byte) (id : BitVec 16) : hostView (writePair base id s) = hostView s := by
  rw [writePair_eq, hostView_afterTxns]
@[simp] theorem hostView_initReset (performReset : BitVec 1) : hostView (initReset performReset s) = hostView s := by
  rw [initReset_eq]
  split <;> simp

end

/-! ### The causes of R240's table, as the model tests them -/

theorem timing_eq_none_iff {khz : BitVec 32} : timing khz = none ↔ khz.toNat ∉ statedRates.map Prod.fst := by
  refine ⟨fun hnone hmem => ?_, timing_of_not_mem_statedRates⟩
  obtain ⟨⟨rate, c1, c2, c3⟩, hrow, hrate⟩ := List.mem_map.mp hmem
  obtain rfl : rate = khz.toNat := hrate
  rw [timing_of_mem_statedRates hrow] at hnone
  cases hnone

theorem setBitrateBody_fst_eq_fail_iff {khz : BitVec 32} {s : State} :
    (setBitrateBody khz s).1 = .fail ↔ khz.toNat ∉ statedRates.map Prod.fst := by
  rw [← timing_eq_none_iff]
  cases h : timing khz with
  | none => simp [setBitrateBody_none h]
  | some row => simp [setBitrateBody_some (c1 := row.1) (c2 := row.2.1) (c3 := row.2.2) h]

theorem selectTx_eq_none_iff {c : Config} {st : Byte} :
    selectTx c st = none ↔ ∀ bit ∈ [c.txPendingBit0, c.txPendingBit1, c.txPendingBit2], st.getLsbD bit = true := by
  obtain ⟨-, -, -, hnone⟩ := selectTxTakesTheFirstFree c st
  simpa using hnone

theorem resolveRx_eq_none_iff {channel : Byte} :
    resolveRx channel = none ↔ channel ≠ 1 ∧ channel ≠ 2 ∧ channel ≠ 3 := by
  refine ⟨fun hnone => ⟨?_, ?_, ?_⟩, fun ⟨h1, h2, h3⟩ => resolveRx_eq_none h1 h2 h3⟩
  all_goals
    rintro rfl
    cases hnone

theorem recv_code_eq_fail_iff {channel : Byte} {s : State} :
    (recv channel s).1.code = .fail ↔ channel ≠ 1 ∧ channel ≠ 2 ∧ channel ≠ 3 := by
  rw [← resolveRx_eq_none_iff]
  cases h : resolveRx channel with
  | none => simp [recv_none h]
  | some b => simp [recv_some h, okFrame]

theorem filterBase_eq_none_iff {channel index : Byte} :
    filterBase channel index = none ↔ (channel, index) ∉ statedFilters.map (fun x => (x.1, x.2.1)) := by
  refine ⟨fun hnone hmem => ?_, filterBase_eq_none⟩
  obtain ⟨⟨channel', index', base⟩, hrow, hpair⟩ := List.mem_map.mp hmem
  cases hpair
  rw [filterBase_eq_some_iff.mpr hrow] at hnone
  cases hnone

theorem maskBase_eq_none_iff {channel : Byte} : maskBase channel = none ↔ channel ≠ 1 ∧ channel ≠ 2 := by
  refine ⟨fun hnone => ⟨?_, ?_⟩, fun ⟨h1, h2⟩ => maskBase_eq_none h1 h2⟩
  all_goals
    rintro rfl
    cases hnone

/-- An operation that answers OK because a lookup found something does not answer FAIL, whose cause is that it finds
nothing. -/
theorem codeOnly_ok_eq_fail_iff {α : Type} {found : Option α} {a : α} {cause : Prop} (hsome : found = some a)
    (hnone : found = none ↔ cause) : (codeOnly .ok).code = .fail ↔ cause := by
  rw [← hnone, hsome]
  simp [codeOnly]

/-! ### What an instruction tells the host -/

/-- A bus command returns its bytes to the sequencer's caller and tells the host nothing. -/
theorem hostView_exec_busCommand {i : Instr} {s t : State} (hi : isBusCommand i = true) (h : exec i s = .next t) :
    hostView t = hostView s := by
  cases i
  case reset | read | write | modify | readStatus | rxStatus | loadTx0 | loadTx1 | loadTx2 | rts0 | rts1 | rts2 |
      readRx0 | readRx1 =>
    cases h
    simp [tReset_eq, tRead_eq, tWrite_eq, tModify_eq, tReadStatus_eq, tRxStatus_eq, tLoadTx_eq, tRts_eq, tReadRx_eq]
  all_goals cases hi

/-- FIFO_POP, where it answers a next state, delivers a result that is no failure. -/
theorem exec_fifoPop_delivers {s t : State} (h : exec .fifoPop s = .next t) :
    ∃ r u, t = deliver r u ∧ hostView u = hostView s ∧ r.code = .ok := by
  by_cases hsize : s.fifoSize = 0
  · rw [exec_fifoPop_empty hsize] at h
    cases h
    exact ⟨_, _, rfl, rfl, rfl⟩
  · cases hslot : fifoSlot s s.fifoHead with
    | some f =>
      rw [exec_fifoPop_written hsize hslot] at h
      cases h
      exact ⟨_, _, rfl, rfl, rfl⟩
    | none => simp [exec, execFifoPop, hsize, hslot] at h

/-- A host operation that answers a next state ends by delivering one result, FAIL exactly for its cause. -/
theorem exec_delivers {i : Instr} {s t : State} (hi : isBusCommand i = false) (h : exec i s = .next t) :
    ∃ r u, t = deliver r u ∧ hostView u = hostView s ∧ (r.code = .fail ↔ FailCause s i) := by
  cases i
  case setBitrate | initializeOp =>
    cases h
    exact ⟨_, _, rfl, by simp [tWrite_eq, tModify_eq], setBitrateBody_fst_eq_fail_iff⟩
  case send id length data =>
    cases hsel : selectTx s.cfg (answer s 1) with
    | none =>
      rw [exec_send_of_selectTx_none id length data hsel] at h
      cases h
      exact ⟨_, _, rfl, by simp, iff_of_true rfl (selectTx_eq_none_iff.mp hsel)⟩
    | some n =>
      rw [exec_send_of_selectTx_some id length data hsel] at h
      cases h
      exact ⟨_, _, rfl, by simp, codeOnly_ok_eq_fail_iff hsel selectTx_eq_none_iff⟩
  case receive channel =>
    cases h
    exact ⟨_, _, rfl, by simp, recv_code_eq_fail_iff⟩
  case setFilter channel index id =>
    cases h
    cases hbase : filterBase channel index with
    | none => exact ⟨_, _, rfl, rfl, iff_of_true rfl (filterBase_eq_none_iff.mp hbase)⟩
    | some base => exact ⟨_, _, rfl, by simp, codeOnly_ok_eq_fail_iff hbase filterBase_eq_none_iff⟩
  case setMask channel id =>
    cases h
    cases hbase : maskBase channel with
    | none => exact ⟨_, _, rfl, rfl, iff_of_true rfl (maskBase_eq_none_iff.mp hbase)⟩
    | some base => exact ⟨_, _, rfl, by simp, codeOnly_ok_eq_fail_iff hbase maskBase_eq_none_iff⟩
  case fifoPop =>
    obtain ⟨r, u, rfl, hview, hok⟩ := exec_fifoPop_delivers h
    exact ⟨r, u, rfl, hview, by simp [hok, FailCause]⟩
  case availableChannels | interruptPending | filterOn | filterOff | hardReset | setConfigMode | setSilentMode |
      attachCallback | detachCallback | readRxError | readTxError | fifoSize =>
    cases h
    exact ⟨_, _, rfl, by simp [availQuery_eq, tReset_eq, tRead_eq, tWrite_eq, tModify_eq],
      by simp [codeOnly, okValue, FailCause]⟩
  all_goals cases hi

/-! ### R240: FAIL, and the transactions issued with it -/

theorem wellFormed_of_not_isBusCommand {i : Instr} (hi : isBusCommand i = false) : i.wellFormed = true := by
  cases i
  case loadTx0 | loadTx1 | loadTx2 => cases hi
  all_goals rfl

theorem mosiOf_busLog_afterTxns (s : State) (ts : List (List Byte)) :
    mosiOf (afterTxns s ts).busLog = mosiOf s.busLog ++ ts := by
  induction ts generalizing s with
  | nil => simp
  | cons mosi ts ih => simp [ih, mosiOf_append, mosiOf]

theorem mosiOf_busLog_initReset (performReset : BitVec 1) (s : State) :
    mosiOf (initReset performReset s).busLog =
      mosiOf s.busLog ++ if performReset = 1 then [[0xC0], []] else [] := by
  rw [initReset_eq]
  split <;> simp [mosiOf_append, mosiOf]

/-- With its cause given, an operation adds the table's transactions to the log and no others. -/
theorem mosiOf_exec_of_failCause {i : Instr} {s t : State} (hcause : FailCause s i) (h : exec i s = .next t) :
    mosiOf t.busLog = mosiOf s.busLog ++ failTransactions s.cfg i := by
  cases i
  case initializeOp khz performReset =>
    have hbody := setBitrateBody_none (timing_eq_none_iff.mpr hcause) (initReset performReset (fifoClear s))
    rw [exec_initializeOp_of_setBitrateBody (ts := []) hbody] at h
    cases h
    rw [deliver_busLog, mosiOf_busLog_afterTxns, mosiOf_busLog_initReset, List.append_assoc]
    rfl
  case setBitrate khz =>
    cases h
    simp [setBitrateBody_none (timing_eq_none_iff.mpr hcause), failTransactions]
  case send id length data =>
    rw [exec_send_of_selectTx_none id length data (selectTx_eq_none_iff.mpr hcause)] at h
    cases h
    rw [deliver_busLog, mosiOf_busLog_afterTxns]
    rfl
  case receive channel =>
    cases h
    simp [recv_none (resolveRx_eq_none_iff.mpr hcause), failTransactions]
  case setFilter channel index id =>
    cases h
    simp [filterBase_eq_none_iff.mpr hcause, failTransactions]
  case setMask channel id =>
    cases h
    simp [maskBase_eq_none_iff.mpr hcause, failTransactions]
  all_goals cases hcause

/-- Settles O33: the one result comes from how each operation ends, the log from its bus run, and a failure's
transactions from its cause. -/
theorem failExactlyForTheStatedCauses : Obligations.FailExactlyForTheStatedCauses := by
  unfold Obligations.FailExactlyForTheStatedCauses
  intro i s t hi h
  obtain ⟨es, hrun⟩ := exec_runs (wellFormed_of_not_isBusCommand hi) h
  obtain ⟨r, u, rfl, hview, hcode⟩ := exec_delivers hi h
  have hresults : u.results = s.results := congrArg HostView.results hview
  refine ⟨r, es, by rw [deliver_results, hresults], hrun.log, hcode, fun hfail => ?_⟩
  have hmosi := mosiOf_exec_of_failCause (hcode.mp hfail) h
  rw [hrun.log, mosiOf_append] at hmosi
  exact List.append_cancel_left hmosi

/-! ### R253: the refusal mark -/

theorem refused_exec {i : Instr} {s t : State} (h : exec i s = .next t) : t.refused = s.refused := by
  cases hi : isBusCommand i with
  | true => exact congrArg HostView.refused (hostView_exec_busCommand hi h)
  | false =>
    obtain ⟨r, u, rfl, hview, -⟩ := exec_delivers hi h
    exact congrArg HostView.refused hview

theorem refused_drainTurn (s : State) : (drainTurn s).refused = s.refused := by
  obtain h | ⟨-, -, h⟩ | ⟨-, h⟩ := drainTurn_cases s
  · rw [h]
  · rw [h]
    by_cases hquery : availAnswered s = 0#2
    · simp [drainIter_none hquery]
    · simp [drainIter_some hquery rfl]
  · rw [h, drainEnter_refused]

/-- No ENV step but the block reset touches the mark. -/
theorem refused_envTurn {e : EnvEvent} (he : e ≠ .setRst .low) (s : State) :
    (envTurn e s).refused = s.refused := by
  cases e with
  | setInt v => rfl
  | setRst v =>
    cases v with
    | low => exact absurd rfl he
    | high => rfl

/-- A request is rejected for a reserved op code only (R83). -/
theorem reserved_of_decodeRequest_error {r : Request} {e : DecodeError} (h : decodeRequest r = .error e) :
    r.op.toNat = 0 ∨ 0x14 ≤ r.op.toNat := by
  unfold decodeRequest at h
  split at h <;> cases h
  simp only [imp_false] at *
  bv_omega

/-- The HOST agent's turn keeps the mark, or sets it for a reserved request. -/
theorem hostTurn_refused_mark_cases {s t : State} (h : hostTurn s = .next t) :
    t.refused = s.refused ∨
      (t.refused = true ∧ ∃ r ps, s.requests = .request r :: ps ∧ (r.op.toNat = 0 ∨ 0x14 ≤ r.op.toNat)) := by
  obtain rfl | ⟨p, ps, hreq, -, ⟨i, -, hexec⟩ | ⟨r, e, rfl, hdecode, rfl⟩⟩ := hostTurn_cases h
  · exact .inl rfl
  · exact .inl (refused_exec hexec :)
  · exact .inr ⟨rfl, r, ps, hreq, reserved_of_decodeRequest_error hdecode⟩

/-- Taking the turn leaves the mark and the request port. -/
theorem turnTaken_keeps_mark {s u : State} (hu : (∃ rest, u = withSchedule rest s) ∨ u = countFreeTurn s) :
    u.refused = s.refused ∧ u.requests = s.requests := by
  obtain ⟨rest, rfl⟩ | rfl := hu
  · exact ⟨rfl, rfl⟩
  · exact ⟨rfl, rfl⟩

/-- What a step does to the mark: keeps it, clears it by the block reset, or sets it for a reserved request. -/
theorem step_refused_mark_cases {s t : State} (h : step s = .next t) :
    t.refused = s.refused ∨ ((nextTurn s).1 = .env (.setRst .low) ∧ t.refused = false) ∨
      ((nextTurn s).1 = .host ∧ t.refused = true ∧
        ∃ r ps, s.requests = .request r :: ps ∧ (r.op.toNat = 0 ∨ 0x14 ≤ r.op.toNat)) := by
  obtain ⟨-, u, hu, hturn⟩ := step_cases h
  obtain ⟨hmark, hreq⟩ := turnTaken_keeps_mark hu
  rw [← hmark, ← hreq]
  obtain ⟨e, he, rfl⟩ | ⟨-, rfl⟩ | ⟨ht, hhost⟩ := hturn
  · by_cases hreset : e = .setRst .low
    · subst hreset
      exact .inr (.inl ⟨he, rfl⟩)
    · exact .inl (refused_envTurn hreset u)
  · exact .inl (refused_drainTurn u)
  · exact (hostTurn_refused_mark_cases hhost).imp_right fun hset => .inr ⟨ht, hset⟩

/-- Settles O10: of the three things a step can do to the mark, one clears it and one sets it. -/
theorem refusalIsSticky : Obligations.RefusalIsSticky := by
  unfold Obligations.RefusalIsSticky
  intro s t h
  obtain hkept | ⟨ht, hcleared⟩ | ⟨ht, hset, hreserved⟩ := step_refused_mark_cases h
  · rw [hkept]
    exact ⟨fun hs hn => by simp [hs] at hn, fun hs hn => by simp [hs] at hn⟩
  · exact ⟨fun _ _ => ht, fun _ hset => by simp [hcleared] at hset⟩
  · exact ⟨fun _ hcleared => by simp [hset] at hcleared, fun _ _ => ⟨ht, hreserved⟩⟩

end Sys2Proof.Machine
end

