-- ==== Sys2Proof/Proofs/Encoding.lean ====
section
/-! PROOFS. The decoders and the encoder of the two interfaces (spec 30_encoding R70 to R73, R79 to R83). -/

namespace Sys2Proof

/-! ### Each command format, read off what its decoder accepts (R71, R73) -/

section formats
variable {d op : Byte} {rest : List Byte} {i j : Instr}

theorem decodeBare_ok (h : decodeBare i op rest = .ok j) : rest = [] ∧ j = i := by
  unfold decodeBare at h
  split at h <;> cases h
  exact ⟨rfl, rfl⟩

theorem decodeQuery_ok (h : decodeQuery i d op rest = .ok j) : rest = [d] ∧ j = i := by
  unfold decodeQuery at h
  split at h
  · split at h <;> cases h
    next hx => exact ⟨by rw [hx], rfl⟩
  · cases h

theorem decodeRead_ok (h : decodeRead d op rest = .ok j) : ∃ addr, rest = [addr, d] ∧ j = .read addr := by
  unfold decodeRead at h
  split at h
  · split at h <;> cases h
    next hx => exact ⟨_, by rw [hx], rfl⟩
  · cases h

theorem decodeWrite_ok (h : decodeWrite op rest = .ok j) :
    ∃ addr value, rest = [addr, value] ∧ j = .write addr value := by
  unfold decodeWrite at h
  split at h <;> cases h
  exact ⟨_, _, rfl, rfl⟩

theorem decodeModify_ok (h : decodeModify op rest = .ok j) :
    ∃ addr mask value, rest = [addr, mask, value] ∧ j = .modify addr mask value := by
  unfold decodeModify at h
  split at h <;> cases h
  exact ⟨_, _, _, rfl, rfl⟩

theorem decodeLoadTx_ok {mk : Byte → Byte → Byte → List Byte → Instr} (h : decodeLoadTx mk op rest = .ok j) :
    ∃ sidh sidl dlc payload, op :: rest = loadTxBytes op sidh sidl dlc payload ∧
      loadTxOperandsOk dlc payload = true ∧ j = mk sidh sidl dlc payload := by
  unfold decodeLoadTx at h
  split at h
  · split at h
    · next heid =>
      obtain ⟨rfl, rfl⟩ := heid
      split at h <;> cases h
      next hok => exact ⟨_, _, _, _, rfl, hok, rfl⟩
    · cases h
  · cases h

theorem decodeReadRx_ok (h : decodeReadRx i d op rest = .ok j) : rest = [d, d, d, d, d] ∧ j = i := by
  unfold decodeReadRx at h
  split at h
  · split at h <;> cases h
    next hrest => exact ⟨hrest, rfl⟩
  · cases h

end formats

theorem decodeLoadTx_loadTxBytes {mk : Byte → Byte → Byte → List Byte → Instr} {op sidh sidl dlc : Byte}
    {payload : List Byte} (h : loadTxOperandsOk dlc payload = true) :
    decodeLoadTx mk op (loadTxBytes op sidh sidl dlc payload).tail = .ok (mk sidh sidl dlc payload) := by
  simp [decodeLoadTx, loadTxBytes, h]

/-! ### Decode after encode -/

/-- Settles O1: a host operation's record and a command without dummies evaluate; a command with dummies holds the
same byte in them as the decoder looks for; LOAD_TX decodes for the operands R106 allows. -/
theorem decodeInvertsEncode : Obligations.DecodeInvertsEncode := by
  unfold Obligations.DecodeInvertsEncode
  intro d i hw
  cases i
  case read | readStatus | rxStatus =>
    exact if_pos rfl
  case readRx0 | readRx1 =>
    exact if_pos rfl
  case loadTx0 | loadTx1 | loadTx2 =>
    exact decodeLoadTx_loadTxBytes hw
  all_goals rfl

/-! ### Encode after decode -/

/-- Settles O2: by the command byte, and in each arm by what its format accepts. -/
theorem decodedCommandsAreExact : Obligations.DecodedCommandsAreExact := by
  unfold Obligations.DecodedCommandsAreExact
  intro d bytes i h
  unfold decodeCommand at h
  split at h
  · cases h
  split at h
  case h_1 | h_10 | h_11 | h_12 => -- RESET, RTS
    obtain ⟨rfl, rfl⟩ := decodeBare_ok h
    exact ⟨rfl, rfl, rfl⟩
  case h_2 => -- READ
    obtain ⟨addr, rfl, rfl⟩ := decodeRead_ok h
    exact ⟨rfl, rfl, rfl⟩
  case h_3 => -- WRITE
    obtain ⟨addr, value, rfl, rfl⟩ := decodeWrite_ok h
    exact ⟨rfl, rfl, rfl⟩
  case h_4 => -- MODIFY
    obtain ⟨addr, mask, value, rfl, rfl⟩ := decodeModify_ok h
    exact ⟨rfl, rfl, rfl⟩
  case h_5 | h_6 => -- READ_STATUS, RX_STATUS
    obtain ⟨rfl, rfl⟩ := decodeQuery_ok h
    exact ⟨rfl, rfl, rfl⟩
  case h_7 | h_8 | h_9 => -- LOAD_TX
    obtain ⟨sidh, sidl, dlc, payload, hbytes, hok, rfl⟩ := decodeLoadTx_ok h
    exact ⟨rfl, hok, congrArg Presented.command hbytes.symm⟩
  case h_13 | h_14 => -- READ_RX
    obtain ⟨rfl, rfl⟩ := decodeReadRx_ok h
    exact ⟨rfl, rfl, rfl⟩
  case h_15 => cases h -- any other command byte

/-! ### Requests (R80, R81, R83) -/

/-- A request that decodes has an op code of R81, and the encoder gives the operation the same one. -/
theorem decodeRequest_ok {r : Request} {i : Instr} (h : decodeRequest r = .ok i) :
    (1 ≤ r.op.toNat ∧ r.op.toNat ≤ 0x13) ∧ Machine.isBusCommand i = false ∧
      ∃ r', encode 0 i = .request r' ∧ r'.op = r.op := by
  unfold decodeRequest at h
  split at h <;> cases h
  all_goals
    next hop => rw [hop]; exact ⟨by decide, rfl, _, rfl, rfl⟩

theorem decodeRequest_error {r : Request} {e : DecodeError} (h : decodeRequest r = .error e) :
    e = .reservedOp r.op := by
  unfold decodeRequest at h
  split at h <;> cases h
  rfl

/-- Settles O3: a request either decodes, and then its op code is 0x01 to 0x13, or is rejected, and then it is
none of these. -/
theorem onlyReservedOpCodesAreRejected : Obligations.OnlyReservedOpCodesAreRejected := by
  unfold Obligations.OnlyReservedOpCodesAreRejected
  intro r
  cases h : decodeRequest r with
  | ok i =>
    obtain ⟨⟨hlow, hhigh⟩, hhost, hcode⟩ := decodeRequest_ok h
    exact ⟨fun hreserved => by omega, fun _ => ⟨i, rfl, hhost, hcode⟩⟩
  | error e =>
    obtain rfl := decodeRequest_error h
    have hreserved := Machine.reserved_of_decodeRequest_error h
    exact ⟨fun _ => rfl, fun ⟨hlow, hhigh⟩ => by omega⟩

/-- Settles O4: the two requests take the same arm, and the arm reads only fields that agree. -/
theorem unreadRequestFieldsAreIgnored : Obligations.UnreadRequestFieldsAreIgnored := by
  unfold Obligations.UnreadRequestFieldsAreIgnored
  intro r r' hop hinit hrate hsend hreceive hfilter hmask hmode
  unfold decodeRequest
  rw [← hop]
  split
  case h_1 hcode =>
    obtain ⟨hkhz, hreset⟩ := hinit hcode
    rw [hkhz, hreset]
  case h_2 hcode => rw [hrate hcode]
  case h_5 hcode =>
    obtain ⟨hid, hlength, hdata⟩ := hsend hcode
    rw [hid, hlength, hdata]
  case h_6 hcode => rw [hreceive hcode]
  case h_7 hcode =>
    obtain ⟨hchannel, hindex, hid⟩ := hfilter hcode
    rw [hchannel, hindex, hid]
  case h_8 hcode =>
    obtain ⟨hchannel, hid⟩ := hmask hcode
    rw [hchannel, hid]
  case h_12 hcode => rw [hmode (.inl hcode)]
  case h_13 hcode => rw [hmode (.inr hcode)]
  all_goals rfl

/-- Settles O5: each of the eleven words is a closed term, which the decoder evaluates. -/
theorem statedWordsDecode : Obligations.StatedWordsDecode := by
  unfold Obligations.StatedWordsDecode
  decide

end Sys2Proof
end

