-- ==== Sys2Proof/Proofs/BusCommands.lean ====
section
/-! PROOFS. The bus commands presented alone (spec 40_register_interface R100 to R108; logs 7 and 8). -/

namespace Sys2Proof.Machine

/-- Settles O14: each command is its transaction, in closed form, and a reply. -/
theorem fixedLengthCommandsIssueTheirBytes : Obligations.FixedLengthCommandsIssueTheirBytes := by
  unfold Obligations.FixedLengthCommandsIssueTheirBytes
  intro s addr mask value
  refine ⟨?_, ?_, ?_, ?_, ?_, ?_, ?_, ?_, ?_⟩
  · simp only [exec, execReset, tReset_eq]
  · simp only [exec, execRead, tRead_eq]
  · simp only [exec, execWrite, tWrite_eq]
  · simp only [exec, execModify, tModify_eq]
  · simp only [exec, execReadStatus, tReadStatus_eq]
  · simp only [exec, execRxStatus, tRxStatus_eq]
  · rw [exec, execRts0, tRts_eq]; rfl
  · rw [exec, execRts1, tRts_eq]; rfl
  · rw [exec, execRts2, tRts_eq]; rfl

/-- Settles O15: R106's loop sends the whole payload, after R72's command byte. -/
theorem loadTxIssuesTheFrame : Obligations.LoadTxIssuesTheFrame := by
  unfold Obligations.LoadTxIssuesTheFrame
  intro s sidh sidl dlc payload _ hlen
  refine ⟨?_, ?_, ?_⟩
  · rw [exec, execLoadTx0, tLoadTx_whole_payload .b0 sidh sidl hlen]; rfl
  · rw [exec, execLoadTx1, tLoadTx_whole_payload .b1 sidh sidl hlen]; rfl
  · rw [exec, execLoadTx2, tLoadTx_whole_payload .b2 sidh sidl hlen]; rfl

/-- What READ_RX returns, as one list: the answers after the first, five of the header and the payload's. -/
theorem rxKept_tReadRx (b : RxBuffer) (s : State) :
    rxKept (tReadRx b s).1 = (List.range (5 + rxPayloadLen (answer s 5))).map fun k => answer s (1 + k) := by
  rw [tReadRx_eq, List.range_add, List.map_append, List.map_map]
  have hpayload : ∀ k, answer s (6 + k) = answer s (1 + (5 + k)) := fun k => by rw [← Nat.add_assoc]
  simp only [rxKept, hpayload]
  rfl

/-- Settles O16: READ_RX's length in numbers, and what it returns as one list. -/
theorem readRxLengthFollowsTheDlc : Obligations.ReadRxLengthFollowsTheDlc := by
  unfold Obligations.ReadRxLengthFollowsTheDlc
  rintro s n rfl
  rw [← rxPayloadLen_eq_min_toNat_mod]
  constructor
  · simp only [exec, execReadRx0, rxKept_tReadRx]
    rw [tReadRx_eq]
    rfl
  · simp only [exec, execReadRx1, rxKept_tReadRx]
    rw [tReadRx_eq]
    rfl

/-- Said once of all fourteen: a bus command is one transaction and a reply. -/
theorem exec_busCommand_cases {i : Instr} {s t : State} (hi : isBusCommand i = true) (h : exec i s = .next t) :
    ∃ kept mosi, t = reply kept (afterTxn s mosi) := by
  cases i
  case reset | read | write | modify | readStatus | rxStatus | loadTx0 | loadTx1 | loadTx2 | rts0 | rts1 | rts2 |
      readRx0 | readRx1 =>
    cases h
    simp only [tReset_eq, tRead_eq, tWrite_eq, tModify_eq, tReadStatus_eq, tRxStatus_eq, tLoadTx_eq, tRts_eq,
      tReadRx_eq]
    exact ⟨_, _, rfl⟩
  all_goals cases hi

/-- Settles O17: a transaction touches the bus side alone, and the reply its own record. -/
theorem busCommandFrame : Obligations.BusCommandFrame := by
  unfold Obligations.BusCommandFrame
  intro i s t hi h
  obtain ⟨kept, mosi, rfl⟩ := exec_busCommand_cases hi h
  exact ⟨rfl, fun _ => rfl⟩

end Sys2Proof.Machine
end

