-- ==== Sys2Proof/Proofs/HostOperations.lean ====
section
/-! PROOFS. What all host operations share: their form, what they leave unchanged, their resets and their faults
(spec 10_state; 44_ring_buffer; 45_control_ops; 60_exceptions R241; 70_reset_and_hazards R262; log 10), and a frame
sent and read back (41_timing_and_codec section 5). -/

namespace Sys2Proof.Machine

/-! ### Transactions touch the bus side only -/

theorem onlyBus_afterTxns (s : State) (ts : List (List Byte)) : OnlyBus s (afterTxns s ts) := by
  induction ts generalizing s with
  | nil => rfl
  | cons mosi ts ih => exact ih (afterTxn s mosi)

section afterTxns
variable (s : State) (ts : List (List Byte))

@[simp] theorem fifoOf_afterTxns : fifoOf (afterTxns s ts) = fifoOf s :=
  (congrArg fifoOf (onlyBus_afterTxns s ts) :)
@[simp] theorem afterTxns_fifoBuf : (afterTxns s ts).fifoBuf = s.fifoBuf :=
  congrArg Fifo.buf (fifoOf_afterTxns s ts)
@[simp] theorem afterTxns_fifoTail : (afterTxns s ts).fifoTail = s.fifoTail :=
  congrArg Fifo.tail (fifoOf_afterTxns s ts)
@[simp] theorem afterTxns_fifoSize : (afterTxns s ts).fifoSize = s.fifoSize :=
  congrArg Fifo.size (fifoOf_afterTxns s ts)
@[simp] theorem afterTxns_cbAttached : (afterTxns s ts).cbAttached = s.cbAttached :=
  (congrArg State.cbAttached (onlyBus_afterTxns s ts) :)
@[simp] theorem afterTxns_drainState : (afterTxns s ts).drainState = s.drainState :=
  (congrArg State.drainState (onlyBus_afterTxns s ts) :)
@[simp] theorem afterTxns_edgeLatch : (afterTxns s ts).edgeLatch = s.edgeLatch :=
  (congrArg State.edgeLatch (onlyBus_afterTxns s ts) :)
@[simp] theorem afterTxns_cbLog : (afterTxns s ts).cbLog = s.cbLog :=
  (congrArg State.cbLog (onlyBus_afterTxns s ts) :)
@[simp] theorem afterTxns_rstN : (afterTxns s ts).rstN = s.rstN :=
  (congrArg State.rstN (onlyBus_afterTxns s ts) :)
@[simp] theorem afterTxns_cfg : (afterTxns s ts).cfg = s.cfg :=
  (congrArg State.cfg (onlyBus_afterTxns s ts) :)
@[simp] theorem afterTxns_requests : (afterTxns s ts).requests = s.requests :=
  (congrArg State.requests (onlyBus_afterTxns s ts) :)
@[simp] theorem afterTxns_results : (afterTxns s ts).results = s.results :=
  (congrArg State.results (onlyBus_afterTxns s ts) :)

end afterTxns

theorem onlyBus_initReset (performReset : BitVec 1) (s : State) : OnlyBus s (initReset performReset s) := by
  rw [initReset_eq]
  split <;> rfl

theorem OnlyBus.trans {s t u : State} (h : OnlyBus s t) (h' : OnlyBus t u) : OnlyBus s u := by
  rw [OnlyBus] at h'
  rw [h] at h'
  exact h'

/-! ### The form of a host operation -/

/-- What an operation does to the FIFO and the callback: FIFO_POP, INITIALIZE, ATTACH and DETACH only. -/
def hostEffect (i : Instr) (s : State) : State :=
  match i with
  | .initializeOp _ _ => fifoClear s
  | .fifoPop => if s.fifoSize = 0 then s else fifoAdvance s
  | .attachCallback => setCallback true s
  | .detachCallback => setCallback false s
  | _ => s

/-- Whether an operation begins with RESET and its delay, as INITIALIZE's own operand says it (R210, R211). -/
def resetBit (i : Instr) : BitVec 1 :=
  match i with
  | .initializeOp _ performReset => performReset
  | .hardReset => 1
  | _ => 0

/-- The state in which an operation issues its transactions but RESET. -/
def hostReady (i : Instr) (s : State) : State :=
  initReset (resetBit i) (hostEffect i s)

theorem onlyBus_hostReady (i : Instr) (s : State) (ts : List (List Byte)) :
    OnlyBus (hostEffect i s) (afterTxns (hostReady i s) ts) :=
  (onlyBus_initReset (resetBit i) (hostEffect i s)).trans (onlyBus_afterTxns (hostReady i s) ts)

/-- The operation ends by delivering the result `r`, a well-formed one if the FIFO is well formed, after the
transactions `ts`, no RESET among them. -/
def EndsWith (i : Instr) (s : State) (o : Host.Outcome State Fault Refusal) (r : HostResult)
    (ts : List (List Byte)) : Prop :=
  o = .next (deliver r (afterTxns (hostReady i s) ts)) ∧ (FifoOk s → ResultOk r) ∧ [0xC0] ∉ ts

theorem frameOk_frameHere (s : State) : FrameOk (frameHere s) :=
  ⟨Nat.min_le_right _ _, by simp [frameHere]⟩

section forms
variable (s : State)

theorem exec_setBitrate_endsWith (khz : BitVec 32) :
    ∃ r ts, EndsWith (.setBitrate khz) s (exec (.setBitrate khz) s) r ts := by
  simp only [exec, execSetBitrate]
  cases h : timing khz with
  | none =>
    rw [setBitrateBody_none h]
    exact ⟨_, [], rfl, fun _ => trivial, by simp⟩
  | some row =>
    rw [setBitrateBody_some (c1 := row.1) (c2 := row.2.1) (c3 := row.2.2) h]
    exact ⟨_, _, rfl, fun _ => trivial, by simp⟩

theorem exec_initializeOp_endsWith (khz : BitVec 32) (performReset : BitVec 1) :
    ∃ r ts, EndsWith (.initializeOp khz performReset) s (exec (.initializeOp khz performReset) s) r ts := by
  cases h : timing khz with
  | none =>
    exact ⟨_, _, exec_initializeOp_of_setBitrateBody (ts := []) (setBitrateBody_none h _), fun _ => trivial,
      by simp [initTail]⟩
  | some row =>
    exact ⟨_, _, exec_initializeOp_of_setBitrateBody
      (setBitrateBody_some (c1 := row.1) (c2 := row.2.1) (c3 := row.2.2) h _), fun _ => trivial, by simp [initTail]⟩

theorem exec_send_endsWith (id : BitVec 16) (length : BitVec 8) (data : Vector Byte 8) :
    ∃ r ts, EndsWith (.send id length data) s (exec (.send id length data) s) r ts := by
  cases h : selectTx s.cfg (answer s 1) with
  | none => exact ⟨_, _, exec_send_of_selectTx_none id length data h, fun _ => trivial, by simp⟩
  | some n =>
    refine ⟨_, _, exec_send_of_selectTx_some id length data h, fun _ => trivial, ?_⟩
    cases n <;> simp [loadTxBytes, rtsCommand, txNumber]

theorem exec_receive_endsWith (channel : Byte) :
    ∃ r ts, EndsWith (.receive channel) s (exec (.receive channel) s) r ts := by
  cases h : resolveRx channel with
  | none =>
    simp only [exec, execReceive, recv_none h]
    exact ⟨_, [], rfl, fun _ => trivial, by simp⟩
  | some b =>
    refine ⟨_, _, exec_receive_of_resolveRx_some h s, fun _ => frameOk_frameHere s, ?_⟩
    simp [Nat.add_comm 5, List.replicate_succ]

theorem exec_setFilter_endsWith (channel index : Byte) (id : BitVec 16) :
    ∃ r ts, EndsWith (.setFilter channel index id) s (exec (.setFilter channel index id) s) r ts := by
  simp only [exec, execSetFilter, writePair_eq_pairWrites]
  split
  · exact ⟨_, [], rfl, fun _ => trivial, by simp⟩
  · exact ⟨_, _, rfl, fun _ => trivial, by simp [pairWrites]⟩

theorem exec_setMask_endsWith (channel : Byte) (id : BitVec 16) :
    ∃ r ts, EndsWith (.setMask channel id) s (exec (.setMask channel id) s) r ts := by
  simp only [exec, execSetMask, writePair_eq_pairWrites]
  split
  · exact ⟨_, [], rfl, fun _ => trivial, by simp⟩
  · exact ⟨_, _, rfl, fun _ => trivial, by simp [pairWrites]⟩

theorem exec_availableChannels_endsWith :
    ∃ r ts, EndsWith .availableChannels s (exec .availableChannels s) r ts := by
  refine ⟨_, _, exec_availableChannels_eq s, fun _ => trivial, ?_⟩
  unfold availMosi
  split <;> simp

end forms

/-- FIFO_POP delivers Absent, or the frame at the head. -/
theorem exec_fifoPop_endsWith {s t : State} (h : exec .fifoPop s = .next t) :
    ∃ r, EndsWith .fifoPop s (.next t) r [] := by
  rw [← h]
  by_cases hsize : s.fifoSize = 0
  · have hready : hostReady .fifoPop s = s := if_pos hsize
    exact ⟨_, by rw [hready, exec_fifoPop_empty hsize, afterTxns_nil], fun _ => trivial, by simp⟩
  · have hready : hostReady .fifoPop s = fifoAdvance s := if_neg hsize
    cases hslot : fifoSlot s s.fifoHead with
    | some f =>
      refine ⟨_, by rw [hready, exec_fifoPop_written hsize hslot, afterTxns_nil], fun hok => ?_, by simp⟩
      obtain ⟨f', hf', hframe⟩ := fifoSlot_head_of_fifoOk hok hsize
      rw [hslot] at hf'
      cases hf'
      exact hframe
    | none => simp [exec, execFifoPop, hsize, hslot] at h

/-- Said once of all nineteen: what a host operation that answers a next state has done. -/
theorem exec_host_endsWith {i : Instr} {s t : State} (hi : isBusCommand i = false) (h : exec i s = .next t) :
    ∃ r ts, EndsWith i s (.next t) r ts := by
  cases i
  case fifoPop =>
    obtain ⟨r, hr⟩ := exec_fifoPop_endsWith h
    exact ⟨r, [], hr⟩
  case setBitrate khz => exact h ▸ exec_setBitrate_endsWith s khz
  case initializeOp khz performReset => exact h ▸ exec_initializeOp_endsWith s khz performReset
  case send id length data => exact h ▸ exec_send_endsWith s id length data
  case receive channel => exact h ▸ exec_receive_endsWith s channel
  case setFilter channel index id => exact h ▸ exec_setFilter_endsWith s channel index id
  case setMask channel id => exact h ▸ exec_setMask_endsWith s channel id
  case availableChannels => exact h ▸ exec_availableChannels_endsWith s
  case filterOn => exact h ▸ ⟨_, _, (filteringWritesBothControls s).1, fun _ => trivial, by simp⟩
  case filterOff => exact h ▸ ⟨_, _, (filteringWritesBothControls s).2, fun _ => trivial, by simp⟩
  case hardReset => exact h ▸ ⟨_, [], hardResetReturnsTheEcho s, fun _ => trivial, by simp⟩
  case setConfigMode enable => exact h ▸ ⟨_, _, (modeOperationsModifyCanctrl s enable).1, fun _ => trivial, by simp⟩
  case setSilentMode enable => exact h ▸ ⟨_, _, (modeOperationsModifyCanctrl s enable).2, fun _ => trivial, by simp⟩
  case readRxError => exact h ▸ ⟨_, _, (errorCountersAreRead s).1, fun _ => trivial, by simp⟩
  case readTxError => exact h ▸ ⟨_, _, (errorCountersAreRead s).2, fun _ => trivial, by simp⟩
  case interruptPending | attachCallback | detachCallback | fifoSize =>
    exact h ▸ ⟨_, [], rfl, fun _ => trivial, by simp⟩
  all_goals cases hi

/-! ### What stays unchanged -/

theorem hostEffect_fifoPop_cases (s : State) : hostEffect .fifoPop s = s ∨ hostEffect .fifoPop s = fifoAdvance s :=
  ite_eq_or_eq _ _ _

/-- The four fields an operation may change of itself. -/
theorem hostEffect_frame (i : Instr) (s : State) :
    hostEffect i s = { s with
      fifoHead := (hostEffect i s).fifoHead, fifoTail := (hostEffect i s).fifoTail
      fifoSize := (hostEffect i s).fifoSize, cbAttached := (hostEffect i s).cbAttached } := by
  cases i
  case fifoPop =>
    obtain h | h := hostEffect_fifoPop_cases s
    · rw [h]
    · rw [h]
      rfl
  all_goals rfl

theorem hostEffect_fifoTail {i : Instr} (hi : ∀ khz performReset, i ≠ .initializeOp khz performReset) (s : State) :
    (hostEffect i s).fifoTail = s.fifoTail := by
  cases i
  case initializeOp khz performReset => exact absurd rfl (hi khz performReset)
  case fifoPop =>
    obtain h | h := hostEffect_fifoPop_cases s
    · rw [h]
    · rw [h]
      rfl
  all_goals rfl

theorem hostEffect_cbAttached {i : Instr} (hattach : i ≠ .attachCallback) (hdetach : i ≠ .detachCallback)
    (s : State) : (hostEffect i s).cbAttached = s.cbAttached := by
  cases i
  case attachCallback => exact absurd rfl hattach
  case detachCallback => exact absurd rfl hdetach
  case fifoPop =>
    obtain h | h := hostEffect_fifoPop_cases s
    · rw [h]
    · rw [h]
      rfl
  all_goals rfl

/-- Settles O32: but for the bus side and its result an operation does what `hostEffect` says. -/
theorem hostOperationFrame : Obligations.HostOperationFrame := by
  unfold Obligations.HostOperationFrame
  intro i s t hi h
  obtain ⟨r, ts, hend, -, -⟩ := exec_host_endsWith hi h
  have hbus := onlyBus_hostReady i s ts
  generalize afterTxns (hostReady i s) ts = u at hend hbus
  cases hend
  have hhead : u.fifoHead = (hostEffect i s).fifoHead := (congrArg State.fifoHead hbus :)
  have htail : u.fifoTail = (hostEffect i s).fifoTail := (congrArg State.fifoTail hbus :)
  have hsize : u.fifoSize = (hostEffect i s).fifoSize := (congrArg State.fifoSize hbus :)
  have hcb : u.cbAttached = (hostEffect i s).cbAttached := (congrArg State.cbAttached hbus :)
  have hframe := hostEffect_frame i s
  rw [OnlyBus, hframe, ← hhead, ← htail, ← hsize, ← hcb] at hbus
  refine ⟨?slots, (congrArg (fun x => { x with results := (deliver r u).results }) hbus :), ?tail, ?headSize, ?callback⟩
  case slots =>
    intro k
    have hbuf : u.fifoBuf = s.fifoBuf := (congrArg State.fifoBuf hbus :)
    simp only [fifoSlot, deliver_fifoBuf, hbuf]
  case tail =>
    intro hinit
    exact htail.trans (hostEffect_fifoTail hinit s)
  case headSize =>
    intro hinit hpop
    obtain ⟨hhead', -, hsize', -⟩ := fifoOf_eq_iff.mp (fifoOf_exec hpop hinit h)
    exact ⟨hhead', hsize'⟩
  case callback =>
    intro hattach hdetach
    exact hcb.trans (hostEffect_cbAttached hattach hdetach s)

/-! ### The fault (log 10) -/

/-- Settles O27: FIFO_POP is the only arm that may not answer a next state, and its fault has one cause. -/
theorem fifoPopFaultsOnlyOnAnUnwrittenSlot : Obligations.FifoPopFaultsOnlyOnAnUnwrittenSlot := by
  unfold Obligations.FifoPopFaultsOnlyOnAnUnwrittenSlot
  intro s
  have hpop := exec_fifoPop_cases s
  refine ⟨⟨?faults, ?unwritten⟩, ?only⟩
  case faults =>
    rintro ⟨r, hr⟩
    obtain ⟨t, ht⟩ | ⟨hsize, hslot, -⟩ := hpop
    · rw [ht] at hr
      cases hr
    · exact ⟨hsize, hslot⟩
  case unwritten =>
    rintro ⟨hsize, hslot⟩
    exact ⟨.unwrittenFifoSlot s.fifoHead, by simp only [exec, execFifoPop, hsize, hslot, if_false]⟩
  case only =>
    intro i r hr
    by_cases hi : i = .fifoPop
    · subst hi
      obtain ⟨t, ht⟩ | ⟨-, -, hfault⟩ := hpop
      · rw [ht] at hr
        cases hr
      · rw [hfault] at hr
        cases hr
        exact ⟨rfl, rfl⟩
    · obtain ⟨t, ht⟩ := exec_next_of_ne_fifoPop hi s
      rw [ht] at hr
      cases hr

/-! ### Failed validation (R241) -/

/-- With its cause given, each of the four operations that validate first delivers a result and does no more. -/
theorem exec_delivers_only_of_failCause {i : Instr} {s : State}
    (hi : (∃ khz, i = .setBitrate khz) ∨ (∃ c, i = .receive c) ∨ (∃ c x id, i = .setFilter c x id) ∨
      (∃ c id, i = .setMask c id)) (hcause : FailCause s i) : ∃ r, exec i s = .next (deliver r s) := by
  obtain ⟨khz, rfl⟩ | ⟨c, rfl⟩ | ⟨c, x, id, rfl⟩ | ⟨c, id, rfl⟩ := hi
  · exact ⟨_, (setBitrateWritesItsRowOrNothing s khz).2 hcause⟩
  · obtain ⟨h1, h2, h3⟩ := hcause
    exact ⟨_, (receiveReadsAndClears s c).2.2 h1 h2 h3⟩
  · exact ⟨_, (setFilterWritesThePair s c x id).2 hcause⟩
  · obtain ⟨h1, h2⟩ := hcause
    exact ⟨_, (setMaskWritesThePair s c id).2.2 h1 h2⟩

/-- Settles O34: the FAIL gives the cause (R240), and the cause the closed form. -/
theorem failedValidationChangesNothing : Obligations.FailedValidationChangesNothing := by
  unfold Obligations.FailedValidationChangesNothing
  intro i s t r hi h hresults hfail
  have hhost : isBusCommand i = false := by
    obtain ⟨khz, rfl⟩ | ⟨c, rfl⟩ | ⟨c, x, id, rfl⟩ | ⟨c, id, rfl⟩ := hi
    all_goals rfl
  obtain ⟨r', u, rfl, hview, hcode⟩ := exec_delivers hhost h
  have hu : u.results = s.results := congrArg HostView.results hview
  obtain rfl : r' = r := by simpa [hu] using hresults
  obtain ⟨r'', hexec⟩ := exec_delivers_only_of_failCause hi (hcode.mp hfail)
  rw [← Host.Outcome.next.inj (hexec.symm.trans h)] at hresults ⊢
  rw [← hresults]
  rfl

/-! ### RESET and its delay (R262) -/

theorem delayAfterReset_of_no_reset (length : Nat) {es : List Event} (h : [0xC0] ∉ mosiOf es) :
    delayAfterReset length es = true := by
  induction es with
  | nil => rfl
  | cons e es ih =>
    cases e with
    | delay n => exact ih (by simpa [mosiOf] using h)
    | txn bytes =>
      rw [mosiOf, List.mem_cons, not_or] at h
      obtain ⟨hbytes, hes⟩ := h
      match bytes with
      | [] => exact ih hes
      | [x] =>
        have hx : x.mosi ≠ 0xC0#8 := fun hx => hbytes (congrArg (fun b => [b]) hx.symm)
        simp only [delayAfterReset, if_neg hx, ih hes, Bool.and_true]
      | _ :: _ :: _ => exact ih hes

theorem busLog_afterTxns (s : State) (ts : List (List Byte)) :
    ∃ es, (afterTxns s ts).busLog = s.busLog ++ es ∧ mosiOf es = ts := by
  induction ts generalizing s with
  | nil => exact ⟨[], by simp, rfl⟩
  | cons mosi ts ih =>
    obtain ⟨es, hlog, hmosi⟩ := ih (afterTxn s mosi)
    refine ⟨.txn (exchanged s mosi) :: es, ?_, ?_⟩
    · rw [afterTxns_cons, hlog, afterTxn_busLog, List.append_assoc, List.singleton_append]
    · rw [mosiOf, map_mosi_exchanged, hmosi]

theorem hostEffect_busLog (i : Instr) (s : State) : (hostEffect i s).busLog = s.busLog :=
  (congrArg State.busLog (hostEffect_frame i s) :)

theorem hostEffect_cfg (i : Instr) (s : State) : (hostEffect i s).cfg = s.cfg :=
  (congrArg State.cfg (hostEffect_frame i s) :)

theorem hostReady_busLog (i : Instr) (s : State) :
    (hostReady i s).busLog = s.busLog ++
      if resetBit i = 1 then [.txn (exchanged (hostEffect i s) [0xC0]), .delay s.cfg.resetDelay] else [] := by
  rw [hostReady, initReset_eq]
  split <;> simp [hostEffect_busLog, hostEffect_cfg]

theorem resets_of_resetBit {i : Instr} (h : resetBit i = 1) :
    i = .hardReset ∨ ∃ khz, i = .initializeOp khz 1 := by
  cases i
  case hardReset => exact .inl rfl
  case initializeOp khz performReset =>
    obtain rfl : performReset = 1 := h
    exact .inr ⟨khz, rfl⟩
  all_goals cases h

/-- Settles O35: the one RESET an operation may issue comes first, with its delay; no later transaction is one. -/
theorem everyResetIsFollowedByTheDelay : Obligations.EveryResetIsFollowedByTheDelay := by
  unfold Obligations.EveryResetIsFollowedByTheDelay
  intro i s t hi h
  obtain ⟨r, ts, hend, -, hts⟩ := exec_host_endsWith hi h
  obtain ⟨es, hlog, rfl⟩ := busLog_afterTxns (hostReady i s) ts
  cases hend
  rw [deliver_busLog, hlog, hostReady_busLog, List.append_assoc]
  by_cases hreset : resetBit i = 1
  · rw [if_pos hreset]
    refine ⟨_, rfl, ?_, fun _ => resets_of_resetBit hreset⟩
    simp [delayAfterReset, exchanged_cons, delayAfterReset_of_no_reset _ hts]
  · rw [if_neg hreset]
    exact ⟨es, rfl, delayAfterReset_of_no_reset _ hts, fun hmem => absurd hmem hts⟩

/-! ### A frame sent and read back (41 section 5) -/

/-- The clamp does not change a length of 0 to 8. -/
theorem sentLength_ofNat {len : Nat} (h : len ≤ 8) : sentLength (BitVec.ofNat 8 len) = len := by
  have hnat : (BitVec.ofNat 8 len).toNat = len := Nat.mod_eq_of_lt (by omega)
  have hint : (BitVec.ofNat 8 len).toInt = len := by rw [BitVec.toInt_eq_toNat_cond, hnat, if_pos (by omega)]
  rw [sentLength, hint, hnat, if_neg (by omega), if_neg (by omega)]

/-- A SEND whose log shows three events has loaded the frame in the second. -/
theorem mosi_loaded_of_exec_send {s t : State} {id : BitVec 16} {length : BitVec 8} {data : Vector Byte 8}
    {e1 e3 : Event} {xs : List Exchange} (h : exec (.send id length data) s = .next t)
    (hlog : t.busLog = s.busLog ++ [e1, .txn xs, e3]) :
    ∃ cmd, xs.map Exchange.mosi = loadTxBytes cmd (idHigh id) (idLow id) (BitVec.ofNat 8 (sentLength length))
      (data.toList.take (sentLength length)) := by
  cases hsel : selectTx s.cfg (answer s 1) with
  | none =>
    rw [exec_send_of_selectTx_none id length data hsel] at h
    cases h
    simp at hlog
  | some n =>
    rw [exec_send_of_selectTx_some id length data hsel] at h
    cases h
    simp only [deliver_busLog, afterTxns_cons, afterTxns_nil, afterTxn_busLog, List.append_assoc,
      List.append_cancel_left_eq, List.cons_append, List.nil_append, List.cons.injEq, Event.txn.injEq] at hlog
    obtain ⟨-, rfl, -⟩ := hlog
    exact ⟨loadTxCommand n, map_mosi_exchanged _ _⟩

theorem id_of_idHigh_idLow {id : BitVec 16} (h : id.toNat < 2048) :
    BitVec.ofNat 11 ((idHigh id).toNat * 8 + (idLow id).toNat / 32) = BitVec.ofNat 11 id.toNat := by
  have hsum : (idHigh id).toNat * 8 + (idLow id).toNat / 32 = id.toNat := by
    simp only [idHigh, idLow, BitVec.toNat_ofNat]
    omega
  rw [hsum]

/-- A chip that answers with the bytes of a LOAD_TX is read as the frame loaded. -/
theorem frameHere_of_loaded {s : State} {cmd : Byte} {id : BitVec 16} {len : Nat} {payload : List Byte}
    (hid : id.toNat < 2048) (hlen : len ≤ 8) (hpayload : payload.length = len)
    (h : ∀ k, 1 ≤ k → k ≤ 5 + len →
      (loadTxBytes cmd (idHigh id) (idLow id) (BitVec.ofNat 8 len) payload)[k]? = some (answer s k)) :
    frameHere s = { id := BitVec.ofNat 11 id.toNat, len := len, data := payload } := by
  have h1 : idHigh id = answer s 1 := Option.some.inj (h 1 (by omega) (by omega))
  have h2 : idLow id = answer s 2 := Option.some.inj (h 2 (by omega) (by omega))
  have h5 : BitVec.ofNat 8 len = answer s 5 := Option.some.inj (h 5 (by omega) (by omega))
  have hdlc : min ((answer s 5).toNat % 16) 8 = len := by
    rw [← h5, BitVec.toNat_ofNat]
    omega
  have hdata : (List.range len).map (fun k => answer s (6 + k)) = payload := by
    refine List.ext_getElem (by simp [hpayload]) fun k hk _ => ?_
    have hk' : k < len := by simpa using hk
    have hbyte := h (6 + k) (by omega) (by omega)
    rw [Nat.add_comm] at hbyte
    simpa [loadTxBytes, List.getElem?_eq_getElem (hpayload ▸ hk'), Nat.add_comm, eq_comm] using hbyte
  rw [frameHere, hdlc, hdata, ← h1, ← h2, id_of_idHigh_idLow hid]

/-- Settles O40: SEND loads the frame's bytes, and RECEIVE reads the answers in the same positions. -/
theorem sentFrameReadBackIsTheSame : Obligations.SentFrameReadBackIsTheSame := by
  unfold Obligations.SentFrameReadBackIsTheSame
  intro s0 t0 s id len data channel e1 e3 xs hid hlen hsend hlog hanswers hchannel
  obtain ⟨cmd, hloaded⟩ := mosi_loaded_of_exec_send hsend hlog
  rw [sentLength_ofNat hlen] at hloaded
  have hframe : frameHere s = { id := BitVec.ofNat 11 id.toNat, len := len, data := data.toList.take len } := by
    refine frameHere_of_loaded (cmd := cmd) hid hlen (by simp [hlen]) fun k hk hk' => ?_
    rw [← hloaded, List.getElem?_map]
    exact hanswers k hk hk'
  obtain ⟨b, hb⟩ : ∃ b, resolveRx channel = some b := by
    obtain rfl | rfl | rfl := hchannel
    · exact ⟨.b0, rfl⟩
    · exact ⟨.b1, rfl⟩
    · exact ⟨.b0, rfl⟩
  refine ⟨_, exec_receive_of_resolveRx_some hb s, ?_⟩
  rw [← hframe]
  rw [deliver_results, afterReceive, afterTxns_results]

end Sys2Proof.Machine
end

