-- ==== Sys2Proof/Proofs/FifoQueue.lean ====
section
/-! PROOFS. The ring buffer as a queue (spec 10_state R29, R30; 44_ring_buffer R190 to R192). -/

namespace Sys2Proof.Machine

/-! ### What the queue and its invariant depend on -/

theorem fifoWindow_congr {s t : State} (hfifo : fifoOf t = fifoOf s) (hcfg : t.cfg = s.cfg) :
    fifoWindow t = fifoWindow s := by
  obtain ⟨hhead, -, hsize, hbuf⟩ := fifoOf_eq_iff.mp hfifo
  simp only [fifoWindow, fifoSlot, hhead, hsize, hbuf, hcfg]

theorem fifoOk_congr {s t : State} (hfifo : fifoOf t = fifoOf s) (hcfg : t.cfg = s.cfg) (h : FifoOk s) :
    FifoOk t := by
  have hwindow := fifoWindow_congr hfifo hcfg
  obtain ⟨hhead, htail, hsize, hbuf⟩ := fifoOf_eq_iff.mp hfifo
  simpa only [FifoOk, FifoBufOk, hhead, htail, hsize, hbuf, hcfg, hwindow] using h

/-! ### Push (R190) -/

section push
variable {s : State} (f : Frame)

theorem fifoSlot_fifoStore (h : FifoOk s) (i : Nat) :
    fifoSlot (fifoStore f s) i = if s.fifoTail = i then some f else fifoSlot s i := by
  obtain ⟨hbuf, -, -, htail, -, -⟩ := h
  exact fifoSlot_set (hbuf.symm ▸ htail) (some f)

/-- The tail is the place after the window, so storing there appends. -/
theorem fifoWindow_fifoStore (h : FifoOk s) (hroom : s.fifoSize < s.cfg.fifoN) :
    fifoWindow (fifoStore f s) = fifoWindow s ++ [some f] := by
  obtain ⟨-, -, -, -, htail, -⟩ := id h
  have hold : ∀ k ∈ List.range s.fifoSize,
      fifoSlot (fifoStore f s) ((s.fifoHead + k) % s.cfg.fifoN) = fifoSlot s ((s.fifoHead + k) % s.cfg.fifoN) := by
    intro k hk
    have hlt : k < s.fifoSize := List.mem_range.mp hk
    rw [fifoSlot_fifoStore f h, if_neg]
    intro heq
    exact hlt.ne' (window_index_inj hroom (hlt.trans hroom) (htail ▸ heq))
  have hnew : fifoSlot (fifoStore f s) ((s.fifoHead + s.fifoSize) % s.cfg.fifoN) = some f := by
    rw [fifoSlot_fifoStore f h, if_pos htail]
  rw [fifoWindow, fifoStore_fifoSize, List.range_succ, List.map_append, List.map_singleton]
  simp only [fifoStore_fifoHead, fifoStore_cfg]
  rw [List.map_congr_left hold, hnew, fifoWindow]

theorem fifoOk_fifoStore {f : Frame} (hf : FrameOk f) (h : FifoOk s) (hroom : s.fifoSize < s.cfg.fifoN) :
    FifoOk (fifoStore f s) := by
  have hwindow := fifoWindow_fifoStore f h hroom
  obtain ⟨hbuf, -, hhead, -, htail, hslots⟩ := h
  refine ⟨by simpa [FifoBufOk] using hbuf, hroom, hhead, Nat.mod_lt _ (Nat.zero_lt_of_lt hhead), ?_, ?_⟩
  · simp only [fifoStore_fifoTail, fifoStore_fifoHead, fifoStore_fifoSize, fifoStore_cfg]
    rw [htail, Nat.mod_add_mod, Nat.add_assoc]
  · intro slot hslot
    rw [hwindow, List.mem_append, List.mem_singleton] at hslot
    obtain hslot | rfl := hslot
    · exact hslots slot hslot
    · exact decide_eq_true hf

theorem fifoOk_fifoPush {f : Frame} (hf : FrameOk f) (h : FifoOk s) : FifoOk (fifoPush f s) := by
  obtain ⟨-, hsize, -⟩ := id h
  by_cases hfull : s.fifoSize = s.cfg.fifoN
  · rwa [fifoPush_full hfull]
  · rw [fifoPush_room hfull]
    exact fifoOk_fifoStore hf h (hsize.lt_of_ne hfull)

end push

/-- Settles O49: a push on a full FIFO is nothing, any other the store at the tail. -/
theorem pushAppendsOrDrops : Obligations.PushAppendsOrDrops := by
  unfold Obligations.PushAppendsOrDrops
  intro f s h hf
  refine ⟨fifoOk_fifoPush hf h, fun hfull => fifoPush_full hfull f, fun hroom => ?_⟩
  rw [fifoPush_room hroom.ne]
  refine ⟨fifoWindow_fifoStore f h hroom, ?_, rfl, fun i hi => ?_⟩
  · rw [fifoSlot_fifoStore f h, if_pos rfl]
  · rw [fifoSlot_fifoStore f h, if_neg hi.symm]

/-! ### Pop (R191, R192) -/

section pop
variable {s : State}

/-- The head's slot leaves the window, and every other entry moves one place on. -/
theorem fifoWindow_fifoAdvance (h : FifoOk s) (hne : s.fifoSize ≠ 0) :
    fifoWindow s = fifoSlot s s.fifoHead :: fifoWindow (fifoAdvance s) := by
  obtain ⟨-, -, hhead, -, -, -⟩ := h
  have hslot : ∀ i, fifoSlot (fifoAdvance s) i = fifoSlot s i := fun _ => rfl
  obtain ⟨n, hn⟩ := Nat.exists_eq_succ_of_ne_zero hne
  rw [fifoWindow, fifoWindow, hn, List.range_succ_eq_map, List.map_cons, List.map_map, Nat.add_zero,
    Nat.mod_eq_of_lt hhead]
  simp [hn, hslot, Nat.add_assoc, Nat.add_comm 1]

theorem fifoOk_fifoAdvance (h : FifoOk s) (hne : s.fifoSize ≠ 0) : FifoOk (fifoAdvance s) := by
  have hwindow := fifoWindow_fifoAdvance h hne
  obtain ⟨hbuf, hsize, hhead, htail, htaileq, hslots⟩ := h
  refine ⟨hbuf, (Nat.sub_le _ _).trans hsize, Nat.mod_lt _ (Nat.zero_lt_of_lt hhead), htail, ?_, ?_⟩
  · simp only [fifoAdvance_fifoTail, fifoAdvance_fifoHead, fifoAdvance_fifoSize, fifoAdvance_cfg]
    rw [Nat.mod_add_mod, Nat.add_assoc, Nat.add_sub_cancel' (Nat.pos_of_ne_zero hne), htaileq]
  · intro slot hslot
    exact hslots slot (hwindow ▸ List.mem_cons_of_mem _ hslot)

/-- A pop from a queue: its first frame is delivered and the rest stays. -/
theorem exec_fifoPop_cons (h : FifoOk s) (hne : s.fifoSize ≠ 0) :
    ∃ f, exec .fifoPop s = .next (deliver (okFrame f) (fifoAdvance s)) ∧
      fifoWindow s = some f :: fifoWindow (fifoAdvance s) := by
  obtain ⟨f, hslot, -⟩ := fifoSlot_head_of_fifoOk h hne
  exact ⟨f, exec_fifoPop_written hne hslot, hslot ▸ fifoWindow_fifoAdvance h hne⟩

end pop

/-- Settles O50: FIFO_POP advances the head of a queue that its invariant describes. -/
theorem popTakesTheOldest : Obligations.PopTakesTheOldest := by
  unfold Obligations.PopTakesTheOldest
  intro s h hne
  obtain ⟨f, hexec, hwindow⟩ := exec_fifoPop_cons h hne
  exact ⟨f, _, hexec, fifoOk_fifoAdvance h hne, hwindow, rfl⟩

/-! ### Runs of pushes and pops (R191) -/

/-- On the queue, a push is an append cut off at FIFO_N. -/
theorem fifoWindow_fifoPush (f : Frame) {s : State} (h : FifoOk s) :
    fifoWindow (fifoPush f s) = (fifoWindow s ++ [some f]).take s.cfg.fifoN := by
  obtain ⟨-, hsize, -⟩ := id h
  have hlength := length_fifoWindow s
  by_cases hfull : s.fifoSize = s.cfg.fifoN
  · rw [fifoPush_full hfull, List.take_append_of_le_length (by omega), List.take_of_length_le (by omega)]
  · have hroom : s.fifoSize < s.cfg.fifoN := hsize.lt_of_ne hfull
    rw [fifoPush_room hfull, fifoWindow_fifoStore f h hroom, List.take_of_length_le]
    rw [List.length_append, List.length_singleton]
    omega

/-- Cutting off early makes no difference to what is cut off in the end. -/
theorem take_take_append {α : Type} (n : Nat) (as bs : List α) : (as.take n ++ bs).take n = (as ++ bs).take n := by
  rw [List.take_append, List.take_append, List.take_take, Nat.min_self, List.length_take]
  congr 2
  omega

/-- Pushing a list keeps the invariant, the parameters and the results, and fills the queue up to FIFO_N. -/
theorem pushAll_spec (fs : List Frame) {s : State} (h : FifoOk s) (hfs : ∀ f ∈ fs, FrameOk f) :
    FifoOk (pushAll fs s) ∧ (pushAll fs s).results = s.results ∧
      fifoWindow (pushAll fs s) = (fifoWindow s ++ fs.map some).take s.cfg.fifoN := by
  induction fs generalizing s with
  | nil =>
    obtain ⟨-, hsize, -⟩ := id h
    refine ⟨h, rfl, ?_⟩
    rw [List.map_nil, List.append_nil, List.take_of_length_le (by rwa [length_fifoWindow])]
    rfl
  | cons f fs ih =>
    obtain ⟨hf, hrest⟩ := List.forall_mem_cons.mp hfs
    obtain ⟨hok, hresults, hwindow⟩ := ih (fifoOk_fifoPush hf h) hrest
    refine ⟨hok, hresults.trans (fifoPush_results f s), hwindow.trans ?_⟩
    rw [fifoPush_cfg, fifoWindow_fifoPush f h, take_take_append, List.append_assoc]
    rfl

/-- As many pops as frames asked for return them in order and leave the others. -/
theorem execMany_fifoPop (r : Nat) {s : State} {fs : List Frame} (h : FifoOk s)
    (hwindow : fifoWindow s = fs.map some) (hr : r ≤ fs.length) :
    ∃ t, execMany (List.replicate r .fifoPop) s = .next t ∧
      t.results = s.results ++ (fs.take r).map okFrame ∧ fifoWindow t = (fs.drop r).map some := by
  induction r generalizing s fs with
  | zero => exact ⟨s, rfl, by simp, hwindow⟩
  | succ r ih =>
    have hlength : s.fifoSize = fs.length := by rw [← length_fifoWindow, hwindow, List.length_map]
    have hne : s.fifoSize ≠ 0 := by omega
    obtain ⟨f, hexec, hcons⟩ := exec_fifoPop_cons h hne
    cases fs with
    | nil => cases hr
    | cons g fs =>
      rw [hwindow, List.map_cons, List.cons.injEq] at hcons
      obtain ⟨hfg, hrest⟩ := hcons
      obtain rfl : g = f := Option.some.inj hfg
      obtain ⟨t, hrun, hresults, hleft⟩ :=
        ih (s := deliver (okFrame g) (fifoAdvance s)) (fifoOk_fifoAdvance h hne) hrest.symm (Nat.le_of_succ_le_succ hr)
      refine ⟨t, ?_, ?_, hleft⟩
      · rw [List.replicate_succ, execMany, hexec]
        exact hrun
      · rw [hresults]
        simp

/-- Settles O51: after the pushes the queue is the first FIFO_N frames, and pops take them from its front. -/
theorem fifoOrderIsPushOrder : Obligations.FifoOrderIsPushOrder := by
  unfold Obligations.FifoOrderIsPushOrder
  intro s fs r h hempty hfs hr hrN
  obtain ⟨hok, hresults, hwindow⟩ := pushAll_spec fs h hfs
  have hnil : fifoWindow s = [] := List.length_eq_zero_iff.mp (by rw [length_fifoWindow, hempty])
  rw [hnil, List.nil_append, ← List.map_take] at hwindow
  obtain ⟨t, hrun, hpopped, hleft⟩ := execMany_fifoPop r hok hwindow (by rw [List.length_take]; omega)
  rw [hresults, List.take_take, Nat.min_eq_left hrN] at hpopped
  exact ⟨t, hrun, hpopped, hleft⟩

end Sys2Proof.Machine
end

