-- ==== Sys2Proof/Proofs/Agents.lean ====
section
/-! PROOFS. What each agent's turn leaves unchanged (spec 10_state R26; 43_receive_dispatcher R176), and with it
where a drained frame goes. -/

namespace Sys2Proof.Machine

/-! ### Instructions -/

/-- What an instruction may change at all: the bus side, its reply or result, and the FIFO's and the callback's
registers; no slot, input, queue, drain state or parameter. -/
abbrev ExecFrame (s t : State) : Prop :=
  t = { s with
    csN := t.csN, busLog := t.busLog, miso := t.miso, misoDraws := t.misoDraws, seqReplies := t.seqReplies
    results := t.results, fifoHead := t.fifoHead, fifoTail := t.fifoTail, fifoSize := t.fifoSize
    cbAttached := t.cbAttached }

theorem exec_frame {i : Instr} {s t : State} (h : exec i s = .next t) : ExecFrame s t := by
  cases hi : isBusCommand i with
  | true =>
    obtain ⟨kept, mosi, rfl⟩ := exec_busCommand_cases hi h
    rfl
  | false =>
    obtain ⟨-, hframe, -⟩ := hostOperationFrame i s t hi h
    have hreplies : t.seqReplies = s.seqReplies := (congrArg State.seqReplies hframe :)
    rw [ExecFrame, hreplies]
    exact hframe

section execFrame
variable {s t : State} (h : ExecFrame s t)
include h

theorem ExecFrame.fifoBuf : t.fifoBuf = s.fifoBuf := (congrArg State.fifoBuf h :)
theorem ExecFrame.drainState : t.drainState = s.drainState := (congrArg State.drainState h :)
theorem ExecFrame.intPrev : t.intPrev = s.intPrev := (congrArg State.intPrev h :)
theorem ExecFrame.edgeLatch : t.edgeLatch = s.edgeLatch := (congrArg State.edgeLatch h :)
theorem ExecFrame.cbLog : t.cbLog = s.cbLog := (congrArg State.cbLog h :)
theorem ExecFrame.rstN : t.rstN = s.rstN := (congrArg State.rstN h :)
theorem ExecFrame.cfg : t.cfg = s.cfg := (congrArg State.cfg h :)
theorem ExecFrame.schedule : t.schedule = s.schedule := (congrArg State.schedule h :)

end execFrame

/-! ### The drain -/

/-- An iteration is transactions, then the return to IDLE or the delivery of one well-formed frame. -/
theorem drainIter_cases (s : State) :
    ∃ ts, drainIter s = drainReturn (afterTxns s ts) ∨
      ∃ f, FrameOk f ∧ drainIter s = route f (afterTxns s ts) := by
  by_cases h : availAnswered s = 0#2
  · exact ⟨[availMosi s], .inl (drainIter_none h)⟩
  · obtain ⟨b, hb⟩ : ∃ b, (if availAnswered s = 2#2 then RxBuffer.b1 else .b0) = b := ⟨_, rfl⟩
    have hiter := drainIter_some h hb
    rw [frameAnswered_eq_frameHere] at hiter
    exact ⟨[availMosi s, readRxMosi (afterTxn s (availMosi s)) b, [0x05, addrCanintf, rxClearMask s.cfg b, 0x00]],
      .inr ⟨_, frameOk_frameHere _, hiter⟩⟩

/-- The DRAIN agent's turn: a start, or transactions and at most one delivery. -/
theorem drainTurn_forms (s : State) :
    drainTurn s = s ∨ (DrainMayStart s ∧ drainTurn s = drainEnter s) ∨
      (s.rstN = .high ∧ s.drainState = .draining ∧ ∃ ts, drainTurn s = drainReturn (afterTxns s ts) ∨
        ∃ f, FrameOk f ∧ drainTurn s = route f (afterTxns s ts)) := by
  obtain h | ⟨hrst, hdraining, h⟩ | ⟨hstart, h⟩ := drainTurn_cases s
  · exact .inl h
  · exact .inr (.inr ⟨hrst, hdraining, h ▸ drainIter_cases s⟩)
  · exact .inr (.inl ⟨hstart, h⟩)

/-- The host ports and the parameters are not the drain's. -/
theorem drainTurn_ports (s : State) :
    (drainTurn s).requests = s.requests ∧ (drainTurn s).results = s.results ∧ (drainTurn s).cfg = s.cfg := by
  obtain h | ⟨-, h⟩ | ⟨-, -, ts, h | ⟨f, -, h⟩⟩ := drainTurn_forms s
  all_goals simp [h]

/-- With a callback attached, delivery adds the frame to the callback log; the FIFO stays as it was (R176). -/
theorem drainTurn_attached {s : State} (hcb : s.cbAttached = true) :
    fifoOf (drainTurn s) = fifoOf s ∧
      ((drainTurn s).cbLog = s.cbLog ∨ ∃ f, (drainTurn s).cbLog = s.cbLog ++ [f]) := by
  obtain h | ⟨-, h⟩ | ⟨-, -, ts, h | ⟨f, -, h⟩⟩ := drainTurn_forms s
  · exact ⟨by rw [h], .inl (by rw [h])⟩
  · exact ⟨by rw [h]; rfl, .inl (by rw [h]; rfl)⟩
  · have hfifo : fifoOf (drainReturn (afterTxns s ts)) = fifoOf (afterTxns s ts) := rfl
    exact ⟨by rw [h, hfifo, fifoOf_afterTxns], .inl (by simp [h])⟩
  · rw [route_attached (by rw [afterTxns_cbAttached, hcb])] at h
    have hfifo : fifoOf (callbackDeliver f (afterTxns s ts)) = fifoOf (afterTxns s ts) := rfl
    exact ⟨by rw [h, hfifo, fifoOf_afterTxns], .inr ⟨f, by simp [h]⟩⟩

/-- With none attached, delivery pushes the frame, and the callback log stays as it was (R176, R190). -/
theorem drainTurn_detached {s : State} (hcb : s.cbAttached = false) :
    (drainTurn s).cbLog = s.cbLog ∧
      ((drainTurn s).fifoSize = s.fifoSize ∨ (drainTurn s).fifoSize = s.fifoSize + 1) := by
  obtain h | ⟨-, h⟩ | ⟨-, -, ts, h | ⟨f, -, h⟩⟩ := drainTurn_forms s
  · exact ⟨by rw [h], .inl (by rw [h])⟩
  · exact ⟨by rw [h]; rfl, .inl (by rw [h]; rfl)⟩
  · exact ⟨by simp [h], .inl (by simp [h])⟩
  · rw [route_detached (by rw [afterTxns_cbAttached, hcb])] at h
    refine ⟨by simp [h], ?_⟩
    by_cases hfull : (afterTxns s ts).fifoSize = (afterTxns s ts).cfg.fifoN
    · exact .inl (by rw [h, fifoPush_full hfull, afterTxns_fifoSize])
    · exact .inr (by rw [h, fifoPush_room hfull, fifoStore_fifoSize, afterTxns_fifoSize])

/-- The storage changes only by a push from DRAINING with no callback attached, and then at the tail (R26). -/
theorem drainTurn_fifoBuf_cases (s : State) :
    (drainTurn s).fifoBuf = s.fifoBuf ∨
      (s.drainState = .draining ∧ s.cbAttached = false ∧
        ∃ f, (drainTurn s).fifoBuf = s.fifoBuf.set s.fifoTail (some f)) := by
  cases hcb : s.cbAttached with
  | true => exact .inl (congrArg Fifo.buf (drainTurn_attached hcb).1)
  | false =>
    obtain h | ⟨-, h⟩ | ⟨-, hdraining, ts, h | ⟨f, -, h⟩⟩ := drainTurn_forms s
    · exact .inl (by rw [h])
    · exact .inl (by rw [h]; rfl)
    · exact .inl (by simp [h])
    · rw [route_detached (by rw [afterTxns_cbAttached, hcb])] at h
      by_cases hfull : (afterTxns s ts).fifoSize = (afterTxns s ts).cfg.fifoN
      · exact .inl (by rw [h, fifoPush_full hfull, afterTxns_fifoBuf])
      · exact .inr ⟨hdraining, rfl, f, by rw [h, fifoPush_room hfull]; simp⟩

/-! ### The step -/

/-- `s` with the schedule moved on: what an agent finds when its turn comes. -/
abbrev turnTaken (s : State) (turns : List Turn) (draws : Nat) : State :=
  { s with schedule := turns, turnDraws := draws }

/-- A step by whose turn it was, as `step_cases` gives it, with the state the agent finds written out. -/
theorem step_turn_cases {s t : State} (h : step s = .next t) :
    ∃ turns draws,
      (∃ e, (nextTurn s).1 = .env e ∧ t = envTurn e (turnTaken s turns draws)) ∨
      ((nextTurn s).1 = .drain ∧ t = drainTurn (turnTaken s turns draws)) ∨
      ((nextTurn s).1 = .host ∧ hostTurn (turnTaken s turns draws) = .next t) := by
  obtain ⟨-, u, ⟨rest, rfl⟩ | rfl, hturn⟩ := step_cases h
  · exact ⟨rest, s.turnDraws, hturn⟩
  · exact ⟨s.schedule, s.turnDraws + 1, hturn⟩

/-- Settles O44: by whether a callback is attached. -/
theorem aFrameIsNeverDeliveredTwice : Obligations.AFrameIsNeverDeliveredTwice := by
  unfold Obligations.AFrameIsNeverDeliveredTwice
  intro s t hdrain h
  obtain ⟨turns, draws, hturn⟩ := step_turn_cases h
  rw [hdrain] at hturn
  obtain ⟨e, he, -⟩ | ⟨-, rfl⟩ | ⟨hhost, -⟩ := hturn
  · cases he
  · constructor
    · intro hcb
      obtain ⟨hfifo, hlog⟩ := drainTurn_attached (s := turnTaken s turns draws) hcb
      obtain ⟨hhead, htail, hsize, hbuf⟩ := fifoOf_eq_iff.mp hfifo
      exact ⟨hbuf, hhead, htail, hsize, hlog⟩
    · exact fun hcb => drainTurn_detached (s := turnTaken s turns draws) hcb
  · cases hhost

/-- The HOST agent's turn writes no slot. -/
theorem hostTurn_fifoBuf {s t : State} (h : hostTurn s = .next t) : t.fifoBuf = s.fifoBuf := by
  obtain rfl | ⟨p, ps, -, -, ⟨i, -, hexec⟩ | ⟨r, e, -, -, rfl⟩⟩ := hostTurn_cases h
  · rfl
  · exact (exec_frame hexec).fifoBuf
  · rfl

theorem envTurn_fifoBuf (e : EnvEvent) (s : State) : (envTurn e s).fifoBuf = s.fifoBuf := by
  by_cases he : e = .setRst .low
  · subst he
    rfl
  · exact congrArg Fifo.buf (fifoOf_envTurn he s)

theorem step_fifoBuf_cases {s t : State} (h : step s = .next t) :
    t.fifoBuf = s.fifoBuf ∨
      ((nextTurn s).1 = .drain ∧ s.drainState = .draining ∧ s.cbAttached = false ∧
        ∃ f, t.fifoBuf = s.fifoBuf.set s.fifoTail (some f)) := by
  obtain ⟨turns, draws, ⟨e, -, rfl⟩ | ⟨hdrain, rfl⟩ | ⟨-, hhost⟩⟩ := step_turn_cases h
  · exact .inl (envTurn_fifoBuf e _)
  · exact (drainTurn_fifoBuf_cases (turnTaken s turns draws)).imp_right (And.intro hdrain)
  · exact .inl (hostTurn_fifoBuf hhost :)

/-- Settles O52: the storage after a step is the storage before, or the drain's push into it. -/
theorem onlyTheDrainWritesTheTailSlot : Obligations.OnlyTheDrainWritesTheTailSlot := by
  unfold Obligations.OnlyTheDrainWritesTheTailSlot
  intro s t h
  obtain hsame | ⟨hdrain, hdraining, hcb, f, hset⟩ := step_fifoBuf_cases h
  · exact ⟨fun i _ => by simp only [fifoSlot, hsame], fun hne => absurd hsame hne⟩
  · refine ⟨fun i hi => ?_, fun _ => ⟨hdrain, hdraining, hcb⟩⟩
    simp only [fifoSlot, hset, List.getElem?_set_ne hi.symm]

end Sys2Proof.Machine
end

