-- ==== Sys2Proof/Proofs/Steps.lean ====
section
/-! PROOFS. When each agent's step is taken and what a step does with the request port and the lines (spec
60_exceptions R243 to R245; 70_reset_and_hazards R260; 30_encoding R83; 45_control_ops R216; logs 7, 11, 12, 14, 19). -/

namespace Sys2Proof.Machine

section scheduled
variable {s : State} {turns : List Turn}

theorem step_scheduled {turn : Turn} (hw : s.cfg.wellFormed = true) (hs : s.schedule = turn :: turns) :
    step s = takeTurn turn { s with schedule := turns } := by
  rw [step_ok hw, nextTurn_cons hs]
  rfl

theorem step_host_waits (hw : s.cfg.wellFormed = true) (hs : s.schedule = .host :: turns) (hm : ¬ HostMayStep s) :
    step s = .next { s with schedule := turns } := by
  rw [step_scheduled hw hs]
  exact hostTurn_wait hm

theorem step_host_runs {p : Presented} {ps : List Presented} (hw : s.cfg.wellFormed = true)
    (hs : s.schedule = .host :: turns) (hr : s.requests = p :: ps) (hm : HostMayStep s) :
    step s = runPresented p { s with schedule := turns, requests := ps } := by
  rw [step_scheduled hw hs]
  exact hostTurn_run (s := { s with schedule := turns }) hr hm

end scheduled

/-! ### Requests (R244, R83) -/

/-- Settles O6: the HOST agent's turn takes what stands first, and it runs as what it decodes to. -/
theorem stepRunsThePresentedInstruction : Obligations.StepRunsThePresentedInstruction := by
  unfold Obligations.StepRunsThePresentedInstruction
  intro s turns p ps i hw hs hr hm hd
  rw [step_host_runs hw hs hr hm]
  exact runPresented_ok hd

theorem runPresented_rejected {r : Request} {e : DecodeError} (h : decodeRequest r = .error e) (s : State) :
    runPresented (.request r) s = .next (refuseRequest s) := by
  have hd : decodePresented s.cfg.dummyByte (.request r) = .error e := h
  unfold runPresented
  rw [hd]

/-- Settles O9: a reserved op code is rejected, and a rejected request sets the mark. -/
theorem reservedRequestSetsTheMark : Obligations.ReservedRequestSetsTheMark := by
  unfold Obligations.ReservedRequestSetsTheMark
  intro s turns r ps hw hs hr hm hreserved
  have hrejected := (onlyReservedOpCodesAreRejected r).1 hreserved
  rw [step_host_runs hw hs hr hm, runPresented_rejected hrejected]
  rfl

/-- A HOST turn that is not enabled, or finds nothing presented, changes nothing; so a change means it was. -/
theorem hostTurn_eq_or_hostMayStep {s t : State} (h : hostTurn s = .next t) : t = s ∨ HostMayStep s := by
  obtain ht | ⟨p, ps, -, hm, -⟩ := hostTurn_cases h
  · exact .inl ht
  · exact .inr hm

/-- ENV takes no request, and adds no result. -/
theorem envTurn_ports (e : EnvEvent) (s : State) :
    (envTurn e s).requests = s.requests ∧ ((envTurn e s).results = s.results ∨ (envTurn e s).results = []) := by
  cases e with
  | setInt v => exact ⟨rfl, .inl rfl⟩
  | setRst v =>
    cases v with
    | low => exact ⟨rfl, .inr rfl⟩
    | high => exact ⟨rfl, .inl rfl⟩

/-- A step that is not an enabled host step keeps the request port, and keeps or clears the result record. -/
theorem step_ports_cases {s t : State} (h : step s = .next t) :
    HostMayStep s ∨ (t.requests = s.requests ∧ (t.results = s.results ∨ t.results = [])) := by
  obtain ⟨turns, draws, ⟨e, -, rfl⟩ | ⟨-, rfl⟩ | ⟨-, hhost⟩⟩ := step_turn_cases h
  · exact .inr (envTurn_ports e (turnTaken s turns draws))
  · obtain ⟨hrequests, hresults, -⟩ := drainTurn_ports (turnTaken s turns draws)
    exact .inr ⟨hrequests, .inl hresults⟩
  · obtain rfl | hm := hostTurn_eq_or_hostMayStep hhost
    · exact .inr ⟨rfl, .inl rfl⟩
    · exact .inl hm

/-- Settles O8: a record kept or cleared is not one with a result added. -/
theorem requestsAreTakenOnlyWhenHostMayStep : Obligations.RequestsAreTakenOnlyWhenHostMayStep := by
  unfold Obligations.RequestsAreTakenOnlyWhenHostMayStep
  intro s t h hchange
  obtain hm | ⟨hrequests, hresults⟩ := step_ports_cases h
  · exact hm
  · exfalso
    obtain hne | ⟨r, rs, hadded⟩ := hchange
    · exact hne hrequests
    · obtain hsame | hcleared := hresults
      · simp [hsame] at hadded
      · simp [hcleared] at hadded

/-- Settles O45: a request taken means an enabled host step, and under LEVEL that means the line is high. -/
theorem interruptPendingIsZeroUnderLevel : Obligations.InterruptPendingIsZeroUnderLevel := by
  unfold Obligations.InterruptPendingIsZeroUnderLevel
  intro s t turns p ps hlevel hs hr hd h htaken
  obtain ⟨hw, -⟩ := step_cases h
  have hm : HostMayStep s := by
    refine requestsAreTakenOnlyWhenHostMayStep s t h (.inl ?_)
    rw [htaken, hr]
    exact (List.cons_ne_self p ps).symm
  obtain ⟨-, -, hline, -⟩ := id hm
  rw [stepRunsThePresentedInstruction s turns p ps _ hw hs hr hm hd,
    exec_interruptPending_high (s := { s with schedule := turns, requests := ps }) (hline hlevel)] at h
  cases h
  rfl

/-! ### Serialisation (R244) -/

/-- Settles O7: each clause is one agent's turn. -/
theorem stepsAreSerialised : Obligations.StepsAreSerialised := by
  unfold Obligations.StepsAreSerialised
  intro s turns hw
  refine ⟨?host, ?iteration, ?start, ?waits, ?line, ?reset⟩
  case host =>
    intro p ps i hs hr hm hd
    exact stepRunsThePresentedInstruction s turns p ps i hw hs hr hm hd
  case iteration =>
    intro hs hrst hdraining
    rw [step_scheduled hw hs]
    exact congrArg _ (drainTurn_iterates (s := { s with schedule := turns }) hrst hdraining)
  case start =>
    intro hs hstart
    rw [step_scheduled hw hs]
    exact congrArg _ (drainTurn_starts (s := { s with schedule := turns }) hstart)
  case waits => exact step_host_waits hw
  case line =>
    intro v hs
    rw [step_scheduled hw hs]
    rfl
  case reset =>
    intro v hs
    rw [step_scheduled hw hs]
    cases v with
    | low => exact ⟨_, rfl, rfl⟩
    | high => exact ⟨_, rfl, rfl⟩

/-! ### The lines (R243, R260) -/

theorem envSetInt_falling_edge {s : State} {v : Level} (hedge : s.cfg.drainMode = .edge) (hhigh : s.intPrev = .high)
    (hlow : v = .low) : envSetInt v s = { s with intPrev := v, edgeLatch := true } := by
  rw [envSetInt, if_pos ⟨hedge, hhigh, hlow⟩]

theorem envSetInt_no_falling_edge {s : State} {v : Level} (h : s.cfg.drainMode ≠ .edge ∨ s.intPrev = .low ∨ v = .high) :
    envSetInt v s = { s with intPrev := v } := by
  rw [envSetInt, if_neg]
  rintro ⟨hedge, hhigh, rfl⟩
  simp [hedge, hhigh] at h

/-- Settles O46: a falling edge under EDGE, or none. -/
theorem theLineAndItsEdgeAreRecorded : Obligations.TheLineAndItsEdgeAreRecorded := by
  unfold Obligations.TheLineAndItsEdgeAreRecorded
  intro s turns v hw hs
  rw [step_scheduled hw hs]
  constructor
  · intro hedge hhigh hlow
    exact congrArg _ (envSetInt_falling_edge (s := { s with schedule := turns }) hedge hhigh hlow)
  · intro h
    exact congrArg _ (envSetInt_no_falling_edge (s := { s with schedule := turns }) h)

/-- Settles O55: the assertion is `blockReset`, which gives R28's values; in reset the two agents wait; the release
sets the level alone. -/
theorem blockResetTakesEffectAtOnce : Obligations.BlockResetTakesEffectAtOnce := by
  unfold Obligations.BlockResetTakesEffectAtOnce
  intro s turns hw
  refine ⟨?asserted, ?held, ?released⟩
  case asserted =>
    intro hs
    refine ⟨setRstN .low (blockReset { s with schedule := turns }), ?_, ?_⟩
    · rw [step_scheduled hw hs]
      rfl
    · simp
  case held =>
    rintro hrst (hs | hs)
    · exact step_host_waits hw hs fun ⟨hhigh, _⟩ => by simp [hrst] at hhigh
    · rw [step_scheduled hw hs]
      exact congrArg _ (drainTurn_inReset (s := { s with schedule := turns }) hrst)
  case released =>
    intro hs
    rw [step_scheduled hw hs]
    rfl

/-! ### A word placed at the request port (log 14) -/

/-- What a table word presents decodes to the word's instruction, whatever the dummy byte in use: a request does
not depend on it, and a bus command is laid out again with it. -/
theorem decodePresented_presentedFor {d : Byte} {nbits w : Nat} {i : Instr} (h : decodeTableWord nbits w = some i) :
    decodePresented d (presentedFor d (w % 2 ^ nbits)) = .ok i := by
  unfold decodeTableWord at h
  unfold presentedFor
  cases hp : presentedOfWord (w % 2 ^ nbits) with
  | request r =>
    rw [hp] at h
    cases hr : decodeRequest r with
    | ok j =>
      simp only [decodePresented, hr, Option.some.injEq] at h
      exact h ▸ hr
    | error e => simp [decodePresented, hr] at h
  | command bytes =>
    rw [hp] at h
    cases hc : decodeCommand defaultConfig.dummyByte bytes with
    | ok j =>
      obtain ⟨-, hw, -⟩ := decodedCommandsAreExact _ _ _ hc
      simp only [decodePresented, hc, Option.some.injEq] at h
      simp only [hc]
      exact h ▸ decodeInvertsEncode d j hw
    | error e => simp [decodePresented, hc] at h

theorem hostMayStep_presentNext (p : Presented) (s : State) : HostMayStep (presentNext p s) :=
  ⟨rfl, rfl, fun hlevel => if_pos hlevel, fun hedge => if_pos hedge⟩

/-- Settles O12: the placing schedules the HOST agent, enables it, and puts the word first at its port. -/
theorem presentedTableWordRunsNext : Obligations.PresentedTableWordRunsNext := by
  unfold Obligations.PresentedTableWordRunsNext
  intro s nbits w i hw h
  exact stepRunsThePresentedInstruction (s.withFetchWord nbits w) s.schedule _ s.requests i hw rfl rfl
    (hostMayStep_presentNext _ s) (decodePresented_presentedFor h)

end Sys2Proof.Machine
end

