-- ==== Sys2Proof/Proofs/Invariant.lean ====
section
/-! PROOFS. What every step keeps: the block's invariant and the parameters, and the form of the log (spec 10_state
sections 3 and 4; 30_encoding R70, R71, R79; 40_register_interface R109; 60_exceptions R242). -/

namespace Sys2Proof.Machine

/-! ### The bus side of a step (R58, R71, R109) -/

theorem wellFormed_of_decodePresented {d : Byte} {p : Presented} {i : Instr} (h : decodePresented d p = .ok i) :
    i.wellFormed = true := by
  cases p with
  | request r =>
    obtain ⟨-, hhost, -⟩ := decodeRequest_ok h
    exact wellFormed_of_not_isBusCommand hhost
  | command bytes =>
    obtain ⟨-, hw, -⟩ := decodedCommandsAreExact d bytes i h
    exact hw

theorem hostTurn_runs {s t : State} (h : hostTurn s = .next t) : Runs s t := by
  obtain rfl | ⟨p, ps, -, -, ⟨i, hd, hexec⟩ | ⟨r, e, -, -, rfl⟩⟩ := hostTurn_cases h
  · exact .refl _
  · have htaken : Runs s (withRequests ps s) := (Runs.refl s).quiet rfl rfl rfl rfl
    exact htaken.trans (exec_runs (wellFormed_of_decodePresented hd) hexec)
  · exact (Runs.refl s).quiet rfl rfl rfl rfl

theorem drainTurn_runs (s : State) : Runs s (drainTurn s) := by
  obtain h | ⟨-, -, h⟩ | ⟨-, h⟩ := drainTurn_cases s
  · rw [h]
    exact .refl s
  · exact h ▸ runs_drainIter s
  · exact h ▸ (Runs.refl s).quiet rfl rfl rfl rfl

theorem envTurn_runs {e : EnvEvent} (he : e ≠ .setRst .low) (s : State) : Runs s (envTurn e s) := by
  cases e with
  | setInt v => exact (Runs.refl s).quiet rfl rfl rfl rfl
  | setRst v =>
    cases v with
    | low => exact absurd rfl he
    | high => exact (Runs.refl s).quiet rfl rfl rfl rfl

/-- Every step but the block reset is a legal run of the bus. -/
theorem step_runs {s t : State} (h : step s = .next t) (hreset : (nextTurn s).1 ≠ .env (.setRst .low)) :
    Runs s t := by
  obtain ⟨turns, draws, hturn⟩ := step_turn_cases h
  have htaken : Runs s (turnTaken s turns draws) := (Runs.refl s).quiet rfl rfl rfl rfl
  refine htaken.trans ?_
  obtain ⟨e, he, rfl⟩ | ⟨-, rfl⟩ | ⟨-, hhost⟩ := hturn
  · exact envTurn_runs (fun heq => hreset (heq ▸ he)) _
  · exact drainTurn_runs _
  · exact hostTurn_runs hhost

/-- The block reset empties the log and keeps the parameters. -/
theorem step_blockReset {s t : State} (h : step s = .next t) (hreset : (nextTurn s).1 = .env (.setRst .low)) :
    t.busLog = [] ∧ t.cfg = s.cfg := by
  obtain ⟨turns, draws, hturn⟩ := step_turn_cases h
  rw [hreset] at hturn
  obtain ⟨e, he, rfl⟩ | ⟨hdrain, -⟩ | ⟨hhost, -⟩ := hturn
  · cases he
    exact ⟨rfl, rfl⟩
  · cases hdrain
  · cases hhost

theorem step_cfg {s t : State} (h : step s = .next t) : t.cfg = s.cfg := by
  by_cases hreset : (nextTurn s).1 = .env (.setRst .low)
  · exact (step_blockReset h hreset).2
  · obtain ⟨es, hrun⟩ := step_runs h hreset
    exact hrun.cfg

/-- Settles O59: a step empties the log, or adds a legal run to it. -/
theorem everyRecordedTransactionIsACommand : Obligations.EveryRecordedTransactionIsACommand := by
  unfold Obligations.EveryRecordedTransactionIsACommand
  intro s t hlegal h
  rw [step_cfg h]
  by_cases hreset : (nextTurn s).1 = .env (.setRst .low)
  · rw [(step_blockReset h hreset).1]
    intro bytes hbytes
    cases hbytes
  · obtain ⟨es, hrun⟩ := step_runs h hreset
    rw [hrun.log]
    exact logLegal_append hlegal hrun.legal

/-- Settles O60: the run of the step is the events, with their answers. -/
theorem theLogRecordsEveryAnswerInOrder : Obligations.TheLogRecordsEveryAnswerInOrder := by
  unfold Obligations.TheLogRecordsEveryAnswerInOrder
  intro s t h hreset
  obtain ⟨es, hrun⟩ := step_runs h hreset
  exact ⟨es, hrun.log, hrun.answers, hrun.miso, hrun.draws⟩

/-! ### The invariant after reset (R28) -/

/-- Settles O54: `State.reset` is a literal, so each field evaluates. -/
theorem resetHasTheStatedValues : Obligations.ResetHasTheStatedValues := by
  unfold Obligations.ResetHasTheStatedValues
  decide

/-- Settles O56: the FIFO is empty, the records too, and the block is out of reset. -/
theorem resetMeetsTheBlockInvariant : Obligations.ResetMeetsTheBlockInvariant := by
  unfold Obligations.ResetMeetsTheBlockInvariant
  exact {
    cfgOk := by decide
    fifoOk := by decide
    csHigh := rfl
    cbLogOk := by decide
    resultsOk := fun _ hr => by cases hr
    latchOnlyEdge := fun _ => rfl
    polledIdle := fun _ => rfl
    heldInReset := by decide }

/-! ### The FIFO and the bus under the invariant -/

/-- Emptied, the FIFO meets its invariant whatever its slots hold. -/
theorem fifoOk_cleared {s t : State} (h : FifoOk s) (hfifo : fifoOf t = (fifoOf s).cleared)
    (hcfg : t.cfg = s.cfg) : FifoOk t := by
  obtain ⟨hhead, htail, hsize, hbuf⟩ := fifoOf_eq_cleared_iff.mp hfifo
  obtain ⟨hlength, -, hlt, -⟩ := h
  have hpos : 0 < s.cfg.fifoN := Nat.zero_lt_of_lt hlt
  rw [FifoOk, FifoBufOk, fifoWindow, hhead, htail, hsize, hbuf, hcfg]
  exact ⟨hlength, Nat.zero_le _, hpos, hpos, (Nat.zero_mod _).symm, by simp⟩

theorem fifoOk_hostEffect (i : Instr) {s : State} (h : FifoOk s) : FifoOk (hostEffect i s) := by
  cases i
  case initializeOp => exact fifoOk_cleared h (fifoOf_fifoClear s) rfl
  case fifoPop =>
    by_cases hsize : s.fifoSize = 0
    · have hempty : hostEffect .fifoPop s = s := if_pos hsize
      rwa [hempty]
    · have hpop : hostEffect .fifoPop s = fifoAdvance s := if_neg hsize
      rw [hpop]
      exact fifoOk_fifoAdvance h hsize
  all_goals exact h

theorem afterTxns_csN {s : State} (h : s.csN = .high) (ts : List (List Byte)) : (afterTxns s ts).csN = .high := by
  induction ts generalizing s with
  | nil => exact h
  | cons mosi ts ih => exact ih (afterTxn_csN s mosi)

theorem hostReady_csN (i : Instr) {s : State} (h : s.csN = .high) : (hostReady i s).csN = .high := by
  have heffect : (hostEffect i s).csN = s.csN := (congrArg State.csN (hostEffect_frame i s) :)
  rw [hostReady, initReset_eq]
  split
  · rfl
  · rw [heffect, h]

theorem fifoOf_hostReady (i : Instr) (s : State) : fifoOf (hostReady i s) = fifoOf (hostEffect i s) :=
  fifoOf_initReset _ _

/-- What the invariant says of the fields an instruction changes. -/
theorem exec_keeps {i : Instr} {s t : State} (hfifo : FifoOk s) (hcs : s.csN = .high)
    (hresults : ∀ r ∈ s.results, ResultOk r) (h : exec i s = .next t) :
    FifoOk t ∧ t.csN = .high ∧ ∀ r ∈ t.results, ResultOk r := by
  cases hi : isBusCommand i with
  | true =>
    obtain ⟨kept, mosi, rfl⟩ := exec_busCommand_cases hi h
    exact ⟨hfifo, rfl, hresults⟩
  | false =>
    obtain ⟨r, ts, hend, hr, -⟩ := exec_host_endsWith hi h
    cases hend
    have hcfg := (exec_frame h).cfg
    refine ⟨fifoOk_congr ?_ (hcfg.trans (hostEffect_cfg i s).symm) (fifoOk_hostEffect i hfifo),
      afterTxns_csN (hostReady_csN i hcs) ts, ?_⟩
    · rw [fifoOf_deliver, fifoOf_afterTxns, fifoOf_hostReady]
    · have hready : (hostReady i s).results = s.results :=
        (congrArg State.results (onlyBus_hostReady i s [])).trans
          (congrArg State.results (hostEffect_frame i s) :)
      intro r' hr'
      rw [deliver_results, afterTxns_results, hready, List.mem_append, List.mem_singleton] at hr'
      obtain hold | rfl := hr'
      · exact hresults r' hold
      · exact hr hfifo

theorem fifoOk_route {f : Frame} {s : State} (hf : FrameOk f) (h : FifoOk s) : FifoOk (route f s) := by
  cases hcb : s.cbAttached with
  | true => rwa [route_attached hcb]
  | false =>
    rw [route_detached hcb]
    exact fifoOk_fifoPush hf h

theorem route_cbLogOk {f : Frame} {s : State} (hf : FrameOk f) (h : ∀ g ∈ s.cbLog, FrameOk g) :
    ∀ g ∈ (route f s).cbLog, FrameOk g := by
  cases hcb : s.cbAttached with
  | true =>
    intro g hg
    rw [route_attached hcb, callbackDeliver_cbLog, List.mem_append, List.mem_singleton] at hg
    obtain hold | rfl := hg
    · exact h g hold
    · exact hf
  | false => rwa [route_detached hcb, fifoPush_cbLog]

/-! ### The invariant, agent by agent -/

theorem heldInReset_of_high {s : State} (h : s.rstN = .high) : HeldInReset s := by
  intro hlow
  rw [h] at hlow
  cases hlow

theorem blockOk_turnTaken {s : State} (h : BlockOk s) (turns : List Turn) (draws : Nat) :
    BlockOk (turnTaken s turns draws) :=
  ⟨h.cfgOk, h.fifoOk, h.csHigh, h.cbLogOk, h.resultsOk, h.latchOnlyEdge, h.polledIdle, h.heldInReset⟩

theorem blockOk_withRequests {s : State} (h : BlockOk s) (ps : List Presented) : BlockOk (withRequests ps s) :=
  ⟨h.cfgOk, h.fifoOk, h.csHigh, h.cbLogOk, h.resultsOk, h.latchOnlyEdge, h.polledIdle, h.heldInReset⟩

theorem blockOk_envTurn {s : State} (h : BlockOk s) (e : EnvEvent) : BlockOk (envTurn e s) := by
  cases e with
  | setInt v =>
    have hlatch : s.cfg.drainMode ≠ .edge → (envSetInt v s).edgeLatch = false := by
      intro hne
      rw [envSetInt_no_falling_edge (.inl hne)]
      exact h.latchOnlyEdge hne
    exact ⟨h.cfgOk, h.fifoOk, h.csHigh, h.cbLogOk, h.resultsOk, hlatch, h.polledIdle, h.heldInReset⟩
  | setRst v =>
    cases v with
    | low =>
      exact {
        cfgOk := h.cfgOk
        fifoOk := fifoOk_cleared h.fifoOk (fifoOf_envTurn_reset s) rfl
        csHigh := rfl
        cbLogOk := fun _ hf => by cases hf
        resultsOk := fun _ hr => by cases hr
        latchOnlyEdge := fun _ => rfl
        polledIdle := fun _ => rfl
        heldInReset := fun _ => ⟨rfl, rfl, rfl, rfl, rfl, rfl⟩ }
    | high =>
      exact ⟨h.cfgOk, h.fifoOk, h.csHigh, h.cbLogOk, h.resultsOk, h.latchOnlyEdge, h.polledIdle,
        heldInReset_of_high rfl⟩

/-- An instruction runs out of reset only, and touches neither the drain nor its latch. -/
theorem blockOk_exec {i : Instr} {s t : State} (h : BlockOk s) (hrst : s.rstN = .high) (hexec : exec i s = .next t) :
    BlockOk t := by
  have hframe := exec_frame hexec
  obtain ⟨hfifo, hcs, hresults⟩ := exec_keeps h.fifoOk h.csHigh h.resultsOk hexec
  exact {
    cfgOk := hframe.cfg ▸ h.cfgOk
    fifoOk := hfifo
    csHigh := hcs
    cbLogOk := hframe.cbLog ▸ h.cbLogOk
    resultsOk := hresults
    latchOnlyEdge := by rw [hframe.cfg, hframe.edgeLatch]; exact h.latchOnlyEdge
    polledIdle := by rw [hframe.cfg, hframe.drainState]; exact h.polledIdle
    heldInReset := heldInReset_of_high (hframe.rstN.trans hrst) }

theorem blockOk_hostTurn {s t : State} (h : BlockOk s) (hturn : hostTurn s = .next t) : BlockOk t := by
  obtain rfl | ⟨p, ps, -, ⟨hrst, -⟩, ⟨i, -, hexec⟩ | ⟨r, e, -, -, rfl⟩⟩ := hostTurn_cases hturn
  · exact h
  · exact blockOk_exec (blockOk_withRequests h ps) hrst hexec
  · exact ⟨h.cfgOk, h.fifoOk, h.csHigh, h.cbLogOk, h.resultsOk, h.latchOnlyEdge, h.polledIdle,
      heldInReset_of_high hrst⟩

theorem blockOk_afterTxns {s : State} (h : BlockOk s) (hrst : s.rstN = .high) (ts : List (List Byte)) :
    BlockOk (afterTxns s ts) where
  cfgOk := by rw [afterTxns_cfg]; exact h.cfgOk
  fifoOk := fifoOk_congr (fifoOf_afterTxns s ts) (afterTxns_cfg s ts) h.fifoOk
  csHigh := afterTxns_csN h.csHigh ts
  cbLogOk := by rw [afterTxns_cbLog]; exact h.cbLogOk
  resultsOk := by rw [afterTxns_results]; exact h.resultsOk
  latchOnlyEdge := by rw [afterTxns_cfg, afterTxns_edgeLatch]; exact h.latchOnlyEdge
  polledIdle := by rw [afterTxns_cfg, afterTxns_drainState]; exact h.polledIdle
  heldInReset := heldInReset_of_high (by rw [afterTxns_rstN, hrst])

theorem blockOk_route {f : Frame} {s : State} (h : BlockOk s) (hf : FrameOk f) (hrst : s.rstN = .high) :
    BlockOk (route f s) where
  cfgOk := by rw [route_cfg]; exact h.cfgOk
  fifoOk := fifoOk_route hf h.fifoOk
  csHigh := by rw [route_csN]; exact h.csHigh
  cbLogOk := route_cbLogOk hf h.cbLogOk
  resultsOk := by rw [route_results]; exact h.resultsOk
  latchOnlyEdge := by rw [route_cfg, route_edgeLatch]; exact h.latchOnlyEdge
  polledIdle := by rw [route_cfg, route_drainState]; exact h.polledIdle
  heldInReset := heldInReset_of_high (by rw [route_rstN, hrst])

/-- A start is never under POLLED, and clears the latch only. -/
theorem blockOk_drainEnter {s : State} (h : BlockOk s) (hstart : DrainMayStart s) : BlockOk (drainEnter s) := by
  obtain ⟨hrst, -, hmode⟩ := hstart
  have hlatch : s.cfg.drainMode ≠ .edge → (drainEnter s).edgeLatch = false := by
    intro hne
    rw [drainEnter_edgeLatch, if_neg hne]
    exact h.latchOnlyEdge hne
  have hpolled : s.cfg.drainMode ≠ .polled := by
    intro hp
    simp [hp] at hmode
  exact ⟨h.cfgOk, h.fifoOk, h.csHigh, h.cbLogOk, h.resultsOk, hlatch, fun hp => absurd hp hpolled,
    heldInReset_of_high hrst⟩

theorem blockOk_drainTurn {s : State} (h : BlockOk s) : BlockOk (drainTurn s) := by
  obtain hturn | ⟨hstart, hturn⟩ | ⟨hrst, -, ts, hturn | ⟨f, hf, hturn⟩⟩ := drainTurn_forms s
  · rwa [hturn]
  · rw [hturn]
    exact blockOk_drainEnter h hstart
  · have hq := blockOk_afterTxns h hrst ts
    rw [hturn]
    exact ⟨hq.cfgOk, hq.fifoOk, hq.csHigh, hq.cbLogOk, hq.resultsOk, hq.latchOnlyEdge, fun _ => rfl,
      heldInReset_of_high (by simp [hrst])⟩
  · rw [hturn]
    exact blockOk_route (blockOk_afterTxns h hrst ts) hf (by rw [afterTxns_rstN, hrst])

/-- Settles O57: each agent's turn keeps the invariant; the parameters are in no agent's frame. -/
theorem everyStepKeepsTheBlockInvariant : Obligations.EveryStepKeepsTheBlockInvariant := by
  unfold Obligations.EveryStepKeepsTheBlockInvariant
  intro s t h
  refine ⟨step_cfg h, fun hok => ?_⟩
  obtain ⟨turns, draws, hturn⟩ := step_turn_cases h
  have htaken := blockOk_turnTaken hok turns draws
  obtain ⟨e, -, rfl⟩ | ⟨-, rfl⟩ | ⟨-, hhost⟩ := hturn
  · exact blockOk_envTurn htaken e
  · exact blockOk_drainTurn htaken
  · exact blockOk_hostTurn htaken hhost

/-! ### No fault (R242) -/

/-- Under the FIFO's invariant every instruction answers a next state: the slot FIFO_POP reads is written. -/
theorem exec_next_of_fifoOk {s : State} (h : FifoOk s) (i : Instr) : ∃ t, exec i s = .next t := by
  by_cases hi : i = .fifoPop
  · subst hi
    obtain hnext | ⟨hne, hnone, -⟩ := exec_fifoPop_cases s
    · exact hnext
    · obtain ⟨f, hsome, -⟩ := fifoSlot_head_of_fifoOk h hne
      rw [hnone] at hsome
      cases hsome
  · exact exec_next_of_ne_fifoPop hi s

theorem hostTurn_ne_fault {s : State} (h : FifoOk s) (r : Fault) : hostTurn s ≠ .fault r := by
  intro hfault
  by_cases hm : HostMayStep s
  · cases hr : s.requests with
    | nil => simp [hostTurn, hr] at hfault
    | cons p ps =>
      rw [hostTurn_run hr hm] at hfault
      unfold runPresented at hfault
      split at hfault
      · next i _ =>
        obtain ⟨t, ht⟩ := exec_next_of_fifoOk (s := withRequests ps s) h i
        rw [ht] at hfault
        cases hfault
      · cases hfault
      · cases hfault
  · rw [hostTurn_wait hm] at hfault
    cases hfault

/-- Settles O58: ENV and DRAIN turns always answer a next state; a HOST turn does not fault, and has one refusal. -/
theorem noStepFaultsUnderTheInvariant : Obligations.NoStepFaultsUnderTheInvariant := by
  unfold Obligations.NoStepFaultsUnderTheInvariant
  intro s h
  rw [step_ok h.cfgOk]
  cases hturn : (nextTurn s).1 with
  | env e => exact .inl ⟨_, rfl⟩
  | drain => exact .inl ⟨_, rfl⟩
  | host =>
    obtain ⟨hfifo, hrequests, hcfg⟩ := turnTaken_keeps_fifo (nextTurn_snd s)
    cases hout : hostTurn (nextTurn s).2 with
    | next t => exact .inl ⟨t, hout⟩
    | fault r => exact absurd hout (hostTurn_ne_fault (fifoOk_congr hfifo hcfg h.fifoOk) r)
    | refused r =>
      obtain ⟨rfl, bytes, ps, e, hbytes, -, hdecode⟩ := hostTurn_refused_cases hout
      rw [hrequests] at hbytes
      rw [hcfg] at hdecode
      exact .inr ⟨hout, rfl, bytes, ps, e, hbytes, hdecode⟩

end Sys2Proof.Machine
end

