-- ==== Sys2Proof/Proofs/HeldLine.lean ====
section
/-! PROOFS. Runs with the line held low: under EDGE no drain starts without an edge, under LEVEL drains follow one
another and the host is locked out (spec 70_reset_and_hazards R264, R265). -/

namespace Sys2Proof.Machine

/-- Turns that neither raise the line nor reset the block. -/
abbrev Holding (turn : Turn) : Prop :=
  turn ≠ .env (.setInt .high) ∧ turn ≠ .env (.setRst .low)

/-- The two ENV turns left: the line driven low again, and `rst_n` released. -/
theorem holding_env_cases {e : EnvEvent} (h : Holding (.env e)) : e = .setInt .low ∨ e = .setRst .high := by
  obtain ⟨hline, hreset⟩ := h
  cases e with
  | setInt v =>
    cases v with
    | low => exact .inl rfl
    | high => exact absurd rfl hline
  | setRst v =>
    cases v with
    | low => exact absurd rfl hreset
    | high => exact .inr rfl

/-! ### EDGE: a missed edge (R265) -/

/-- The line is low under EDGE, and its edge was missed: nothing is latched and no drain is under way. -/
structure EdgeMissed (s : State) : Prop where
  mode : s.cfg.drainMode = .edge
  idle : s.drainState = .idle
  latch : s.edgeLatch = false
  line : s.intPrev = .low

theorem EdgeMissed.not_drainMayStart {s : State} (h : EdgeMissed s) : ¬ DrainMayStart s := by
  rintro ⟨-, -, ⟨hmode, -⟩ | ⟨-, hlatch⟩⟩
  · rw [h.mode] at hmode
    cases hmode
  · rw [h.latch] at hlatch
    cases hlatch

theorem EdgeMissed.of_exec {i : Instr} {s t : State} (h : EdgeMissed s) (hexec : exec i s = .next t) :
    EdgeMissed t := by
  have hframe := exec_frame hexec
  exact ⟨by rw [hframe.cfg, h.mode], by rw [hframe.drainState, h.idle], by rw [hframe.edgeLatch, h.latch],
    by rw [hframe.intPrev, h.line]⟩

/-- Any holding turn leaves the edge missed, and the rest of the schedule to come. -/
theorem EdgeMissed.of_takeTurn {turn : Turn} {s t : State} (h : EdgeMissed s) (hhold : Holding turn)
    (hturn : takeTurn turn s = .next t) : EdgeMissed t ∧ t.schedule = s.schedule := by
  cases turn with
  | env e =>
    cases hturn
    obtain rfl | rfl := holding_env_cases hhold
    · have hsame : envTurn (.setInt .low) s = { s with intPrev := .low } :=
        envSetInt_no_falling_edge (.inr (.inl h.line))
      rw [hsame]
      exact ⟨⟨h.mode, h.idle, h.latch, rfl⟩, rfl⟩
    · exact ⟨⟨h.mode, h.idle, h.latch, h.line⟩, rfl⟩
  | drain =>
    obtain rfl : drainTurn s = t := Host.Outcome.next.inj hturn
    rw [drainTurn_rests h.idle h.not_drainMayStart]
    exact ⟨h, rfl⟩
  | host =>
    obtain rfl | ⟨p, ps, -, -, ⟨i, -, hexec⟩ | ⟨r, e, -, -, rfl⟩⟩ := hostTurn_cases hturn
    · exact ⟨h, rfl⟩
    · have hready : EdgeMissed (withRequests ps s) := ⟨h.mode, h.idle, h.latch, h.line⟩
      exact ⟨hready.of_exec hexec, (exec_frame hexec).schedule⟩
    · exact ⟨⟨h.mode, h.idle, h.latch, h.line⟩, rfl⟩

/-- Settles O47: by induction over the turns, each of which leaves the edge missed. -/
theorem aMissedEdgeStartsNoDrain : Obligations.AMissedEdgeStartsNoDrain := by
  unfold Obligations.AMissedEdgeStartsNoDrain
  intro turns rest s t hs hmode hidle hlatch hline hturns hrun
  have hmissed : EdgeMissed s := ⟨hmode, hidle, hlatch, hline⟩
  clear hmode hidle hlatch hline
  induction turns generalizing s with
  | nil =>
    cases hrun
    exact ⟨hmissed.idle, hmissed.latch, hmissed.line⟩
  | cons turn turns ih =>
    obtain ⟨hturn, hrest⟩ := List.forall_mem_cons.mp hturns
    obtain ⟨u, hstep, hrun⟩ := run_succ_cases hrun
    obtain ⟨hw, -⟩ := step_cases hstep
    rw [step_scheduled hw hs] at hstep
    have hstart : EdgeMissed { s with schedule := turns ++ rest } :=
      ⟨hmissed.mode, hmissed.idle, hmissed.latch, hmissed.line⟩
    obtain ⟨hmissed', hs'⟩ := hstart.of_takeTurn hturn hstep
    exact ih u hs' hrest hrun hmissed'

/-! ### LEVEL: the host locked out (R264) -/

/-- Out of reset, under LEVEL, with the line low. -/
structure HeldLow (s : State) : Prop where
  cfgOk : s.cfg.wellFormed = true
  mode : s.cfg.drainMode = .level
  rst : s.rstN = .high
  line : s.intPrev = .low

theorem HeldLow.not_hostMayStep {s : State} (h : HeldLow s) : ¬ HostMayStep s := by
  rintro ⟨-, -, hline, -⟩
  have := hline h.mode
  rw [h.line] at this
  cases this

section heldSteps
variable {s : State} {turns : List Turn} (h : HeldLow s)
include h

/-- The HOST agent waits, and ENV drives the lines where they are: nothing changes. -/
theorem HeldLow.step_others {turn : Turn} (hs : s.schedule = turn :: turns) (hhold : Holding turn)
    (hdrain : turn ≠ .drain) : step s = .next { s with schedule := turns } := by
  cases turn with
  | drain => exact absurd rfl hdrain
  | host => exact step_host_waits h.cfgOk hs h.not_hostMayStep
  | env e =>
    rw [step_scheduled h.cfgOk hs]
    obtain rfl | rfl := holding_env_cases hhold
    · have hsame : envSetInt .low { s with schedule := turns } = { s with schedule := turns, intPrev := .low } :=
        envSetInt_no_falling_edge (.inr (.inl h.line))
      have hlow : { s with schedule := turns, intPrev := .low } = { s with schedule := turns } := by
        rw [← h.line]
      exact congrArg _ (hsame.trans hlow)
    · have hsame : setRstN .high { s with schedule := turns } = { s with schedule := turns, rstN := s.rstN } := by
        rw [h.rst]
        rfl
      exact congrArg _ hsame

/-- From IDLE a DRAIN turn is a start, which issues nothing. -/
theorem HeldLow.step_start (hs : s.schedule = .drain :: turns) (hidle : s.drainState = .idle) :
    step s = .next { s with schedule := turns, drainState := .draining } := by
  have hlatch : (if s.cfg.drainMode = .edge then false else s.edgeLatch) = s.edgeLatch := by
    rw [h.mode]
    rfl
  have hstart := (drainStartsAsTheModeAllows s turns h.cfgOk hs hidle).1 ⟨h.rst, hidle, .inl ⟨h.mode, h.line⟩⟩
  rwa [hlatch] at hstart

/-- From DRAINING a DRAIN turn is a query, and an empty one ends the activation. -/
theorem HeldLow.step_query (hs : s.schedule = .drain :: turns) (hdraining : s.drainState = .draining)
    (hempty : availBits s.cfg (answer s 1) = 0) :
    step s = .next { afterTxn { s with schedule := turns } (availMosi s) with drainState := .idle } :=
  (drainIterationQueriesReceivesRoutes s turns h.cfgOk hs hdraining h.rst).1 hempty

end heldSteps

/-- The drain state after `moves` starts and queries by turns, counted from IDLE. -/
def drainStateAfter (moves : Nat) : DrainState :=
  if moves % 2 = 0 then .idle else .draining

/-- The starts already made: one, where an activation is under way. -/
def startsMade (d : DrainState) : Nat :=
  if d = .draining then 1 else 0

/-- What a run of `turns` with `moves` starts and queries comes to: every second one is a query, and nothing but the
schedule, the drain state and the bus side differs. -/
def LockedRun (s : State) (turns rest : List Turn) (moves : Nat) : Prop :=
  ∃ t es, Host.Core.run Sys2Proof.core turns.length s = .next t ∧
    t = { s with
      schedule := rest, drainState := drainStateAfter moves
      csN := t.csN, busLog := s.busLog ++ es, miso := t.miso, misoDraws := t.misoDraws } ∧
    mosiOf es = List.replicate (moves / 2) (availMosi s)

theorem length_availMosi (s : State) : (availMosi s).length = 2 := by
  unfold availMosi
  split <;> rfl

theorem drainStateAfter_startsMade (d : DrainState) : drainStateAfter (startsMade d) = d := by
  cases d <;> rfl

theorem drainStateAfter_add_two (moves : Nat) : drainStateAfter (moves + 2) = drainStateAfter moves := by
  rw [drainStateAfter, drainStateAfter, Nat.add_mod_right]

section lockedRun
variable {s u : State} {turn : Turn} {turns rest : List Turn} {moves : Nat}

theorem lockedRun_nil (hs : s.schedule = rest) : LockedRun s [] rest (startsMade s.drainState) := by
  subst hs
  refine ⟨s, [], rfl, ?_, ?_⟩
  · rw [drainStateAfter_startsMade, List.append_nil]
  · cases s.drainState <;> rfl

/-- A first step that only moves the schedule on, and perhaps starts the drain, adds nothing. -/
theorem LockedRun.cons_quiet {d : DrainState}
    (hstep : step s = .next { s with schedule := turns ++ rest, drainState := d })
    (h : LockedRun { s with schedule := turns ++ rest, drainState := d } turns rest moves) :
    LockedRun s (turn :: turns) rest moves := by
  obtain ⟨t, es, hrun, ht, hmosi⟩ := h
  exact ⟨t, es, (run_next hstep _).trans hrun, ht, hmosi⟩

/-- A first step that is an empty query adds it, and two moves. -/
theorem LockedRun.cons_query
    (hstep : step s = .next
      { afterTxn { s with schedule := turns ++ rest } (availMosi s) with drainState := .idle })
    (h : LockedRun { afterTxn { s with schedule := turns ++ rest } (availMosi s) with drainState := .idle }
      turns rest moves) :
    LockedRun s (turn :: turns) rest (moves + 2) := by
  obtain ⟨t, es, hrun, ht, hmosi⟩ := h
  refine ⟨t, .txn (exchanged s (availMosi s)) :: es, (run_next hstep _).trans hrun, ?_, ?_⟩
  · rw [drainStateAfter_add_two, List.append_cons]
    exact ht
  · rw [mosiOf, map_mosi_exchanged, hmosi, Nat.add_div_right _ (by decide), List.replicate_succ]
    rfl

end lockedRun

/-- By induction over the turns: a HOST or ENV turn changes nothing, a DRAIN turn starts an activation or ends it by
a query. -/
theorem HeldLow.lockedRun (turns rest : List Turn) {s : State} (h : HeldLow s) (hs : s.schedule = turns ++ rest)
    (hturns : ∀ turn ∈ turns, Holding turn)
    (hempty : ∀ j, j < (turns.count .drain + startsMade s.drainState) / 2 →
      availBits s.cfg (answer s (2 * j + 1)) = 0) :
    LockedRun s turns rest (turns.count .drain + startsMade s.drainState) := by
  induction turns generalizing s with
  | nil =>
    rw [List.count_nil, Nat.zero_add]
    exact lockedRun_nil hs
  | cons turn turns ih =>
    obtain ⟨hturn, hrest⟩ := List.forall_mem_cons.mp hturns
    by_cases hdrain : turn = .drain
    · subst hdrain
      rw [List.count_cons_self] at hempty ⊢
      cases hstate : s.drainState with
      | idle =>
        rw [hstate] at hempty
        exact .cons_quiet (h.step_start hs hstate)
          (ih (s := { s with schedule := turns ++ rest, drainState := .draining })
            ⟨h.cfgOk, h.mode, h.rst, h.line⟩ rfl hrest hempty)
      | draining =>
        rw [hstate] at hempty
        have hfirst : availBits s.cfg (answer s 1) = 0 := hempty 0 (by simp [startsMade])
        refine .cons_query (h.step_query hs hstate hfirst) (ih ⟨h.cfgOk, h.mode, h.rst, h.line⟩ rfl hrest ?_)
        intro j hj
        have hanswer : answer (afterTxn { s with schedule := turns ++ rest } (availMosi s)) (2 * j + 1) =
            answer s (2 * (j + 1) + 1) := by
          rw [answer_afterTxn, length_availMosi, Nat.add_comm 2, Nat.add_right_comm, ← Nat.mul_succ]
          rfl
        refine (congrArg (availBits s.cfg) hanswer).trans (hempty (j + 1) ?_)
        simp only [startsMade, reduceCtorEq, if_true, if_false] at hj ⊢
        omega
    · rw [List.count_cons_of_ne hdrain] at hempty ⊢
      exact .cons_quiet (h.step_others hs hturn hdrain)
        (ih (s := { s with schedule := turns ++ rest }) ⟨h.cfgOk, h.mode, h.rst, h.line⟩ rfl hrest hempty)

/-- Settles O48: the run is the locked one, and at its end the line is low still. -/
theorem aHeldLineLocksTheHostOut : Obligations.AHeldLineLocksTheHostOut := by
  unfold Obligations.AHeldLineLocksTheHostOut
  rintro turns rest s moves hw hs hmode hrst hline hturns rfl hempty
  have h : HeldLow s := ⟨hw, hmode, hrst, hline⟩
  obtain ⟨t, es, hrun, ht, hmosi⟩ := h.lockedRun turns rest hs hturns hempty
  have hend : HeldLow t := by
    rw [ht]
    exact ⟨hw, hmode, hrst, hline⟩
  exact ⟨t, es, hrun, hend.not_hostMayStep, ht, hmosi⟩

end Sys2Proof.Machine
end
